-- ==== Sys2Proof/Word.lean ====
section
/-! DEFINITION. The word types of the block and the small enumerations its rules are written in
(spec/00_scope.md R9, spec/10_state.md, spec/30_encoding.md R89). -/

namespace Sys2Proof

/-- One byte: a bus byte, a peripheral register, a ring or buffer cell. -/
abbrev Byte := BitVec 8

/-- A 32-bit host word. -/
abbrev Word := BitVec 32

/-- A transfer direction as the bus sees it: `w` is 0 and `r` is 1 (R87, R89). The slave's `d` in R181 uses the same
values: 0, the remote master writes to this slave; 1, it reads from it (R36). -/
inductive Dir where
  | w | r
deriving DecidableEq, Repr, Inhabited

/-- An acknowledge action: `ack` is 0 and `nack` is 1 (R89). -/
inductive AckAct where
  | ack | nack
deriving DecidableEq, Repr, Inhabited

/-- The bus mode (R80, R89). The reserved value 3 has no constructor. -/
inductive BusMode where
  | standard | fast | fastPlus
deriving DecidableEq, Repr, Inhabited

/-- The error codes (R230). Their numbers are `ErrorCode.number`. -/
inductive ErrorCode where
  | noDevice | busy | ioError | noData | noMemory
deriving DecidableEq, Repr, Inhabited

/-- The internal peripheral registers (R27). Their numbers are `PReg.number`. -/
inductive PReg where
  | mctrla | mctrlb | mstatus | mbaud | maddr | mdata
  | sctrla | sctrlb | sstatus | saddr | sdata
deriving DecidableEq, Repr, Inhabited

/-- The encoded formats of spec/opcode_table.json (R80, R86, R88). -/
inductive Format where
  | hcmd | mctrlb | sctrlb | pacc
deriving DecidableEq, Repr, Inhabited

end Sys2Proof
end

