-- ==== Sys2Proof/Machine/Input.lean ====
section
/-! DEFINITION. What the agents outside the block may do, and whose turn it is: host accesses (spec/10_state.md R21),
bus answers (spec/42_master_engine.md R150), slave events (spec/43_slave_engine.md R181), and the turns that order
the agents' steps (R46). -/

namespace Sys2Proof.Machine

/-- One access by the host to the block's window: a byte offset from `HOST_BASE`, a width in bits, and the value of a
write (R21, R64). An 8-bit write carries its byte in the low bits. -/
inductive HostAccess where
  | read (offset width : Nat)
  | write (offset width : Nat) (value : Word)
deriving DecidableEq, Repr, Inhabited

/-- The answers of R150. `rxack` of a lost answer is the draw "any value". -/
inductive Answer where
  | ackW
  | nack
  | ackR (b : Byte)
  | ack
  | byte (b : Byte)
  | lostArb (rxack : Bool)
  | lostBus (rxack : Bool)
deriving DecidableEq, Repr, Inhabited

/-- The slave events of R181. `addressByte a d` is an address byte `a` with direction `d` on the bus: it is the event
AddrMatch(d) exactly when R182 holds, and otherwise no event at all. -/
inductive SlaveEvent where
  | addressByte (a : BitVec 7) (d : Dir)
  | stop
  | collision
  | dataRx (b : Byte)
  | dataTxReq
deriving DecidableEq, Repr, Inhabited

/-- One agent's turn (R46). A turn whose step is not enabled changes nothing. -/
inductive Turn where
  /-- FG, as the host: one access. -/
  | host (a : HostAccess)
  /-- FG, inside a command: one Master Engine transition, or one micro-step of the harness. -/
  | engine
  /-- ISR: one invocation of the handler. -/
  | isr
  /-- BUS: one answer to the outstanding master request. -/
  | answer (a : Answer)
  /-- BUS: one slave event. -/
  | event (e : SlaveEvent)
deriving DecidableEq, Repr, Inhabited

end Sys2Proof.Machine
end

