-- ==== Sys2Proof/Config.lean ====
section
/-! DEFINITION. The implementation parameters of spec/00_scope.md R8 and the free values.

The opaque constants have no body: no proof can see their value, so a claim holds for every value of them. -/

namespace Sys2Proof

/-- The parameters R8 makes arguments of the step relation. State carries one such record and no step changes it
(DESIGN CHOICE, log 2). -/
structure Config.Params where
  /-- `C`, the ring capacity and the number of HBUF entries; 1 to 255. -/
  capacity : Nat
  /-- `BUS_CLOCK_HZ`, a positive integer. -/
  busClockHz : Nat
  /-- `HOST_BASE`. -/
  hostBase : Nat
  /-- `BRACKET`: false only in the hazard harness. -/
  bracket : Bool
deriving DecidableEq, Repr

/-- The ranges of R8: `C` in 1..255 and a positive clock. -/
def Config.Params.valid (p : Config.Params) : Bool :=
  decide (1 ≤ p.capacity ∧ p.capacity ≤ 255 ∧ 0 < p.busClockHz)

/-- The bus clock less one. R8 leaves the clock OPEN, a positive integer; so does this constant (log 2). -/
opaque Config.busClockLessOne : Nat

/-- `HOST_BASE`, which R8 leaves OPEN (log 2). -/
opaque Config.hostBase : Nat

/-- The capacity of the reference system (R8). -/
def Config.referenceCapacity : Nat := 100

/-- The largest capacity R8 admits. -/
def Config.maxCapacity : Nat := 255

/-- This hardware: C = 100, BRACKET = true, the two open parameters open (R8). -/
def Config.reference : Config.Params where
  capacity := Config.referenceCapacity
  busClockHz := Config.busClockLessOne + 1
  hostBase := Config.hostBase
  bracket := true

/-- FREE VALUE: the fresh draw for an HBUF entry after IOError (R168), applied to the counter State.draws (log 3). -/
opaque Config.freeByte : Nat → Byte

/-- FREE VALUE: whose turn is next, and with which choice, once State.schedule is used up (R46, R48), applied to the
counter State.draws (log 1, log 3). -/
opaque Config.freeTurn : Nat → Machine.Turn

end Sys2Proof
end

