-- ==== Sys2Proof/Syntax.lean ====
section
/-! DEFINITION. The instructions: one constructor per row of spec/opcode_table.json, with the operands its rule gives
it. The seven host commands come first, then the engines' bus primitives. -/

namespace Sys2Proof

/-- One constructor per row of the opcode table. -/
inductive Instr where
  /-- INITM (R211): the mode; the frequency is in HARG. -/
  | initm (mode : BusMode)
  /-- MSEND (R212): target address and byte count; the bytes are in HBUF. -/
  | msend (addr : BitVec 7) (count : Byte)
  /-- MRECV (R213): target address and byte count. -/
  | mrecv (addr : BitVec 7) (count : Byte)
  /-- INITS (R214): the slave address. -/
  | inits (addr : BitVec 7)
  /-- SETSA (R215): the slave address. -/
  | setsa (addr : BitVec 7)
  /-- SENQ (R217): byte count; the bytes are in HBUF. -/
  | senq (count : Byte)
  /-- SDRAIN (R218): the most bytes to take. -/
  | sdrain (count : Byte)
  /-- MCTRLB.RECVTRANS (R146). -/
  | mctrlbRecvtrans (act : AckAct)
  /-- MCTRLB.STOP (R147). -/
  | mctrlbStop (act : AckAct)
  /-- SCTRLB.COMPTRANS (R187). -/
  | sctrlbComptrans (act : AckAct)
  /-- SCTRLB.RESPONSE (R186): the second operand is for the trace only. -/
  | sctrlbResponse (act : AckAct) (presented : Option Byte)
  /-- MSTATUS.READ (R148). -/
  | mstatusRead
  /-- MADDR.WRITE (R143): the address byte's two parts. -/
  | maddrWrite (addr7 : BitVec 7) (dir : Dir)
  /-- MDATA.WRITE (R144). -/
  | mdataWrite (b : Byte)
  /-- MDATA.READ (R145). -/
  | mdataRead
  /-- SSTATUS.READ (R190). -/
  | sstatusRead
  /-- SDATA.WRITE (R188). -/
  | sdataWrite (b : Byte)
  /-- SDATA.READ (R189). -/
  | sdataRead
deriving DecidableEq, Repr

end Sys2Proof
end

