-- ==== Sys2Proof/Machine/Operands.lean ====
section
/-! DEFINITION. Operand forms and field layouts, over plain bit vectors: enumerated values (spec/30_encoding.md R89),
the fields of a command word (R81), the address byte (R87), the peripheral command byte (R86), the PACC byte (R88),
the host result word (spec/10_state.md R24), and the control bytes the initialisations write (spec/44_facade.md). -/

namespace Sys2Proof

/-- Direction: W = 0, R = 1 (R89). -/
def Dir.bit : Dir → BitVec 1
  | .w => 0#1
  | .r => 1#1

/-- The direction a bit names (R89). -/
def Dir.ofBool : Bool → Dir
  | false => .w
  | true => .r

/-- ACK = 0, NACK = 1 (R89). -/
def AckAct.bit : AckAct → BitVec 1
  | .ack => 0#1
  | .nack => 1#1

/-- The acknowledge action a bit names (R89). -/
def AckAct.ofBool : Bool → AckAct
  | false => .ack
  | true => .nack

/-- Standard = 0, Fast = 1, FastPlus = 2 (R89). -/
def BusMode.number : BusMode → BitVec 2
  | .standard => 0#2
  | .fast => 1#2
  | .fastPlus => 2#2

/-- The mode a field names; 3 is reserved (R80). -/
def BusMode.ofNumber? (m : BitVec 2) : Option BusMode :=
  if m = 0#2 then some .standard
  else if m = 1#2 then some .fast
  else if m = 2#2 then some .fastPlus
  else none

/-- The numbers of R230. -/
def ErrorCode.number : ErrorCode → Byte
  | .noDevice => 1#8
  | .busy => 2#8
  | .ioError => 3#8
  | .noData => 4#8
  | .noMemory => 5#8

/-- The internal register numbers of R27. -/
def PReg.number : PReg → BitVec 5
  | .mctrla => 0x00#5
  | .mctrlb => 0x01#5
  | .mstatus => 0x02#5
  | .mbaud => 0x03#5
  | .maddr => 0x04#5
  | .mdata => 0x05#5
  | .sctrla => 0x08#5
  | .sctrlb => 0x09#5
  | .sstatus => 0x0A#5
  | .saddr => 0x0B#5
  | .sdata => 0x0C#5

/-- `OP = HCMD[7:0]` (R81). -/
def Word.op (w : Word) : Byte := w.extractLsb' 0 8

/-- `ADDR = HCMD[14:8]` (R81). -/
def Word.addr (w : Word) : BitVec 7 := w.extractLsb' 8 7

/-- `MODE = HCMD[17:16]` (R81). -/
def Word.mode (w : Word) : BitVec 2 := w.extractLsb' 16 2

/-- `COUNT = HCMD[31:24]` (R81). -/
def Word.count (w : Word) : Byte := w.extractLsb' 24 8

namespace Machine

/-- The address byte `{addr7, dir}` (R87). -/
def addressByte (a : BitVec 7) (d : Dir) : Byte := a ++ d.bit

/-- The slave's own address `{a, 0}` (R214, R215): the layout of R87 with bit 0 fixed at 0. -/
def slaveAddressByte (a : BitVec 7) : Byte := a ++ 0#1

/-- The 7-bit address of an address byte, bits 7:1 (R32, R37). -/
def addressOf (b : Byte) : BitVec 7 := b.extractLsb' 1 7

/-- A peripheral command byte `{00000, ackact, cmd}` (R86). -/
def commandByte (act : AckAct) (cmd : BitVec 2) : Byte := 0#5 ++ act.bit ++ cmd

/-- RECVTRANS and COMPTRANS are command 2; STOP and RESPONSE are command 3 (R86). -/
def cmdTwo : BitVec 2 := 2#2

/-- See `cmdTwo`. -/
def cmdThree : BitVec 2 := 3#2

/-- What MCTRLB or SCTRLB reads after a command with `act`: the command field 0, ACKACT the last written (R30, R35). -/
def commandReadBack (act : AckAct) : Byte := commandByte act 0#2

/-- The PACC byte: W in bit 7, bits 6:5 zero, the register number in 4:0 (R88). -/
def paccByte (write : Bool) (r : PReg) : Byte := BitVec.ofBool write ++ 0#2 ++ r.number

/-- `MCTRLA <- {00000, mode, 1}` (R211). -/
def mctrlaOf (mode : BusMode) : Byte := 0#5 ++ mode.number ++ 1#1

/-- `SCTRLA <- 0x0F`: ENABLE, DIEN, APIEN, PIEN (R214). -/
def sctrlaInit : Byte := 0x0F#8

/-- HRES.BUSY, bit 31 (R24). -/
def hresBusy (h : Word) : Bool := h.getLsbD 31

/-- HRES.STATUS, bits 7:0 (R24). -/
def hresStatus (h : Word) : Byte := h.extractLsb' 0 8

/-- HRES.COUNT, bits 15:8 (R24). -/
def hresCount (h : Word) : Byte := h.extractLsb' 8 8

/-- Acceptance: BUSY set, STATUS and COUNT left alone (R24, R210). -/
def hresAccepted (h : Word) : Word := h ||| 0x80000000#32

/-- Retirement: STATUS and COUNT written, BUSY cleared, the reserved bits 30:16 read 0 (R24, R210). -/
def hresRetired (status count : Byte) : Word := 0#16 ++ count ++ status

end Machine

end Sys2Proof
end

