-- ==== Sys2Proof/Machine/State.lean ====
section
/-! DEFINITION. The state of the block as plain data (spec/10_state.md R20), its reset value (R50,
spec/70_reset_and_hazards.md R260), and the closed lists of faults and refusals (spec/60_exceptions.md R234, R235). -/

namespace Sys2Proof.Machine

/-- A storage space as a list of cells, addresses strictly rising, none equal to what an unlisted address reads as.
HBUF's unlisted entries hold no value (R49); a ring store's unlisted cells hold 0x00 (R50). -/
abbrev Memory := List Host.Cell

/-- A ring buffer instance (R41). `head` and `length` are the spec's 8-bit fields, held as counts (log 15). -/
structure Ring where
  store : Memory
  head : Nat
  length : Nat
deriving DecidableEq, Repr

/-- The two ring buffer instances (R42). -/
inductive RingId where
  | tx | rx
deriving DecidableEq, Repr

/-- The agents that take steps (R46). -/
inductive Agent where
  | fg | isr | bus
deriving DecidableEq, Repr

/-- MSTATE between steps (R39, R141): Error and StopSent are passed through inside the retiring step and are recorded
in MLAST. -/
inductive MState where
  | idle
  | addressPhase
  | dataPhase (i : Nat)
deriving DecidableEq, Repr

/-- The result of an operation: a byte count or an error code (R11, R39). -/
inductive OpResult where
  | ok (n : Nat)
  | err (e : ErrorCode)
deriving DecidableEq, Repr

/-- The terminal states of the source's chain (R39, R141). -/
inductive Terminal where
  | error (e : ErrorCode)
  | stopSent (r : OpResult)
deriving DecidableEq, Repr

/-- M_ADDR7, M_DIR and M_N (R39): present only during a transaction (R40). -/
structure Txn where
  addr7 : BitVec 7
  dir : Dir
  n : Nat
deriving DecidableEq, Repr

/-- MREQ, the master request the BUS has not answered (R51). -/
inductive BusReq where
  | none
  | addr (d : Dir)
  | tx
  | recvNext
deriving DecidableEq, Repr

/-- SPHASE, where the remote master's transaction stands (R51, R183). -/
inductive SlavePhase where
  | idle
  | addressed (d : Dir)
  | active (d : Dir)
  | ending
deriving DecidableEq, Repr

/-- A bus action of TRACE (R45). -/
inductive BusAction where
  | mStart (addr7 : BitVec 7) (dir : Dir)
  | mTx (b : Byte)
  | mRecvNext (act : AckAct)
  | mStop (act : AckAct)
  | sResponse (act : AckAct) (presented : Option Byte)
  | sComplete (act : AckAct)
deriving DecidableEq, Repr

/-- The next micro-step of an un-bracketed bulk command, with the FG-local values read so far (R108, R219). -/
inductive Micro where
  | w1
  | w2 (l : Nat)
  | w3 (l h : Nat)
  | w4 (l : Nat)
  | r1
  | r2 (l : Nat)
  | r3 (l h : Nat)
  | r4 (l h : Nat) (b : Byte)
  | r5 (l : Nat) (b : Byte)
  /-- The final FG step, which retires (R219). -/
  | done
deriving DecidableEq, Repr

/-- An un-bracketed SENQ or SDRAIN in progress: its count, the loop's `k`, the next micro-step (R219). -/
structure Bulk where
  n : Nat
  k : Nat
  pos : Micro
deriving DecidableEq, Repr

/-- The closed list of faults (R235). -/
inductive Fault where
  /-- Raised by a host read of HBUF[i], by T4, T8 and by SENQ, when nothing has written HBUF[i] since reset. Safe: the
  model stops. -/
  | unwrittenRead (i : Nat)
  /-- Raised by a Master Engine step that reads M_ADDR7, M_DIR or M_N while they are absent (R40). Safe: the model stops;
  no reachable state raises it. -/
  | absentTransactionField
deriving DecidableEq, Repr

/-- The closed list of refusals (R234), and the rejection by name of an instruction without a meaning. -/
inductive Refusal where
  /-- An instruction that has no meaning in the model: raised by an arm of exec. Safe. No arm raises it. -/
  | notModelled (mnemonic : String)
  /-- A host access of the wrong width or at an offset that is not a register's own (R64). Raised by the host port. Safe. -/
  | badHostAccess
  /-- A host action while HRES.BUSY = 1 (R26). Raised by the host port and by every host command. Safe. -/
  | hostWhileBusy
  /-- An HCMD word that matches no row (R83, R84). Raised by the decoder. Safe. -/
  | reservedEncoding
  /-- INITM with MODE = 3 (R83). Raised by the decoder. Safe. -/
  | reservedMode
  /-- A counting command with COUNT > C (R83). Raised by the decoder and by the command's meaning. Safe. -/
  | countAboveCapacity
  /-- INITM with HARG = 0 (R211). Raised by INITM. Safe. -/
  | zeroFrequency
  /-- MSEND or MRECV with MCTRLA.ENABLE = 0 (R212, R213). Raised by them. Safe. -/
  | masterDisabled
  /-- A reserved MCTRLB or SCTRLB write, RECVTRANS with NACK, RESPONSE outside Addressed/Active (R86, R146, R186).
  Raised by the decoder of lone accesses and by those primitives. Safe. -/
  | reservedPeripheralCommand
  /-- A ring operation by an agent that does not own that side (R106). Raised by the ring operations; no rule produces
  one. Safe. -/
  | ringRoleViolation
deriving DecidableEq, Repr

/-- The block's state record (R20), the marks of R234 and R235, the harness's FG-local values (R108), and the model's
own fields, which stand last. -/
structure State where
  /-- HARG (R23). -/
  harg : Word
  /-- HRES (R24). -/
  hres : Word
  /-- HBUF (R25): an unlisted entry holds no value (R49). -/
  hbuf : Memory
  /-- MCTRLA (R28). -/
  mctrla : Byte
  /-- MCTRLB as it reads: MCMD 0, ACKACT the last written (R30). -/
  mctrlb : Byte
  /-- MSTATUS (R29). -/
  mstatus : Byte
  /-- MBAUD (R31). -/
  mbaud : Byte
  /-- MADDR (R32). -/
  maddr : Byte
  /-- MDATA (R33). -/
  mdata : Byte
  /-- SCTRLA (R34). -/
  sctrla : Byte
  /-- SCTRLB as it reads: SCMD 0, ACKACT the last written (R35). -/
  sctrlb : Byte
  /-- SSTATUS (R36). -/
  sstatus : Byte
  /-- SADDR (R37). -/
  saddr : Byte
  /-- SDATA (R38). -/
  sdata : Byte
  /-- MSTATE (R39). -/
  mstate : MState
  /-- M_ADDR7, M_DIR, M_N, absent outside a transaction (R39, R40). -/
  txn : Option Txn
  /-- MLAST (R39). -/
  mlast : Option Terminal
  /-- The TX ring (R41, R42). -/
  tx : Ring
  /-- The RX ring (R41, R42). -/
  rx : Ring
  /-- IMASK (R43). -/
  imask : Bool
  /-- TRACE, oldest action first (R45). -/
  trace : List BusAction
  /-- MREQ (R51). -/
  mreq : BusReq
  /-- SPHASE (R51). -/
  sphase : SlavePhase
  /-- The sticky mark REFUSED with the first reason (R234). -/
  refused : Option Refusal
  /-- The sticky mark FAULT with its reason (R235). -/
  faulted : Option Fault
  /-- The bulk command of the harness in progress (R108, R219). -/
  bulk : Option Bulk
  /-- The parameters (R8); no step changes them (DESIGN CHOICE, log 2). -/
  cfg : Config.Params
  /-- The model's own: the turns still to be taken (DESIGN CHOICE, log 1). -/
  schedule : List Turn
  /-- The model's own: one encoded engine access to run by itself; none in every run from reset (DESIGN CHOICE, log 4). -/
  probe : Option (Format × Word)
  /-- The model's own: how many free values have been used (DESIGN CHOICE, log 3). -/
  draws : Nat
  /-- The model's own: the value the last read handed to its reader (DESIGN CHOICE, log 5). -/
  result : Word
deriving DecidableEq, Repr

/-- A ring as reset leaves it: zero-initialised (R50). -/
def Ring.empty : Ring where
  store := []
  head := 0
  length := 0

/-- The block right after reset (R50, R260). -/
def State.reset : State where
  harg := 0#32
  hres := 0#32
  hbuf := []
  mctrla := 0#8
  mctrlb := 0#8
  mstatus := 0#8
  mbaud := 0#8
  maddr := 0#8
  mdata := 0#8
  sctrla := 0#8
  sctrlb := 0#8
  sstatus := 0#8
  saddr := 0#8
  sdata := 0#8
  mstate := .idle
  txn := none
  mlast := none
  tx := Ring.empty
  rx := Ring.empty
  imask := false
  trace := []
  mreq := .none
  sphase := .idle
  refused := none
  faulted := none
  bulk := none
  cfg := Config.reference
  schedule := []
  probe := none
  draws := 0
  result := 0#32

end Sys2Proof.Machine
end

