-- ==== Sys2Proof/Machine/Flags.lean ====
section
/-! DEFINITION. The flags of the status and control registers (spec/10_state.md R28, R29, R34, R36), how each primitive
and each bus action changes them (spec/42_master_engine.md R143 to R150, spec/43_slave_engine.md R181, R186, R187), and
the conditions the engines test. -/

namespace Sys2Proof.Machine

/-- MSTATUS.RIF (R29). -/
def mRif (v : Byte) : Bool := v.getLsbD 7

/-- MSTATUS.WIF (R29). -/
def mWif (v : Byte) : Bool := v.getLsbD 6

/-- MSTATUS.CLKHOLD (R29). -/
def mClkhold (v : Byte) : Bool := v.getLsbD 5

/-- MSTATUS.RXACK: true is NACK (R29). -/
def mRxack (v : Byte) : Bool := v.getLsbD 4

/-- MSTATUS.ARBLOST (R29). -/
def mArblost (v : Byte) : Bool := v.getLsbD 3

/-- MSTATUS.BUSERR (R29). -/
def mBuserr (v : Byte) : Bool := v.getLsbD 2

/-- "Acted on request" (R29): `RIF or WIF`. -/
def mActed (v : Byte) : Bool := mRif v || mWif v

/-- "Termination" (R29): `ARBLOST or BUSERR`. -/
def mLost (v : Byte) : Bool := mArblost v || mBuserr v

/-- A MADDR write clears all six flags (R143). -/
def mClearAll (v : Byte) : Byte := v &&& 0x03#8

/-- An MDATA write and an MCTRLB command clear RIF, WIF and CLKHOLD (R144, R146, R147). -/
def mClearTransfer (v : Byte) : Byte := v &&& 0x1F#8

/-- RXACK written with `x`. -/
def mSetRxack (x : Bool) (v : Byte) : Byte := if x then v ||| 0x10#8 else v &&& 0xEF#8

/-- `WIF <- 1, RXACK <- x`: the answers AckW, Ack and Nack (R150). -/
def mAnswerWrite (x : Bool) (v : Byte) : Byte := mSetRxack x (v ||| 0x40#8)

/-- `RIF <- 1, CLKHOLD <- 1`: the answer Byte, and AckR apart from its RXACK (R150). -/
def mAnswerByte (v : Byte) : Byte := v ||| 0xA0#8

/-- `WIF <- 1, ARBLOST <- 1, RXACK <- x`: the answer Lost(ARBLOST) (R150). -/
def mAnswerArb (x : Bool) (v : Byte) : Byte := mSetRxack x (v ||| 0x48#8)

/-- `WIF <- 1, BUSERR <- 1, RXACK <- x`: the answer Lost(BUSERR) (R150). -/
def mAnswerBus (x : Bool) (v : Byte) : Byte := mSetRxack x (v ||| 0x44#8)

/-- MCTRLA.ENABLE (R28). -/
def mEnable (v : Byte) : Bool := v.getLsbD 0

/-- MCTRLA.MODE (R28). -/
def mMode (v : Byte) : BitVec 2 := v.extractLsb' 1 2

/-- SCTRLA.ENABLE (R34). -/
def sEnable (v : Byte) : Bool := v.getLsbD 0

/-- SCTRLA.DIEN (R34). -/
def sDien (v : Byte) : Bool := v.getLsbD 1

/-- SCTRLA.APIEN (R34). -/
def sApien (v : Byte) : Bool := v.getLsbD 2

/-- SCTRLA.PIEN (R34). -/
def sPien (v : Byte) : Bool := v.getLsbD 3

/-- SSTATUS.DIF (R36). -/
def sDif (v : Byte) : Bool := v.getLsbD 7

/-- SSTATUS.APIF (R36). -/
def sApif (v : Byte) : Bool := v.getLsbD 6

/-- SSTATUS.CLKHOLD (R36). -/
def sClkhold (v : Byte) : Bool := v.getLsbD 5

/-- SSTATUS.COLL (R36). -/
def sColl (v : Byte) : Bool := v.getLsbD 3

/-- SSTATUS.DIR: true, the remote master reads from this slave (R36). -/
def sDir (v : Byte) : Bool := v.getLsbD 1

/-- SSTATUS.AP (R36). -/
def sAp (v : Byte) : Bool := v.getLsbD 0

/-- A slave response clears DIF, APIF and CLKHOLD and keeps DIR, AP and COLL (R186, R187). -/
def sClearPending (v : Byte) : Byte := v &&& 0x1F#8

/-- DIR written with `d`. -/
def sSetDir (d : Dir) (v : Byte) : Byte :=
  match d with
  | .w => v &&& 0xFD#8
  | .r => v ||| 0x02#8

/-- AddrMatch(d): APIF, AP, CLKHOLD set, DIR written, COLL cleared (R181). -/
def sAddrMatch (d : Dir) (v : Byte) : Byte := sSetDir d ((v ||| 0x61#8) &&& 0xF7#8)

/-- Stop: APIF set, AP cleared (R181). -/
def sStop (v : Byte) : Byte := (v ||| 0x40#8) &&& 0xFE#8

/-- Collision: APIF and COLL set, AP cleared (R181). -/
def sCollision (v : Byte) : Byte := (v ||| 0x48#8) &&& 0xFE#8

/-- DataRx and DataTxReq: DIF and CLKHOLD set, DIR written (R181). -/
def sData (d : Dir) (v : Byte) : Byte := sSetDir d (v ||| 0xA0#8)

/-- The interrupt request line (R184). -/
def sirq (ctrl status : Byte) : Bool :=
  sEnable ctrl &&
    ((sDif status && sDien ctrl) ||
     (sApif status && sAp status && sApien ctrl) ||
     (sApif status && !sAp status && sPien ctrl))

end Sys2Proof.Machine
end

