-- ==== Sys2Proof/Machine/Ops.lean ====
section
/-! DEFINITION. The named operations over storage and registers, each written once: memory cells, HBUF, the ring buffers
(spec/40_ring_buffer.md), the peripheral register file, the bus primitives of both engines (spec/42_master_engine.md
section 2, spec/43_slave_engine.md section 3), acceptance, retirement and the bracket (spec/44_facade.md).

The block has no exception entry and no return instruction (spec/60_exceptions.md R237, R242). Its one asynchronous
event, the slave interrupt, saves and restores nothing (R241); it is `slaveIsr` in Machine/SlaveEngine.lean. -/

namespace Sys2Proof.Machine

/-- Why an operation gives no state: a fault (R235) or a refusal (R234). -/
inductive Stop where
  | fault (f : Fault)
  | refuse (r : Refusal)
deriving DecidableEq, Repr

/-- An operation's answer as an outcome of the host's interface. -/
def finish : Except Stop State → Host.Outcome State Fault Refusal
  | .ok s => .next s
  | .error (.fault f) => .fault f
  | .error (.refuse r) => .refused r

/-! ### Storage cells -/

/-- A cell: the listed byte, or what an unlisted address reads as. -/
def Memory.read (blank : Option Byte) : Memory → Nat → Option Byte
  | [], _ => blank
  | (k, v) :: m, a => if a = k then some v else Memory.read blank m a

/-- Write one cell, keeping the canonical form: the value an unlisted address reads as is not listed. -/
def Memory.write (blank : Option Byte) : Memory → Nat → Byte → Memory
  | [], a, b => if blank = some b then [] else [(a, b)]
  | (k, v) :: m, a, b =>
    if a < k then (if blank = some b then (k, v) :: m else (a, b) :: (k, v) :: m)
    else if a = k then (if blank = some b then m else (a, b) :: m)
    else (k, v) :: Memory.write blank m a b

/-- Every listed address is at least `lo`, addresses rise strictly, and no cell holds what it would read as unlisted. -/
def Memory.wfFrom (blank : Option Byte) : Nat → Memory → Bool
  | _, [] => true
  | lo, (k, v) :: m => decide (lo ≤ k) && decide (blank ≠ some v) && Memory.wfFrom blank (k + 1) m

/-- The canonical form of a storage space. -/
def Memory.wf (blank : Option Byte) (m : Memory) : Bool := Memory.wfFrom blank 0 m

/-- Every listed address is below `c`. -/
def Memory.below (c : Nat) (m : Memory) : Bool := m.all (fun cell => decide (cell.1 < c))

/-- What an unlisted HBUF entry reads as: no value (R49). -/
def hbufBlank : Option Byte := none

/-- What an unlisted ring cell reads as: 0x00, "zero-initialized at boot" (R50). -/
def ringBlank : Option Byte := some 0#8

/-- One cell of a ring store. -/
def ringCell (m : Memory) (i : Nat) : Byte := (Memory.read ringBlank m i).getD 0#8

/-! ### HBUF -/

/-- HBUF[i], or the fault UnwrittenRead(HBUF[i]) (R49, R235). -/
def hbufRead (s : State) (i : Nat) : Except Stop Byte :=
  match Memory.read hbufBlank s.hbuf i with
  | some b => .ok b
  | none => .error (.fault (.unwrittenRead i))

/-- `HBUF[i] <- b`. -/
def hbufWrite (i : Nat) (b : Byte) (s : State) : State :=
  { s with hbuf := Memory.write hbufBlank s.hbuf i b }

/-- HBUF[i], HBUF[i+1], … (`n` entries) each given a fresh draw: the unspecified entries of R168. The draws are the
free values numbered from State.draws on (log 3). -/
def hbufUnspecified : Nat → Nat → State → State
  | 0, _, s => s
  | n + 1, i, s =>
    hbufUnspecified n (i + 1)
      { s with hbuf := Memory.write hbufBlank s.hbuf i (Config.freeByte s.draws), draws := s.draws + 1 }

/-! ### Ring buffers -/

/-- RB_WRITE on one instance at capacity `c` (R100). -/
def Ring.write (c : Nat) (r : Ring) (b : Byte) : Except ErrorCode Ring :=
  if r.length = c then .error .noMemory
  else .ok { r with
    store := Memory.write ringBlank r.store ((r.head + r.length) % c) b
    length := r.length + 1 }

/-- RB_READ on one instance at capacity `c` (R101). -/
def Ring.read (c : Nat) (r : Ring) : Except ErrorCode (Byte × Ring) :=
  if r.length = 0 then .error .noData
  else .ok (ringCell r.store r.head, { r with head := (r.head + 1) % c, length := r.length - 1 })

/-- The bytes a ring holds, oldest first (R41, R107). -/
def Ring.bytes (c : Nat) (r : Ring) : List Byte :=
  (List.range r.length).map (fun i => ringCell r.store ((r.head + i) % c))

/-- One of the two instances (R42). -/
def ring (s : State) : RingId → Ring
  | .tx => s.tx
  | .rx => s.rx

/-- The state with one instance replaced. -/
def setRing (id : RingId) (r : Ring) (s : State) : State :=
  match id with
  | .tx => { s with tx := r }
  | .rx => { s with rx := r }

/-- Who writes an instance (R42, R106). -/
def ringWriter : RingId → Agent
  | .tx => .fg
  | .rx => .isr

/-- Who reads an instance (R42, R106). -/
def ringReader : RingId → Agent
  | .tx => .isr
  | .rx => .fg

/-- `RB_WRITE(r, b)` by an agent (R100); another agent than the instance's writer is refused (R106). -/
def rbWrite (who : Agent) (id : RingId) (b : Byte) (s : State) : Except Stop (Except ErrorCode State) :=
  if who = ringWriter id then
    match (ring s id).write s.cfg.capacity b with
    | .error e => .ok (.error e)
    | .ok r => .ok (.ok (setRing id r s))
  else .error (.refuse .ringRoleViolation)

/-- `RB_READ(r)` by an agent (R101); another agent than the instance's reader is refused (R106). -/
def rbRead (who : Agent) (id : RingId) (s : State) : Except Stop (Except ErrorCode (Byte × State)) :=
  if who = ringReader id then
    match (ring s id).read s.cfg.capacity with
    | .error e => .ok (.error e)
    | .ok (b, r) => .ok (.ok (b, setRing id r s))
  else .error (.refuse .ringRoleViolation)

/-! ### Peripheral registers -/

/-- A peripheral register as an engine reads it (R27 to R38). -/
def pregRead (s : State) : PReg → Byte
  | .mctrla => s.mctrla
  | .mctrlb => s.mctrlb
  | .mstatus => s.mstatus
  | .mbaud => s.mbaud
  | .maddr => s.maddr
  | .mdata => s.mdata
  | .sctrla => s.sctrla
  | .sctrlb => s.sctrlb
  | .sstatus => s.sstatus
  | .saddr => s.saddr
  | .sdata => s.sdata

/-- A read handed to its reader: the value, and nothing else changed (R66, log 5). -/
def handBack (v : Word) (s : State) : State := { s with result := v }

/-- `emit A` (R11): the action is appended to TRACE. -/
def emit (a : BusAction) (s : State) : State := { s with trace := s.trace ++ [a] }

/-- `MADDR` write: start and address (R143). -/
def maddrWriteOp (a : BitVec 7) (d : Dir) (s : State) : State :=
  emit (.mStart a d)
    { s with maddr := addressByte a d, mstatus := mClearAll s.mstatus, mreq := .addr d }

/-- `MDATA` write: send one byte (R144). -/
def mdataWriteOp (b : Byte) (s : State) : State :=
  emit (.mTx b) { s with mdata := b, mstatus := mClearTransfer s.mstatus, mreq := .tx }

/-- `MCTRLB <- RECVTRANS` (R146). -/
def recvTransOp (act : AckAct) (s : State) : State :=
  emit (.mRecvNext act)
    { s with mctrlb := commandReadBack act, mstatus := mClearTransfer s.mstatus, mreq := .recvNext }

/-- `MCTRLB <- STOP` (R147). -/
def stopOp (act : AckAct) (s : State) : State :=
  emit (.mStop act)
    { s with mctrlb := commandReadBack act, mstatus := mClearTransfer s.mstatus, mreq := .none }

/-- `SDATA` write: present a byte (R188). -/
def sdataWriteOp (b : Byte) (s : State) : State := { s with sdata := b }

/-- SPHASE after a RESPONSE (R183, R186): Active(d) or Ending, and none outside Addressed and Active. -/
def respondedPhase (act : AckAct) : SlavePhase → Option SlavePhase
  | .addressed d => some (match act with | .ack => .active d | .nack => .ending)
  | .active d => some (match act with | .ack => .active d | .nack => .ending)
  | .idle => none
  | .ending => none

/-- `SCTRLB <- RESPONSE` (R186); outside Addressed and Active it is refused. -/
def responseOp (act : AckAct) (presented : Option Byte) (s : State) : Except Stop State :=
  match respondedPhase act s.sphase with
  | none => .error (.refuse .reservedPeripheralCommand)
  | some p =>
    .ok (emit (.sResponse act presented)
      { s with sctrlb := commandReadBack act, sstatus := sClearPending s.sstatus, sphase := p })

/-- `SCTRLB <- COMPTRANS` (R187). -/
def compTransOp (act : AckAct) (s : State) : State :=
  emit (.sComplete act)
    { s with sctrlb := commandReadBack act, sstatus := sClearPending s.sstatus, sphase := .idle }

/-! ### Acceptance, retirement, the bracket -/

/-- HRES.BUSY (R24). -/
def busy (s : State) : Bool := hresBusy s.hres

/-- Acceptance of a command: `HRES.BUSY <- 1` (R210). -/
def accept (s : State) : State := { s with hres := hresAccepted s.hres }

/-- The status code of a result: 0 for Ok (R210, R230). -/
def OpResult.status : OpResult → Byte
  | .ok _ => 0#8
  | .err e => e.number

/-- The count of a result: 0 on an error (R24, R210). -/
def OpResult.count : OpResult → Byte
  | .ok n => BitVec.ofNat 8 n
  | .err _ => 0#8

/-- `retire(res)`: STATUS, COUNT and BUSY written together (R210). -/
def retire (res : OpResult) (s : State) : State :=
  { s with hres := hresRetired res.status res.count }

/-- The result a terminal state carries (R39). -/
def Terminal.result : Terminal → OpResult
  | .error e => .err e
  | .stopSent r => r

/-- Retirement of a master transaction: HRES, MLAST, `state <- Idle`, the transaction fields absent (R169). -/
def retireMaster (t : Terminal) (s : State) : State :=
  retire t.result { s with mlast := some t, mstate := .idle, txn := none }

/-- The transaction fields, or the fault AbsentTransactionField (R40, R235). -/
def readTxn (s : State) : Except Stop Txn :=
  match s.txn with
  | some x => .ok x
  | none => .error (.fault .absentTransactionField)

/-- `IMASK <- v` (R43). -/
def setImask (v : Bool) (s : State) : State := { s with imask := v }

/-- `BRACKET(body)`: IMASK saved, set for the body, restored (R216). -/
def bracketed {α : Type} (body : State → Except Stop (α × State)) (s : State) : Except Stop (α × State) :=
  match body (setImask true s) with
  | .error e => .error e
  | .ok (k, t) => .ok (k, setImask s.imask t)

end Sys2Proof.Machine
end

