-- ==== Sys2Proof/Machine/BusEnvironment.lean ====
section
/-! DEFINITION. The bus environment: what it may answer to the master (spec/42_master_engine.md R150) and what slave
events it may raise (spec/43_slave_engine.md R181, R182). A choice the tables do not admit is no step. -/

namespace Sys2Proof.Machine

/-- Whether the table of R150 lists an answer for a request. -/
def answerAdmitted : BusReq → Answer → Bool
  | .none, _ => false
  | .addr .w, .ackW => true
  | .addr .r, .ackR _ => true
  | .addr _, .nack => true
  | .tx, .ack => true
  | .tx, .nack => true
  | .recvNext, .byte _ => true
  | _, .lostArb _ => true
  | _, .lostBus _ => true
  | _, _ => false

/-- The effect of an answer on MSTATUS and MDATA (R150). -/
def applyAnswer (a : Answer) (s : State) : State :=
  match a with
  | .ackW => { s with mstatus := mAnswerWrite false s.mstatus }
  | .ack => { s with mstatus := mAnswerWrite false s.mstatus }
  | .nack => { s with mstatus := mAnswerWrite true s.mstatus }
  | .ackR b => { s with mdata := b, mstatus := mSetRxack false (mAnswerByte s.mstatus) }
  | .byte b => { s with mdata := b, mstatus := mAnswerByte s.mstatus }
  | .lostArb x => { s with mstatus := mAnswerArb x s.mstatus }
  | .lostBus x => { s with mstatus := mAnswerBus x s.mstatus }

/-- The BUS's answer step: `MREQ <- None` and the answer's effect (R150). -/
def busAnswer (a : Answer) (s : State) : Option State :=
  if answerAdmitted s.mreq a then some (applyAnswer a { s with mreq := .none }) else none

/-- The condition every slave event needs (R181). -/
def eventAllowed (s : State) : Bool :=
  sEnable s.sctrla && !sDif s.sstatus && !sApif s.sstatus && !sClkhold s.sstatus

/-- An address byte matches exactly when its address is SADDR[7:1] and the slave is enabled (R182). -/
def addressMatches (a : BitVec 7) (s : State) : Bool := decide (a = addressOf s.saddr) && sEnable s.sctrla

/-- The further guard of an event (R181). -/
def eventGuard (e : SlaveEvent) (s : State) : Bool :=
  match e with
  | .addressByte a _ => addressMatches a s
  | .stop => true
  | .collision => decide (s.sphase ≠ .idle)
  | .dataRx _ => decide (s.sphase = .active .w)
  | .dataTxReq => decide (s.sphase = .active .r)

/-- The effect of an event on SSTATUS, SDATA and SPHASE (R181). -/
def applyEvent (e : SlaveEvent) (s : State) : State :=
  match e with
  | .addressByte _ d => { s with sstatus := sAddrMatch d s.sstatus, sphase := .addressed d }
  | .stop => { s with sstatus := sStop s.sstatus, sphase := .idle }
  | .collision => { s with sstatus := sCollision s.sstatus, sphase := .idle }
  | .dataRx b => { s with sdata := b, sstatus := sData .w s.sstatus }
  | .dataTxReq => { s with sstatus := sData .r s.sstatus }

/-- The BUS's slave event step (R181). -/
def busEvent (e : SlaveEvent) (s : State) : Option State :=
  if eventAllowed s && eventGuard e s then some (applyEvent e s) else none

end Sys2Proof.Machine
end

