-- ==== Sys2Proof/Machine/Harness.lean ====
section
/-! DEFINITION. The hazard harness, reached only with BRACKET = false (spec/40_ring_buffer.md R108, spec/44_facade.md
R219): SENQ and SDRAIN as FG micro-steps, each one access to shared state, with IMASK left alone. The HBUF read of SENQ
is in w3 and the HBUF write of SDRAIN in r5, the micro-steps that use the byte (DEDUCED, log 11). -/

namespace Sys2Proof.Machine

/-- The state with the bulk command at its next micro-step. -/
def atMicro (x : Bulk) (pos : Micro) (s : State) : State := { s with bulk := some { x with pos := pos } }

/-- The loop's next iteration after byte `k`, or the final step when the count is reached (R217, R218, R219). -/
def nextByte (x : Bulk) (pos : Micro) (s : State) : State :=
  { s with bulk := some { x with k := x.k + 1, pos := if x.k + 1 < x.n then pos else .done } }

/-- One micro-step of RB_WRITE_u(TX, HBUF[k]) or RB_READ_u(RX), or the final step (R108, R219). -/
def microStep (x : Bulk) (s : State) : Except Stop State :=
  match x.pos with
  | .w1 =>
    if s.tx.length = s.cfg.capacity then .ok (atMicro x .done s) else .ok (atMicro x (.w2 s.tx.length) s)
  | .w2 l => .ok (atMicro x (.w3 l s.tx.head) s)
  | .w3 l h =>
    match hbufRead s x.k with
    | .error e => .error e
    | .ok b =>
      .ok (atMicro x (.w4 l)
        (setRing .tx { s.tx with store := Memory.write ringBlank s.tx.store ((h + l) % s.cfg.capacity) b } s))
  | .w4 l => .ok (nextByte x .w1 (setRing .tx { s.tx with length := l + 1 } s))
  | .r1 => if s.rx.length = 0 then .ok (atMicro x .done s) else .ok (atMicro x (.r2 s.rx.length) s)
  | .r2 l => .ok (atMicro x (.r3 l s.rx.head) s)
  | .r3 l h => .ok (atMicro x (.r4 l h (ringCell s.rx.store h)) s)
  | .r4 l h b => .ok (atMicro x (.r5 l b) (setRing .rx { s.rx with head := (h + 1) % s.cfg.capacity } s))
  | .r5 l b => .ok (nextByte x .r1 (hbufWrite x.k b (setRing .rx { s.rx with length := l - 1 } s)))
  | .done => .ok (retire (.ok x.k) { s with bulk := none })

end Sys2Proof.Machine
end

