-- ==== Sys2Proof/WellFormed.lean ====
section
/-! DEFINITION. Which instructions are well formed at a capacity `c`: the one operand check the types do not already
make is the count of a counting command (spec/30_encoding.md R83, R84). -/

namespace Sys2Proof

/-- `COUNT <= C` for MSEND, MRECV, SENQ and SDRAIN; every other operand is legal by its type. -/
def Instr.wf (c : Nat) : Instr → Bool
  | .msend _ n => decide (n.toNat ≤ c)
  | .mrecv _ n => decide (n.toNat ≤ c)
  | .senq n => decide (n.toNat ≤ c)
  | .sdrain n => decide (n.toNat ≤ c)
  | .initm _ => true
  | .inits _ => true
  | .setsa _ => true
  | .mctrlbRecvtrans _ => true
  | .mctrlbStop _ => true
  | .sctrlbComptrans _ => true
  | .sctrlbResponse _ _ => true
  | .mstatusRead => true
  | .maddrWrite _ _ => true
  | .mdataWrite _ => true
  | .mdataRead => true
  | .sstatusRead => true
  | .sdataWrite _ => true
  | .sdataRead => true

end Sys2Proof
end

