-- ==== Sys2Proof/Decode.lean ====
section
/-! DEFINITION. The decoder, total on every word of every format and rejecting by name (spec/30_encoding.md R82 to
R88), then the encoder, then the fixed name decodeTableWord.

A record of any format is held in 32 bits, as spec/opcode_table.json numbers them. HCMD fills them. The 8-bit formats
stand in bits 7:0; the operand values R186, R143, R144 and R188 give the instruction beside its word follow in the
bytes above, and every bit left over is 0 (DESIGN CHOICE, log 6). -/

namespace Sys2Proof

/-- Why a word is no instruction. The first three are R83's; the last is R86's, used too for an 8-bit word that no row
of the table matches (log 10). -/
inductive DecodeRefusal where
  | reservedEncoding
  | reservedMode
  | countAboveCapacity
  | reservedPeripheralCommand
deriving DecidableEq, Repr

/-- The seven rows of R82. -/
inductive HostOp where
  | initm | msend | mrecv | inits | setsa | senq | sdrain
deriving DecidableEq, Repr

/-- A row of R82's opcode map. -/
structure OpcodeRow where
  op : HostOp
  bits : Word
  mask : Word
deriving DecidableEq, Repr

/-- The opcode map of R82: match and mask of each command. -/
def opcodeMap : List OpcodeRow :=
  [⟨.initm, 0x00000001#32, 0xFFFCFFFF#32⟩,
   ⟨.msend, 0x00000002#32, 0x00FF80FF#32⟩,
   ⟨.mrecv, 0x00000003#32, 0x00FF80FF#32⟩,
   ⟨.inits, 0x00000004#32, 0xFFFF80FF#32⟩,
   ⟨.setsa, 0x00000005#32, 0xFFFF80FF#32⟩,
   ⟨.senq, 0x00000006#32, 0x00FFFFFF#32⟩,
   ⟨.sdrain, 0x00000007#32, 0x00FFFFFF#32⟩]

/-- A word selects the row with `(w & mask) == match` (R82). -/
def OpcodeRow.selects (r : OpcodeRow) (w : Word) : Bool := w &&& r.mask == r.bits

/-- A counting command's row is accepted only when `COUNT <= C` (R83). -/
def checkCount (c : Nat) (n : Byte) (i : Instr) : Except DecodeRefusal Instr :=
  if n.toNat ≤ c then .ok i else .error .countAboveCapacity

/-- A selected row with its fields (R81), after the checks R83 makes on the word. -/
def decodeRow (c : Nat) (w : Word) : HostOp → Except DecodeRefusal Instr
  | .initm =>
    match BusMode.ofNumber? (Word.mode w) with
    | none => .error .reservedMode
    | some m => .ok (.initm m)
  | .msend => checkCount c (Word.count w) (.msend (Word.addr w) (Word.count w))
  | .mrecv => checkCount c (Word.count w) (.mrecv (Word.addr w) (Word.count w))
  | .inits => .ok (.inits (Word.addr w))
  | .setsa => .ok (.setsa (Word.addr w))
  | .senq => checkCount c (Word.count w) (.senq (Word.count w))
  | .sdrain => checkCount c (Word.count w) (.sdrain (Word.count w))

/-- R83's decode of a host command word at capacity `c`. -/
def decodeHcmd (c : Nat) (w : Word) : Except DecodeRefusal Instr :=
  match opcodeMap.find? (fun r => r.selects w) with
  | none => .error .reservedEncoding
  | some r => decodeRow c w r.op

/-- The acknowledge action of a peripheral command byte: bit 2 (R86). -/
def ackOf (b : Byte) : AckAct := AckAct.ofBool (b.getLsbD 2)

/-- The first byte of a record, and the operand bytes that follow it (log 6). -/
def Word.byte0 (w : Word) : Byte := w.extractLsb' 0 8

/-- See `Word.byte0`. -/
def Word.byte1 (w : Word) : Byte := w.extractLsb' 8 8

/-- See `Word.byte0`. -/
def Word.byte2 (w : Word) : Byte := w.extractLsb' 16 8

/-- See `Word.byte0`. -/
def Word.byte3 (w : Word) : Byte := w.extractLsb' 24 8

/-- A record whose operand bytes are all 0 gives `i`; a nonzero one is refused (log 6). -/
def noOperands (w : Word) (i : Instr) : Except DecodeRefusal Instr :=
  if Word.byte1 w = 0#8 ∧ Word.byte2 w = 0#8 ∧ Word.byte3 w = 0#8 then .ok i
  else .error .reservedPeripheralCommand

/-- A record with one operand byte (log 6). -/
def oneOperand (w : Word) (f : Byte → Instr) : Except DecodeRefusal Instr :=
  if Word.byte2 w = 0#8 ∧ Word.byte3 w = 0#8 then .ok (f (Word.byte1 w))
  else .error .reservedPeripheralCommand

/-- The operand `presented` of RESPONSE: byte 1 says whether there is a byte, byte 2 is it (R186, log 6). -/
def presentedOperand (w : Word) (act : AckAct) : Except DecodeRefusal Instr :=
  if Word.byte3 w ≠ 0#8 then .error .reservedPeripheralCommand
  else if Word.byte1 w = 1#8 then .ok (.sctrlbResponse act (some (Word.byte2 w)))
  else if Word.byte1 w = 0#8 ∧ Word.byte2 w = 0#8 then .ok (.sctrlbResponse act none)
  else .error .reservedPeripheralCommand

/-- Format MCTRLB (R86, mask 0xFB): every other value is reserved or has no effect and is refused (log 10). -/
def decodeMctrlb (w : Word) : Except DecodeRefusal Instr :=
  if Word.byte0 w &&& 0xFB#8 = 0x02#8 then noOperands w (.mctrlbRecvtrans (ackOf (Word.byte0 w)))
  else if Word.byte0 w &&& 0xFB#8 = 0x03#8 then noOperands w (.mctrlbStop (ackOf (Word.byte0 w)))
  else .error .reservedPeripheralCommand

/-- Format SCTRLB (R86, mask 0xFB). -/
def decodeSctrlb (w : Word) : Except DecodeRefusal Instr :=
  if Word.byte0 w &&& 0xFB#8 = 0x02#8 then noOperands w (.sctrlbComptrans (ackOf (Word.byte0 w)))
  else if Word.byte0 w &&& 0xFB#8 = 0x03#8 then presentedOperand w (ackOf (Word.byte0 w))
  else .error .reservedPeripheralCommand

/-- The address and direction of the byte a MADDR write carries (R87). -/
def maddrOperand (v : Byte) : Instr :=
  .maddrWrite (Machine.addressOf v) (Dir.ofBool (v.getLsbD 0))

/-- Format PACC (R88): the seven primitives; no other access is made by any agent (R27), so any other byte is refused
(log 10). -/
def decodePacc (w : Word) : Except DecodeRefusal Instr :=
  if Word.byte0 w = 0x02#8 then noOperands w .mstatusRead
  else if Word.byte0 w = 0x84#8 then oneOperand w maddrOperand
  else if Word.byte0 w = 0x85#8 then oneOperand w .mdataWrite
  else if Word.byte0 w = 0x05#8 then noOperands w .mdataRead
  else if Word.byte0 w = 0x0A#8 then noOperands w .sstatusRead
  else if Word.byte0 w = 0x8C#8 then oneOperand w .sdataWrite
  else if Word.byte0 w = 0x0C#8 then noOperands w .sdataRead
  else .error .reservedPeripheralCommand

/-- The decoder: the format says which register is accessed, the word what is written. -/
def decode (c : Nat) (f : Format) (w : Word) : Except DecodeRefusal Instr :=
  match f with
  | .hcmd => decodeHcmd c w
  | .mctrlb => decodeMctrlb w
  | .sctrlb => decodeSctrlb w
  | .pacc => decodePacc w

/-- A record of one byte. -/
def record1 (b : Byte) : Word := b.setWidth 32

/-- A record of a byte and one operand byte (log 6). -/
def record2 (b v : Byte) : Word := (v.setWidth 32 <<< 8) ||| b.setWidth 32

/-- A record of a byte and two operand bytes (log 6). -/
def record3 (b v u : Byte) : Word := (u.setWidth 32 <<< 16) ||| (v.setWidth 32 <<< 8) ||| b.setWidth 32

/-- A host command word from its fields, in the layout of R80, written as R90 writes it. -/
def hcmdWord (op : Byte) (addr : BitVec 7) (mode : BitVec 2) (count : Byte) : Word :=
  (count.setWidth 32 <<< 24) ||| (mode.setWidth 32 <<< 16) ||| (addr.setWidth 32 <<< 8) ||| op.setWidth 32

/-- The format an instruction is issued in (R80, R86, R88). -/
def formatOf : Instr → Format
  | .initm _ => .hcmd
  | .msend _ _ => .hcmd
  | .mrecv _ _ => .hcmd
  | .inits _ => .hcmd
  | .setsa _ => .hcmd
  | .senq _ => .hcmd
  | .sdrain _ => .hcmd
  | .mctrlbRecvtrans _ => .mctrlb
  | .mctrlbStop _ => .mctrlb
  | .sctrlbComptrans _ => .sctrlb
  | .sctrlbResponse _ _ => .sctrlb
  | .mstatusRead => .pacc
  | .maddrWrite _ _ => .pacc
  | .mdataWrite _ => .pacc
  | .mdataRead => .pacc
  | .sstatusRead => .pacc
  | .sdataWrite _ => .pacc
  | .sdataRead => .pacc

/-- The encoder: the record of an instruction in its format (R80, R82, R86, R87, R88). -/
def encode : Instr → Word
  | .initm m => hcmdWord 0x01#8 0#7 m.number 0#8
  | .msend a n => hcmdWord 0x02#8 a 0#2 n
  | .mrecv a n => hcmdWord 0x03#8 a 0#2 n
  | .inits a => hcmdWord 0x04#8 a 0#2 0#8
  | .setsa a => hcmdWord 0x05#8 a 0#2 0#8
  | .senq n => hcmdWord 0x06#8 0#7 0#2 n
  | .sdrain n => hcmdWord 0x07#8 0#7 0#2 n
  | .mctrlbRecvtrans act => record1 (Machine.commandByte act Machine.cmdTwo)
  | .mctrlbStop act => record1 (Machine.commandByte act Machine.cmdThree)
  | .sctrlbComptrans act => record1 (Machine.commandByte act Machine.cmdTwo)
  | .sctrlbResponse act none => record1 (Machine.commandByte act Machine.cmdThree)
  | .sctrlbResponse act (some b) => record3 (Machine.commandByte act Machine.cmdThree) 1#8 b
  | .mstatusRead => record1 (Machine.paccByte false .mstatus)
  | .maddrWrite a d => record2 (Machine.paccByte true .maddr) (Machine.addressByte a d)
  | .mdataWrite b => record2 (Machine.paccByte true .mdata) b
  | .mdataRead => record1 (Machine.paccByte false .mdata)
  | .sstatusRead => record1 (Machine.paccByte false .sstatus)
  | .sdataWrite b => record2 (Machine.paccByte true .sdata) b
  | .sdataRead => record1 (Machine.paccByte false .sdata)

/-- The format in which a table word of 8 bits, which carries no format, is read. The value 0x02 stands in three rows
and 0x03, 0x06 and 0x07 in two each; each is read as the one access a rule of the spec makes with it, and 0x02, which
is both a RECVTRANS with ACK and the MSTATUS poll, as the poll (DESIGN CHOICE, log 14). -/
def formatOfTableByte (b : Byte) : Format :=
  if b = 0x03#8 then .sctrlb
  else if b = 0x06#8 then .sctrlb
  else if b = 0x07#8 then .mctrlb
  else .pacc

/-- The format of a table word of `nbits` bits: 8 bits or fewer a peripheral byte, more a host command word. -/
def formatOfTableWord (nbits w : Nat) : Format :=
  if nbits ≤ 8 then formatOfTableByte (BitVec.ofNat 8 w) else .hcmd

/-- The record of a table word of `nbits` bits: the bits above them are 0. -/
def recordOfTableWord (nbits w : Nat) : Word :=
  if nbits ≤ 8 then record1 (BitVec.ofNat 8 w) else BitVec.ofNat 32 w

/-- What the decoder gives for a result: the instruction, or nothing where it refuses. -/
def decoded : Except DecodeRefusal Instr → Option Instr
  | .ok i => some i
  | .error _ => none

/-- The instruction the decoder reads from a table word, at the largest capacity R8 admits (log 14). -/
def decodeTableWord (nbits w : Nat) : Option Instr :=
  decoded (decode Config.maxCapacity (formatOfTableWord nbits w) (recordOfTableWord nbits w))

end Sys2Proof
end

