-- ==== Sys2Proof/Machine/Baud.lean ====
section
/-! DEFINITION. The baud generator (spec/41_baud_generator.md R120 to R131): a pure function of its three inputs, over
unbounded integers, with division truncating toward zero (spec/00_scope.md R10). -/

namespace Sys2Proof.Machine

/-- The minimum scaled low period of a mode (R122). -/
def baudThreshold : BusMode → Int
  | .standard => 47
  | .fast => 13
  | .fastPlus => 5

/-- The fixed-point scale of the low-period estimate (R8, R120). -/
def baudScale : Int := 10000000

/-- `idiv`: integer division truncating toward zero (R10). -/
def idiv (a b : Int) : Int := Int.tdiv a b

/-- Step 1 of R120. -/
def baudBase (nominalHz busClockHz : Nat) : Int := idiv busClockHz nominalHz - 10

/-- Step 2 of R120, on the step-1 value. -/
def baudLowScaled (base : Int) (busClockHz : Nat) : Int := idiv ((base + 5) * baudScale) busClockHz

/-- The step trace of R130. -/
structure BaudTrace where
  base1 : Int
  lowScaled : Int
  corrected : Bool
deriving DecidableEq, Repr

/-- The triple R130 reports: the step-1 value, the estimate, and whether step 4 ran (steps 3 of R120, R123). -/
def baudTrace (nominalHz : Nat) (mode : BusMode) (busClockHz : Nat) : BaudTrace where
  base1 := baudBase nominalHz busClockHz
  lowScaled := baudLowScaled (baudBase nominalHz busClockHz) busClockHz
  corrected := decide (baudLowScaled (baudBase nominalHz busClockHz) busClockHz < baudThreshold mode)

/-- Step 4 of R120: the corrected value, which does not depend on the frequency (R123). -/
def baudCorrected (mode : BusMode) (busClockHz : Nat) : Int :=
  idiv (busClockHz * baudThreshold mode) baudScale - 5

/-- The value of steps 1 to 4, before truncation. -/
def baudFinal (nominalHz : Nat) (mode : BusMode) (busClockHz : Nat) : Int :=
  if (baudTrace nominalHz mode busClockHz).corrected then baudCorrected mode busClockHz
  else (baudTrace nominalHz mode busClockHz).base1

/-- `compute_baud(nominal_hz, mode, bus_clock_hz)`: step 5, `trunc_8` (R120, R126). -/
def computeBaud (nominalHz : Nat) (mode : BusMode) (busClockHz : Nat) : Byte :=
  BitVec.ofInt 8 (baudFinal nominalHz mode busClockHz)

end Sys2Proof.Machine
end

