-- ==== Sys2Proof/Machine/Facade.lean ====
section
/-! DEFINITION. The seven host commands (spec/44_facade.md R210 to R223), one meaning each. A meaning is the acceptance
step of R210 on a decoded command: the state preconditions, acceptance, the command's pseudocode. -/

namespace Sys2Proof.Machine

/-- A command is issued only while HRES.BUSY = 0 (R210, R26). -/
def whenIdle (s : State) (run : State → Except Stop State) : Host.Outcome State Fault Refusal :=
  if busy s then .refused .hostWhileBusy else finish (run s)

/-- A counting command's `COUNT <= C` (R83, R212, R213, R217, R218). -/
def countChecked (n : Byte) (s : State) (run : State → Except Stop State) : Except Stop State :=
  if n.toNat ≤ s.cfg.capacity then run s else .error (.refuse .countAboveCapacity)

/-- T0 (R140, R151): the transaction record, `state <- AddressPhase`, and the MADDR write. -/
def startTransaction (a : BitVec 7) (d : Dir) (n : Nat) (s : State) : State :=
  maddrWriteOp a d { s with txn := some { addr7 := a, dir := d, n := n }, mstate := .addressPhase }

/-- MSEND and MRECV: the master must be enabled, then BUSY and T0 (R212, R213). -/
def startMaster (a : BitVec 7) (d : Dir) (n : Byte) (s : State) : Except Stop State :=
  if mEnable s.mctrla then .ok (startTransaction a d n.toNat (accept s))
  else .error (.refuse .masterDisabled)

/-- The loop of R217: `m` more bytes at most, `k` done. It ends when the ring is full. -/
def enqueueLoop : Nat → Nat → State → Except Stop (Nat × State)
  | 0, k, s => .ok (k, s)
  | m + 1, k, s =>
    if s.tx.length < s.cfg.capacity then
      match hbufRead s k with
      | .error e => .error e
      | .ok b =>
        match rbWrite .fg .tx b s with
        | .error e => .error e
        | .ok (.error _) => .ok (k, s)
        | .ok (.ok t) => enqueueLoop m (k + 1) t
    else .ok (k, s)

/-- The loop of R218: `m` more bytes at most, `k` done. NoData ends it. -/
def drainLoop : Nat → Nat → State → Except Stop (Nat × State)
  | 0, k, s => .ok (k, s)
  | m + 1, k, s =>
    match rbRead .fg .rx s with
    | .error e => .error e
    | .ok (.error _) => .ok (k, s)
    | .ok (.ok (b, t)) => drainLoop m (k + 1) (hbufWrite k b t)

/-- A bracketed bulk command: accepted, run and retired in one step (R210, R216). -/
def bulkNow (loop : State → Except Stop (Nat × State)) (s : State) : Except Stop State :=
  match bracketed loop (accept s) with
  | .error e => .error e
  | .ok (k, t) => .ok (retire (.ok k) t)

/-- The first micro-step of an un-bracketed command of `n` bytes; with none, the final step (R219). -/
def firstMicro (n : Nat) (pos : Micro) : Micro := if n = 0 then .done else pos

/-- An un-bracketed bulk command: the acceptance step sets BUSY and nothing else (R219). -/
def bulkLater (n : Nat) (pos : Micro) (s : State) : State :=
  accept { s with bulk := some { n := n, k := 0, pos := firstMicro n pos } }

/-- What INITM writes besides HRES (R211). -/
def initMasterRegisters (mode : BusMode) (s : State) : State :=
  { s with
    mbaud := computeBaud s.harg.toNat mode s.cfg.busClockHz
    mctrla := mctrlaOf mode
    mstatus := 0x00#8
    mctrlb := 0x00#8 }

/-- What INITS writes besides HRES (R214). -/
def initSlaveRegisters (addr : BitVec 7) (s : State) : State :=
  { s with saddr := slaveAddressByte addr, sctrla := sctrlaInit }

/-- What SETSA writes besides HRES (R215). -/
def setSlaveAddress (addr : BitVec 7) (s : State) : State :=
  { s with saddr := slaveAddressByte addr }

/-- INITM (R211). -/
def execInitm (mode : BusMode) (s : State) : Host.Outcome State Fault Refusal :=
  whenIdle s (fun s =>
    if s.harg = 0#32 then .error (.refuse .zeroFrequency)
    else .ok (retire (.ok 0) (initMasterRegisters mode (accept s))))

/-- MSEND (R212). -/
def execMsend (addr : BitVec 7) (count : Byte) (s : State) : Host.Outcome State Fault Refusal :=
  whenIdle s (fun s => countChecked count s (startMaster addr .w count))

/-- MRECV (R213). -/
def execMrecv (addr : BitVec 7) (count : Byte) (s : State) : Host.Outcome State Fault Refusal :=
  whenIdle s (fun s => countChecked count s (startMaster addr .r count))

/-- INITS (R214). -/
def execInits (addr : BitVec 7) (s : State) : Host.Outcome State Fault Refusal :=
  whenIdle s (fun s => .ok (retire (.ok 0) (initSlaveRegisters addr (accept s))))

/-- SETSA (R215). -/
def execSetsa (addr : BitVec 7) (s : State) : Host.Outcome State Fault Refusal :=
  whenIdle s (fun s => .ok (retire (.ok 0) (setSlaveAddress addr (accept s))))

/-- SENQ (R217; R219 with BRACKET = false). -/
def execSenq (count : Byte) (s : State) : Host.Outcome State Fault Refusal :=
  whenIdle s (fun s => countChecked count s (fun s =>
    if s.cfg.bracket then bulkNow (enqueueLoop count.toNat 0) s
    else .ok (bulkLater count.toNat .w1 s)))

/-- SDRAIN (R218; R219 with BRACKET = false). -/
def execSdrain (count : Byte) (s : State) : Host.Outcome State Fault Refusal :=
  whenIdle s (fun s => countChecked count s (fun s =>
    if s.cfg.bracket then bulkNow (drainLoop count.toNat 0) s
    else .ok (bulkLater count.toNat .r1 s)))

end Sys2Proof.Machine
end

