-- ==== Sys2Proof/Machine/MasterPrimitives.lean ====
section
/-! DEFINITION. The Master Engine's bus primitives (spec/42_master_engine.md R143 to R148), one meaning each. The engine
issues them inside a transition of R140 (Machine/MasterEngine.lean), through the same operations. -/

namespace Sys2Proof.Machine

/-- MCTRLB.RECVTRANS (R146): with NACK it is refused, as R146 says. -/
def execMctrlbRecvtrans (act : AckAct) (s : State) : Host.Outcome State Fault Refusal :=
  match act with
  | .ack => .next (recvTransOp .ack s)
  | .nack => .refused .reservedPeripheralCommand

/-- MCTRLB.STOP (R147). -/
def execMctrlbStop (act : AckAct) (s : State) : Host.Outcome State Fault Refusal :=
  .next (stopOp act s)

/-- MSTATUS.READ (R148): the poll returns MSTATUS and has no side effect. -/
def execMstatusRead (s : State) : Host.Outcome State Fault Refusal :=
  .next (handBack ((pregRead s .mstatus).setWidth 32) s)

/-- MADDR.WRITE (R143). -/
def execMaddrWrite (addr7 : BitVec 7) (dir : Dir) (s : State) : Host.Outcome State Fault Refusal :=
  .next (maddrWriteOp addr7 dir s)

/-- MDATA.WRITE (R144). -/
def execMdataWrite (b : Byte) (s : State) : Host.Outcome State Fault Refusal :=
  .next (mdataWriteOp b s)

/-- MDATA.READ (R145). -/
def execMdataRead (s : State) : Host.Outcome State Fault Refusal :=
  .next (handBack ((pregRead s .mdata).setWidth 32) s)

end Sys2Proof.Machine
end

