-- ==== Sys2Proof/Machine/SlavePrimitives.lean ====
section
/-! DEFINITION. The Slave Engine's primitives (spec/43_slave_engine.md R186 to R190), one meaning each. The handler
issues them inside its one step (Machine/SlaveEngine.lean), through the same operations. -/

namespace Sys2Proof.Machine

/-- SCTRLB.COMPTRANS (R187). -/
def execSctrlbComptrans (act : AckAct) (s : State) : Host.Outcome State Fault Refusal :=
  .next (compTransOp act s)

/-- SCTRLB.RESPONSE (R186): refused outside Addressed and Active, as R186 says. -/
def execSctrlbResponse (act : AckAct) (presented : Option Byte) (s : State) : Host.Outcome State Fault Refusal :=
  finish (responseOp act presented s)

/-- SSTATUS.READ (R190). -/
def execSstatusRead (s : State) : Host.Outcome State Fault Refusal :=
  .next (handBack ((pregRead s .sstatus).setWidth 32) s)

/-- SDATA.WRITE (R188). -/
def execSdataWrite (b : Byte) (s : State) : Host.Outcome State Fault Refusal :=
  .next (sdataWriteOp b s)

/-- SDATA.READ (R189). -/
def execSdataRead (s : State) : Host.Outcome State Fault Refusal :=
  .next (handBack ((pregRead s .sdata).setWidth 32) s)

end Sys2Proof.Machine
end

