-- ==== Sys2Proof/Machine/Dispatch.lean ====
section
/-! DEFINITION. One arm per row of spec/opcode_table.json, each one direct call of its meaning. -/

namespace Sys2Proof.Machine

/-- The meaning of an instruction. -/
def exec (i : Instr) (s : State) : Host.Outcome State Fault Refusal :=
  match i with
  | .initm mode => Sys2Proof.Machine.execInitm mode s
  | .msend addr count => Sys2Proof.Machine.execMsend addr count s
  | .mrecv addr count => Sys2Proof.Machine.execMrecv addr count s
  | .inits addr => Sys2Proof.Machine.execInits addr s
  | .setsa addr => Sys2Proof.Machine.execSetsa addr s
  | .senq count => Sys2Proof.Machine.execSenq count s
  | .sdrain count => Sys2Proof.Machine.execSdrain count s
  | .mctrlbRecvtrans act => Sys2Proof.Machine.execMctrlbRecvtrans act s
  | .mctrlbStop act => Sys2Proof.Machine.execMctrlbStop act s
  | .sctrlbComptrans act => Sys2Proof.Machine.execSctrlbComptrans act s
  | .sctrlbResponse act presented => Sys2Proof.Machine.execSctrlbResponse act presented s
  | .mstatusRead => Sys2Proof.Machine.execMstatusRead s
  | .maddrWrite addr7 dir => Sys2Proof.Machine.execMaddrWrite addr7 dir s
  | .mdataWrite b => Sys2Proof.Machine.execMdataWrite b s
  | .mdataRead => Sys2Proof.Machine.execMdataRead s
  | .sstatusRead => Sys2Proof.Machine.execSstatusRead s
  | .sdataWrite b => Sys2Proof.Machine.execSdataWrite b s
  | .sdataRead => Sys2Proof.Machine.execSdataRead s

end Sys2Proof.Machine
end

