-- ==== Sys2Proof/Machine/HostPort.lean ====
section
/-! DEFINITION. The host's window (spec/10_state.md R21 to R26, spec/20_memory.md R60 to R66): what each offset is, which
access it admits, what a read gives and a write does. A write of HCMD issues a command (spec/44_facade.md R210). -/

namespace Sys2Proof.Machine

/-- What stands at an offset of the window (R21). -/
inductive HostReg where
  | hcmd | harg | hres | reservedWord
  | hbuf (i : Nat)
  | reservedByte
deriving DecidableEq, Repr

/-- The window's size in bytes (R60). -/
def windowSize : Nat := 0x200

/-- The offset of HBUF[0] (R21). -/
def hbufOffset : Nat := 0x10

/-- The unit at an offset, if the offset is one's own (R21, R64), at capacity `c`. -/
def hostReg? (c offset : Nat) : Option HostReg :=
  if offset = 0x00 then some .hcmd
  else if offset = 0x04 then some .harg
  else if offset = 0x08 then some .hres
  else if offset = 0x0C then some .reservedWord
  else if offset < hbufOffset then none
  else if offset < hbufOffset + c then some (.hbuf (offset - hbufOffset))
  else if offset < windowSize then some .reservedByte
  else none

/-- The one access width a unit admits, in bits (R64). The reserved offsets above HBUF are of the window's 8-bit unit
(R60; DEDUCED, log 8). -/
def HostReg.width : HostReg → Nat
  | .hcmd => 32
  | .harg => 32
  | .hres => 32
  | .reservedWord => 32
  | .hbuf _ => 8
  | .reservedByte => 8

/-- The unit an access of `width` bits at `offset` reaches, or none: BadHostAccess (R64, R234). -/
def hostTarget (c offset width : Nat) : Option HostReg :=
  match hostReg? c offset with
  | none => none
  | some r => if r.width = width then some r else none

/-- A host read: the value is handed back and nothing else changes (R66); HCMD and reserved offsets read 0 (R21, R22). -/
def hostRead (r : HostReg) (s : State) : Host.Outcome State Fault Refusal :=
  match r with
  | .hcmd => .next (handBack 0#32 s)
  | .harg => .next (handBack s.harg s)
  | .hres => .next (handBack s.hres s)
  | .reservedWord => .next (handBack 0#32 s)
  | .hbuf i =>
    match hbufRead s i with
    | .error e => finish (.error e)
    | .ok b => .next (handBack (b.setWidth 32) s)
  | .reservedByte => .next (handBack 0#32 s)

/-- The refusal a decoder's answer is (R234). -/
def Refusal.ofDecode : DecodeRefusal → Refusal
  | .reservedEncoding => .reservedEncoding
  | .reservedMode => .reservedMode
  | .countAboveCapacity => .countAboveCapacity
  | .reservedPeripheralCommand => .reservedPeripheralCommand

/-- A record of a format decoded and run, or refused by the decoder's reason. -/
def issue (f : Format) (w : Word) (s : State) : Host.Outcome State Fault Refusal :=
  match decode s.cfg.capacity f w with
  | .error e => .refused (Refusal.ofDecode e)
  | .ok i => exec i s

/-- A host write: HCMD issues a command (R22, R210), HARG and HBUF store, HRES and reserved offsets ignore (R21). -/
def hostWrite (r : HostReg) (v : Word) (s : State) : Host.Outcome State Fault Refusal :=
  match r with
  | .hcmd => issue .hcmd v s
  | .harg => .next { s with harg := v }
  | .hres => .next s
  | .reservedWord => .next s
  | .hbuf i => .next (hbufWrite i (v.setWidth 8) s)
  | .reservedByte => .next s

/-- A host access while the host has the move (R64, R66). -/
def hostAccessIdle (a : HostAccess) (s : State) : Host.Outcome State Fault Refusal :=
  match a with
  | .read offset width =>
    match hostTarget s.cfg.capacity offset width with
    | none => .refused .badHostAccess
    | some r => hostRead r s
  | .write offset width v =>
    match hostTarget s.cfg.capacity offset width with
    | none => .refused .badHostAccess
    | some r => hostWrite r v s

/-- A host access: while HRES.BUSY = 1 it is refused (R26, R234), before any other reason (R243). -/
def hostAccess (a : HostAccess) (s : State) : Host.Outcome State Fault Refusal :=
  if busy s then .refused .hostWhileBusy else hostAccessIdle a s

/-- The window's offset of a system address (R61): none outside the 0x200 bytes at HOST_BASE. -/
def hostOffset (p : Config.Params) (address : Nat) : Option Nat :=
  if p.hostBase ≤ address ∧ address < p.hostBase + windowSize then some (address - p.hostBase) else none

end Sys2Proof.Machine
end

