-- ==== Sys2Proof/Machine/MasterEngine.lean ====
section
/-! DEFINITION. The Master Engine's transitions T1 to T12 (spec/42_master_engine.md R140, R152 to R169): which one is
enabled, decided from the state alone, and what it does in its one atomic step. T0 is part of the acceptance of MSEND
and MRECV (Machine/Facade.lean). -/

namespace Sys2Proof.Machine

/-- The rows of R140's table after T0, with the byte index where the row has one. -/
inductive Trans where
  | t1 | t2 | t3 | t4 | t5
  | t6 | t7
  | t8 (i : Nat)
  | t9 | t10
  | t11 (i : Nat)
  | t12 (i : Nat)
deriving DecidableEq, Repr

/-- The guards of T1 to T5 once the BUS has acted, in the order of R152. -/
def addressTrans (v : Byte) (x : Txn) : Trans :=
  if mLost v then .t1
  else if mRxack v then .t2
  else if x.n = 0 then .t3
  else match x.dir with
    | .w => .t4
    | .r => .t5

/-- The guards of T6 to T9 once the BUS has acted, in the order of R160. -/
def writeTrans (v : Byte) (x : Txn) (i : Nat) : Trans :=
  if mLost v then .t6
  else if mRxack v then .t7
  else if i + 1 < x.n then .t8 i
  else .t9

/-- The guards of T10 to T12, in the order of R165: termination is tested before the byte is taken. -/
def readTrans (v : Byte) (x : Txn) (i : Nat) : Option Trans :=
  if mLost v then some .t10
  else if mClkhold v then (if i + 1 < x.n then some (.t11 i) else some (.t12 i))
  else none

/-- The one transition enabled at a state with transaction `x`, or none: the engine holds (R140, R149). -/
def enabledTrans (s : State) (x : Txn) : Option Trans :=
  match s.mstate with
  | .idle => none
  | .addressPhase => if mActed s.mstatus then some (addressTrans s.mstatus x) else none
  | .dataPhase i =>
    match x.dir with
    | .w => if mActed s.mstatus then some (writeTrans s.mstatus x i) else none
    | .r => readTrans s.mstatus x i

/-- `state <- DataPhase(i)`. -/
def enterData (i : Nat) (s : State) : State := { s with mstate := .dataPhase i }

/-- Send `HBUF[i]` and enter `DataPhase(i)` (T4 with 0, T8 with i + 1). -/
def sendByte (i : Nat) (s : State) : Except Stop State :=
  match hbufRead s i with
  | .error e => .error e
  | .ok b => .ok (enterData i (mdataWriteOp b s))

/-- `MDATA` read (R145): the received byte. -/
def receivedByte (s : State) : Byte := pregRead s .mdata

/-- The actions of a row of R140 in its one step. -/
def runTrans (x : Txn) (s : State) : Trans → Except Stop State
  | .t1 => .ok (retireMaster (.error .busy) s)
  | .t2 => .ok (retireMaster (.stopSent (.err .noDevice)) (stopOp .nack s))
  | .t3 => .ok (retireMaster (.stopSent (.ok 0)) (stopOp .nack s))
  | .t4 => sendByte 0 s
  | .t5 => .ok (enterData 0 s)
  | .t6 => .ok (retireMaster (.error .busy) s)
  | .t7 => .ok (retireMaster (.stopSent (.err .busy)) (stopOp .nack s))
  | .t8 i => sendByte (i + 1) s
  | .t9 => .ok (retireMaster (.stopSent (.ok x.n)) (stopOp .nack s))
  | .t10 => .ok (retireMaster (.error .ioError) (hbufUnspecified x.n 0 s))
  | .t11 i => .ok (enterData (i + 1) (recvTransOp .ack (hbufWrite i (receivedByte s) s)))
  | .t12 i => .ok (retireMaster (.stopSent (.ok x.n)) (stopOp .nack (hbufWrite i (receivedByte s) s)))

/-- The Master Engine's step: none while it is Idle or holds. -/
def masterStep (s : State) : Option (Except Stop State) :=
  match s.mstate with
  | .idle => none
  | .addressPhase =>
    match readTxn s with
    | .error e => some (.error e)
    | .ok x => (enabledTrans s x).map (runTrans x s)
  | .dataPhase _ =>
    match readTxn s with
    | .error e => some (.error e)
    | .ok x => (enabledTrans s x).map (runTrans x s)

end Sys2Proof.Machine
end

