-- ==== Sys2Proof/Machine/SlaveEngine.lean ====
section
/-! DEFINITION. The Slave Engine (spec/43_slave_engine.md R185): SLAVE_ISR as one atomic step of the interrupt context,
and when it is taken (spec/60_exceptions.md R240, R241). Entry saves nothing and the end of the step is the return
(R241, R242). -/

namespace Sys2Proof.Machine

/-- The ISR step is enabled exactly when IMASK = 0 and SIRQ = 1 (R240). -/
def isrEnabled (s : State) : Bool := !s.imask && sirq s.sctrla s.sstatus

/-- The data condition, transmit direction (R185, R191). -/
def slaveTransmit (s : State) : Except Stop State :=
  match rbRead .isr .tx s with
  | .error e => .error e
  | .ok (.ok (b, t)) => responseOp .ack (some b) (sdataWriteOp b t)
  | .ok (.error _) => responseOp .nack none s

/-- The data condition, receive direction (R185, R192). -/
def slaveReceive (s : State) : Except Stop State :=
  match rbWrite .isr .rx (pregRead s .sdata) s with
  | .error e => .error e
  | .ok (.ok t) => responseOp .ack none t
  | .ok (.error _) => responseOp .nack none s

/-- The address/stop condition (R185, R193), on the SSTATUS value `v` read at the start. -/
def slaveAddressStop (v : Byte) (s : State) : Except Stop State :=
  if sAp v && !sColl v then responseOp .ack none s
  else .ok (compTransOp .nack s)

/-- SLAVE_ISR on the SSTATUS value `v` it reads once (R185, R190): the data condition first, then address/stop. -/
def handlerOn (v : Byte) (s : State) : Except Stop State :=
  if sDif v then (if sDir v then slaveTransmit s else slaveReceive s)
  else if sApif v then slaveAddressStop v s
  else .ok s

/-- SLAVE_ISR (R185). -/
def slaveIsr (s : State) : Except Stop State := handlerOn (pregRead s .sstatus) s

end Sys2Proof.Machine
end

