-- ==== Sys2Proof/Machine/Turn.lean ====
section
/-! DEFINITION. One step of the block: whose turn it is, that agent's atomic step, and the sticky marks
(spec/00_scope.md R12, spec/10_state.md R46, spec/20_memory.md R69, spec/60_exceptions.md R234, R235, R243). -/

namespace Sys2Proof.Machine

/-- FG inside a command: a micro-step of the harness, or a Master Engine transition; none while FG holds (R46, R149). -/
def fgStep (s : State) : Option (Except Stop State) :=
  match s.bulk with
  | some x => some (microStep x s)
  | none => masterStep s

/-- The step a turn takes, or none where its agent has no enabled step (R46, R236). -/
def turnStep (t : Turn) (s : State) : Option (Host.Outcome State Fault Refusal) :=
  match t with
  | .host a => some (hostAccess a s)
  | .engine => (fgStep s).map finish
  | .isr => if isrEnabled s then some (finish (slaveIsr s)) else none
  | .answer a => (busAnswer a s).map .next
  | .event e => (busEvent e s).map .next

/-- The state with the mark REFUSED set, which keeps its first reason; nothing else changes (R234). -/
def markRefused (r : Refusal) (s : State) : State :=
  { s with refused := match s.refused with | some q => some q | none => some r }

/-- The state with the mark FAULT set (R235). -/
def markFault (f : Fault) (s : State) : State := { s with faulted := some f }

/-- A step's outcome with its mark recorded: a refused action changes no architectural state and the run goes on
(R234, log 17); a fault is recorded, and the step after it stops (R235, log 7). -/
def recorded (s : State) : Host.Outcome State Fault Refusal → Host.Outcome State Fault Refusal
  | .next t => .next t
  | .refused r => .next (markRefused r s)
  | .fault f => .next (markFault f s)

/-- A turn taken, with its marks; a turn without an enabled step changes nothing (log 16). -/
def takeTurn (t : Turn) (s : State) : Host.Outcome State Fault Refusal :=
  match turnStep t s with
  | none => .next s
  | some o => recorded s o

/-- A turn drawn as a free value. The machine's host has no move while HRES.BUSY = 1 (R26, P1), so a drawn host access
is then no step. -/
def takeDrawn (t : Turn) (s : State) : Host.Outcome State Fault Refusal :=
  match t with
  | .host a => if busy s then .next s else takeTurn (.host a) s
  | .engine => takeTurn .engine s
  | .isr => takeTurn .isr s
  | .answer a => takeTurn (.answer a) s
  | .event e => takeTurn (.event e) s

/-- The schedule with `l` left to take. -/
def setSchedule (l : List Turn) (s : State) : State := { s with schedule := l }

/-- One more free value used. -/
def countDraw (s : State) : State := { s with draws := s.draws + 1 }

/-- The lone access taken out of `probe`. -/
def clearProbe (s : State) : State := { s with probe := none }

/-- The next turn of the schedule, or a drawn one when the schedule is used up (log 1). -/
def nextTurn (s : State) : Host.Outcome State Fault Refusal :=
  match s.schedule with
  | t :: rest => takeTurn t (setSchedule rest s)
  | [] => takeDrawn (Config.freeTurn s.draws) (countDraw s)

/-- One step: stopped by a recorded fault (log 7); else a lone access waiting in `probe` (log 4); else the next turn. -/
def blockStep (s : State) : Host.Outcome State Fault Refusal :=
  match s.faulted with
  | some f => .fault f
  | none =>
    match s.probe with
    | some (f, w) => recorded (clearProbe s) (issue f w (clearProbe s))
    | none => nextTurn s

/-- A table word placed where the next step takes its instruction: a host command as the host's next access, an 8-bit
access in `probe` (log 4, log 12, log 14). -/
def placeTableWord (s : State) (nbits w : Nat) : State :=
  match formatOfTableWord nbits w with
  | .hcmd =>
    clearProbe (setSchedule (.host (.write 0x00 32 (recordOfTableWord nbits w)) :: s.schedule) s)
  | .mctrlb => { s with probe := some (.mctrlb, recordOfTableWord nbits w) }
  | .sctrlb => { s with probe := some (.sctrlb, recordOfTableWord nbits w) }
  | .pacc => { s with probe := some (.pacc, recordOfTableWord nbits w) }

end Sys2Proof.Machine
end

