-- ==== Sys2Proof/Machine/Step.lean ====
section
/-! DEFINITION. The step of the machine, and where the host places a table word for it. -/

namespace Sys2Proof.Machine

/-- One step of the block (Machine/Turn.lean). -/
def step (s : State) : Host.Outcome State Fault Refusal := blockStep s

/-- `s` with a table word placed where `step` takes its next instruction. -/
def State.withFetchWord (s : State) (nbits w : Nat) : State := placeTableWord s nbits w

end Sys2Proof.Machine
end

