-- ==== Sys2Proof/Safety.lean ====
section
/-! DEFINITION. The terms claims are stated in: clean runs and launch premises (spec/70_reset_and_hazards.md R263), the
invariants of the block, runs of many steps, and the fairness of the foreground and the interrupt context
(spec/60_exceptions.md R240). -/

namespace Sys2Proof.Machine

/-- No refusal and no fault recorded (R234, R235, R263). -/
def clean (s : State) : Bool := decide (s.refused = none ∧ s.faulted = none)

/-- Nothing in flight (R260, R263). -/
def nothingInFlight (s : State) : Bool :=
  decide (s.mreq = .none ∧ s.sphase = .idle) && !sDif s.sstatus && !sApif s.sstatus && !sClkhold s.sstatus

/-- The launch premises of R263 for a run from reset, but for the rings, which a claim states. -/
def launched (s : State) : Bool :=
  clean s && nothingInFlight s && !busy s && !s.imask && decide (s.mstate = .idle)

/-! ### Invariants -/

/-- The bounds of a ring at capacity `c` (R41, R107). -/
def Ring.bounded (c : Nat) (r : Ring) : Bool := decide (r.head < c ∧ r.length ≤ c)

/-- The FG-local values of a harness micro-step are in range at capacity `c` (R108, R109). -/
def Micro.bounded (c : Nat) : Micro → Bool
  | .w1 => true
  | .w2 l => decide (l < c)
  | .w3 l h => decide (l < c ∧ h < c)
  | .w4 l => decide (l < c)
  | .r1 => true
  | .r2 l => decide (0 < l ∧ l ≤ c)
  | .r3 l h => decide (0 < l ∧ l ≤ c ∧ h < c)
  | .r4 l h _ => decide (0 < l ∧ l ≤ c ∧ h < c)
  | .r5 l _ => decide (0 < l ∧ l ≤ c)
  | .done => true

/-- The loop of a bulk command is inside its count, which is at most the capacity (R217, R218, R219). -/
def Bulk.bounded (c : Nat) (x : Bulk) : Bool :=
  x.pos.bounded c && decide (x.n ≤ c ∧ x.k ≤ x.n ∧ (x.pos = .done ∨ x.k < x.n))

/-- The rings stay in range: the source's "never corrupts `length` outside `[0, C]`" (R107, R109). -/
def ringsInRange (s : State) : Bool :=
  s.cfg.valid && s.tx.bounded s.cfg.capacity && s.rx.bounded s.cfg.capacity &&
    (match s.bulk with
     | none => true
     | some x => x.bounded s.cfg.capacity)

/-- Every storage space is in its canonical form. -/
def storageCanonical (s : State) : Bool :=
  Memory.wf hbufBlank s.hbuf && Memory.wf ringBlank s.tx.store && Memory.wf ringBlank s.rx.store

/-- The Idle invariant of R264: with MSTATE = Idle, no request is outstanding, BUSY is 1 exactly while a harness command is
in progress, and the transaction fields are absent. -/
def idleInvariant (s : State) : Bool :=
  decide (s.mstate = .idle → s.mreq = .none ∧ (busy s = true ↔ s.bulk ≠ none) ∧ s.txn = none)

/-- A transaction in progress has its fields, a count within C, a byte index below the count, BUSY set, and no harness
command beside it (R39, R142). -/
def transactionInvariant (s : State) : Bool :=
  match s.mstate with
  | .idle => true
  | .addressPhase => busy s && decide (s.bulk = none) &&
    (match s.txn with
     | none => false
     | some x => decide (x.n ≤ s.cfg.capacity))
  | .dataPhase i => busy s && decide (s.bulk = none) &&
    (match s.txn with
     | none => false
     | some x => decide (x.n ≤ s.cfg.capacity ∧ i < x.n))

/-- While a request is outstanding no flag that ends a wait or an error flag is set: "every wait then sees only the
answer to its own request" (R143 to R150; D21). -/
def requestInvariant (s : State) : Bool :=
  decide (s.mreq ≠ .none → mActed s.mstatus = false ∧ mClkhold s.mstatus = false ∧ mLost s.mstatus = false)

/-- The Master Engine's invariant: the three together. -/
def masterInvariant (s : State) : Bool := idleInvariant s && transactionInvariant s && requestInvariant s

/-- At most one slave condition is pending (R181); a data condition stands only in Active, in the condition's direction,
and a match only in Addressed, without COLL (R183, R193). -/
def slaveInvariant (s : State) : Bool :=
  !(sDif s.sstatus && sApif s.sstatus) &&
  decide (sDif s.sstatus = true → s.sphase = .active (Dir.ofBool (sDir s.sstatus))) &&
  decide (sApif s.sstatus = true → sAp s.sstatus = true →
    s.sphase = .addressed (Dir.ofBool (sDir s.sstatus)) ∧ sColl s.sstatus = false) &&
  decide (sApif s.sstatus = true → sAp s.sstatus = false → s.sphase = .idle)

/-- The reserved bits of the registers read 0 (R24, R28 to R30, R34 to R37), MODE is never 3, STATUS is one of the codes
that reach HRES, and COUNT is 0 when STATUS is not (R24, R230). -/
def registersLegal (s : State) : Bool :=
  decide (s.mctrla &&& 0xF8#8 = 0#8) && decide (mMode s.mctrla ≠ 3#2) &&
  decide (s.mctrlb &&& 0xFB#8 = 0#8) && decide (s.mstatus &&& 0x03#8 = 0#8) &&
  decide (s.sctrla &&& 0xF0#8 = 0#8) && decide (s.sctrlb &&& 0xFB#8 = 0#8) &&
  decide (s.sstatus &&& 0x14#8 = 0#8) && decide (s.saddr &&& 0x01#8 = 0#8) &&
  decide (s.hres &&& 0x7FFF0000#32 = 0#32) && decide ((hresStatus s.hres).toNat ≤ 3) &&
  decide (hresStatus s.hres ≠ 0#8 → hresCount s.hres = 0#8)

/-- The slave's enables are set together or not at all: no pending condition is left without its enable (R184, R236). -/
def enablesTogether (s : State) : Bool := decide (s.sctrla = 0x00#8 ∨ s.sctrla = 0x0F#8)

/-- IMASK is 0 at every step boundary (R216). -/
def unmasked (s : State) : Bool := !s.imask

/-- No lone access is waiting: true at reset, and no step makes one (log 4). -/
def noProbe (s : State) : Bool := decide (s.probe = none)

/-! ### What a master transaction has emitted -/

/-- How many stops a list of bus actions holds. -/
def stopCount (l : List BusAction) : Nat :=
  (l.filter (fun a => match a with
    | .mStop _ => true
    | .mStart _ _ => false
    | .mTx _ => false
    | .mRecvNext _ => false
    | .sResponse _ _ => false
    | .sComplete _ => false)).length

/-! ### Runs -/

/-- `k` steps, ending early at a fault or a refusal. -/
def runSteps : Nat → State → Host.Outcome State Fault Refusal
  | 0, s => .next s
  | k + 1, s =>
    match step s with
    | .next t => runSteps k t
    | .fault f => .fault f
    | .refused r => .refused r

/-- An infinite run. -/
def IsRun (run : Nat → State) : Prop := ∀ n, step (run n) = .next (run (n + 1))

/-- The turn a step takes, if it takes one. -/
def turnTaken (s : State) : Option Turn :=
  match s.probe with
  | some _ => none
  | none =>
    match s.schedule with
    | t :: _ => some t
    | [] => some (Config.freeTurn s.draws)

/-- FG has an enabled step inside a command (R240). -/
def engineEnabled (s : State) : Bool := (fgStep s).isSome

/-- Weak fairness of R240: a step that stays enabled is taken at some later step. The BUS and the host have none. -/
def WeaklyFair (run : Nat → State) : Prop :=
  (∀ n, (∀ m, n ≤ m → isrEnabled (run m) = true) → ∃ m, n ≤ m ∧ turnTaken (run m) = some .isr) ∧
  (∀ n, (∀ m, n ≤ m → engineEnabled (run m) = true) → ∃ m, n ≤ m ∧ turnTaken (run m) = some .engine)

end Sys2Proof.Machine
end

