-- ==== Sys2Proof/Certificates/Slice0/Obligations.lean ====
section
/-! DEFINITION. The statements for the provers. Each docstring names the rule of spec/ it formalises, and the log entry
where a clause is the model's own convention. A conclusion that is an equation of states is the frame as well: every field
not named keeps its value, all of storage among them. -/

open Sys2Proof Sys2Proof.Machine

/-! ### Encoding and decoding -/

/-- Nineteen words, each with the instruction or the refusal it decodes to. Seventeen are the spec's (spec/95_test_vectors.md
V-E1 to V-E25, spec/30_encoding.md R86 to R88). Two PACC clauses are the model's choice: 0x9084 carries the MADDR write's
operand byte in the model's own layout (log 6), and 0x91, to which R88 gives neither a row nor a refusal, is refused
ReservedPeripheralCommand (DESIGN CHOICE, log 10). -/
def Obligations.SpecWordsDecode : Prop :=
  decode 100 .hcmd 0x00020001#32 = .ok (.initm .fastPlus) ∧
  decode 100 .hcmd 0x64004802#32 = .ok (.msend 0x48#7 100#8) ∧
  decode 100 .hcmd 0x02005003#32 = .ok (.mrecv 0x50#7 2#8) ∧
  decode 100 .hcmd 0x00002104#32 = .ok (.inits 0x21#7) ∧
  decode 100 .hcmd 0x00007F05#32 = .ok (.setsa 0x7F#7) ∧
  decode 100 .hcmd 0x04000006#32 = .ok (.senq 4#8) ∧
  decode 255 .hcmd 0xFF000007#32 = .ok (.sdrain 255#8) ∧
  decode 100 .hcmd 0x00030001#32 = .error .reservedMode ∧
  decode 100 .hcmd 0x00030101#32 = .error .reservedEncoding ∧
  decode 100 .hcmd 0x65004802#32 = .error .countAboveCapacity ∧
  decode 100 .hcmd 0x00008002#32 = .error .reservedEncoding ∧
  decode 100 .mctrlb 0x02#32 = .ok (.mctrlbRecvtrans .ack) ∧
  decode 100 .mctrlb 0x07#32 = .ok (.mctrlbStop .nack) ∧
  decode 100 .mctrlb 0x01#32 = .error .reservedPeripheralCommand ∧
  decode 100 .sctrlb 0x06#32 = .ok (.sctrlbComptrans .nack) ∧
  decode 100 .sctrlb 0x03#32 = .ok (.sctrlbResponse .ack none) ∧
  decode 100 .pacc 0x9084#32 = .ok (.maddrWrite 0x48#7 .w) ∧
  decode 100 .pacc 0x91#32 = .error .reservedPeripheralCommand ∧
  decode 100 .pacc 0x0C#32 = .ok .sdataRead

/-- Decoding an encoded well-formed instruction gives it back, with every operand at every value (R80 to R88). -/
def Obligations.DecodeOfEncode : Prop :=
  ∀ (c : Nat) (i : Instr), i.wf c = true → decode c (formatOf i) (encode i) = .ok i

/-- Each record has one meaning: what decodes to an instruction is that instruction's encoding, in its format, and the
instruction is well formed (R80 to R88). -/
def Obligations.EncodeOfDecode : Prop :=
  ∀ (c : Nat) (f : Format) (w : Word) (i : Instr), decode c f w = .ok i →
    i.wf c = true ∧ formatOf i = f ∧ encode i = w

/-- The command a selected row is, with its fields as R81 takes them from the word; none for mode 3. -/
def Sys2Proof.rowCommand (op : HostOp) (w : Word) : Option Instr :=
  match op with
  | .initm =>
    if w.extractLsb' 16 2 = 0#2 then some (.initm .standard)
    else if w.extractLsb' 16 2 = 1#2 then some (.initm .fast)
    else if w.extractLsb' 16 2 = 2#2 then some (.initm .fastPlus)
    else none
  | .msend => some (.msend (w.extractLsb' 8 7) (w.extractLsb' 24 8))
  | .mrecv => some (.mrecv (w.extractLsb' 8 7) (w.extractLsb' 24 8))
  | .inits => some (.inits (w.extractLsb' 8 7))
  | .setsa => some (.setsa (w.extractLsb' 8 7))
  | .senq => some (.senq (w.extractLsb' 24 8))
  | .sdrain => some (.sdrain (w.extractLsb' 24 8))

/-- R82, R83, the opcode map's commands with their matches and masks, and the decode procedure on every word: at most one
row matches; no row, ReservedEncoding; INITM with mode 3, ReservedMode; a counting command with COUNT above C,
CountAboveCapacity; else the row with its fields. -/
def Obligations.HostDecodeProcedure : Prop :=
  opcodeMap.map (fun r => (r.op, r.bits, r.mask)) =
    [(.initm, 0x00000001#32, 0xFFFCFFFF#32), (.msend, 0x00000002#32, 0x00FF80FF#32),
     (.mrecv, 0x00000003#32, 0x00FF80FF#32), (.inits, 0x00000004#32, 0xFFFF80FF#32),
     (.setsa, 0x00000005#32, 0xFFFF80FF#32), (.senq, 0x00000006#32, 0x00FFFFFF#32),
     (.sdrain, 0x00000007#32, 0x00FFFFFF#32)] ∧
  ∀ (c : Nat) (w : Word),
    (∀ r q : OpcodeRow, r ∈ opcodeMap → q ∈ opcodeMap → w &&& r.mask = r.bits → w &&& q.mask = q.bits → r = q) ∧
    ((∀ r ∈ opcodeMap, w &&& r.mask ≠ r.bits) → decode c .hcmd w = .error .reservedEncoding) ∧
    (∀ r ∈ opcodeMap, w &&& r.mask = r.bits →
      (r.op = .initm ∧ w.extractLsb' 16 2 = 3#2 → decode c .hcmd w = .error .reservedMode) ∧
      (r.op ∈ [HostOp.msend, .mrecv, .senq, .sdrain] ∧ c < (w.extractLsb' 24 8).toNat →
        decode c .hcmd w = .error .countAboveCapacity) ∧
      (¬ (r.op = .initm ∧ w.extractLsb' 16 2 = 3#2) →
        ¬ (r.op ∈ [HostOp.msend, .mrecv, .senq, .sdrain] ∧ c < (w.extractLsb' 24 8).toNat) →
        ∃ i, rowCommand r.op w = some i ∧ decode c .hcmd w = .ok i))

/-! ### Steps -/

/-- R210, R22, R83, R234, R243: a host write of HCMD while the block is not busy. When the word decodes to `i` the access is
`exec i`. When the decoder refuses the word, the access is refused for the decoder's own reason, whatever HARG and
MCTRLA.ENABLE are, so before ZeroFrequency and MasterDisabled. When that write is the next turn, the step is the same on
the state with the turn taken, its mark recorded (R234, R235; logs 1, 7 and 17). -/
def Obligations.StepRunsHostCommand : Prop :=
  ∀ (s : State) (w : Word), busy s = false →
    (∀ i, decode s.cfg.capacity .hcmd w = .ok i →
      hostAccess (.write 0x00 32 w) s = exec i s ∧
      (∀ rest, s.faulted = none → s.probe = none → s.schedule = .host (.write 0x00 32 w) :: rest →
        step s = recorded { s with schedule := rest } (exec i { s with schedule := rest }))) ∧
    (∀ e r, decode s.cfg.capacity .hcmd w = .error e →
      (e, r) ∈ [(DecodeRefusal.reservedEncoding, Refusal.reservedEncoding), (.reservedMode, .reservedMode),
        (.countAboveCapacity, .countAboveCapacity)] →
      hostAccess (.write 0x00 32 w) s = .refused r ∧
      (∀ rest, s.faulted = none → s.probe = none → s.schedule = .host (.write 0x00 32 w) :: rest →
        step s = .next { s with schedule := rest, refused := some (s.refused.getD r) }))

/-- A lone access of an engine's format that decodes to `i` is run as `exec i` on the state without it (the model's
own way to run one access by itself, log 4). -/
def Obligations.StepRunsLoneAccess : Prop :=
  ∀ (s : State) (f : Format) (w : Word) (i : Instr),
    s.faulted = none → s.probe = some (f, w) → decode s.cfg.capacity f w = .ok i →
    step s = recorded { s with probe := none } (exec i { s with probe := none })

/-- What a step is, for every turn. A listed turn whose agent has a step to a next state makes that step (R46, R69). R234,
R235, R236 with the model's conventions of logs 1, 7 and 16: a refused turn changes nothing but the sticky mark REFUSED,
which keeps its first reason; a faulting turn records FAULT and changes nothing else, and no step follows it; a turn
whose agent has no enabled step changes nothing. With no turn listed, the step is that of the drawn turn as if it were
listed, with one more free value used; a drawn host turn while BUSY = 1 is no move (R26; the model's form, logs 1 and 9). -/
def Obligations.TurnsRefusedFaultedOrIdle : Prop :=
  (∀ (s : State) (k : Turn) (rest : List Turn),
    s.faulted = none → s.probe = none → s.schedule = k :: rest →
    (∀ t, turnStep k { s with schedule := rest } = some (.next t) → step s = .next t) ∧
    (∀ r, turnStep k { s with schedule := rest } = some (.refused r) →
      step s = .next { s with schedule := rest, refused := some (s.refused.getD r) }) ∧
    (∀ f, turnStep k { s with schedule := rest } = some (.fault f) →
      step s = .next { s with schedule := rest, faulted := some f }) ∧
    (turnStep k { s with schedule := rest } = none →
      step s = .next { s with schedule := rest })) ∧
  (∀ (s : State), s.faulted = none → s.probe = none → s.schedule = [] →
    step s =
      match Config.freeTurn s.draws with
      | .host a =>
        if busy s = true then .next { s with draws := s.draws + 1 }
        else step { s with draws := s.draws + 1, schedule := [.host a] }
      | .engine => step { s with draws := s.draws + 1, schedule := [.engine] }
      | .isr => step { s with draws := s.draws + 1, schedule := [.isr] }
      | .answer a => step { s with draws := s.draws + 1, schedule := [.answer a] }
      | .event e => step { s with draws := s.draws + 1, schedule := [.event e] }) ∧
  (∀ (s : State) (f : Fault), s.faulted = some f → step s = .fault f)

/-! ### The host window -/

/-- R21, R22, R49, R66: what a host read of each offset gives; it changes nothing but the value handed back, and a read
of an HBUF entry that holds no value faults. -/
def Obligations.HostReadsEachRegister : Prop :=
  ∀ (s : State), busy s = false →
    hostAccess (.read 0x00 32) s = .next { s with result := 0#32 } ∧
    hostAccess (.read 0x04 32) s = .next { s with result := s.harg } ∧
    hostAccess (.read 0x08 32) s = .next { s with result := s.hres } ∧
    hostAccess (.read 0x0C 32) s = .next { s with result := 0#32 } ∧
    (∀ i b, i < s.cfg.capacity → Memory.read hbufBlank s.hbuf i = some b →
      hostAccess (.read (0x10 + i) 8) s = .next { s with result := b.setWidth 32 }) ∧
    (∀ i, i < s.cfg.capacity → Memory.read hbufBlank s.hbuf i = none →
      hostAccess (.read (0x10 + i) 8) s = .fault (.unwrittenRead i)) ∧
    (∀ a, 0x10 + s.cfg.capacity ≤ a → a < 0x200 →
      hostAccess (.read a 8) s = .next { s with result := 0#32 })

/-- R21, R23, R25, R66: what a host write of each offset but HCMD does. HBUF is told by its read of one entry. -/
def Obligations.HostWritesEachRegister : Prop :=
  ∀ (s : State) (v : Word), busy s = false → storageCanonical s = true →
    hostAccess (.write 0x04 32 v) s = .next { s with harg := v } ∧
    hostAccess (.write 0x08 32 v) s = .next s ∧
    hostAccess (.write 0x0C 32 v) s = .next s ∧
    (∀ a, 0x10 + s.cfg.capacity ≤ a → a < 0x200 → hostAccess (.write a 8 v) s = .next s) ∧
    (∀ i, i < s.cfg.capacity → ∃ t, hostAccess (.write (0x10 + i) 8 v) s = .next t ∧
      t = { s with hbuf := t.hbuf } ∧
      Memory.read hbufBlank t.hbuf i = some (v.setWidth 8) ∧
      (∀ j, j ≠ i → Memory.read hbufBlank t.hbuf j = Memory.read hbufBlank s.hbuf j))

/-- R64, with the reading of log 8 for the reserved offsets above HBUF: any other access is refused BadHostAccess. -/
def Obligations.OtherHostAccessesRefused : Prop :=
  ∀ (s : State) (a width : Nat) (v : Word), busy s = false → s.cfg.valid = true →
    ¬ (width = 32 ∧ (a = 0x00 ∨ a = 0x04 ∨ a = 0x08 ∨ a = 0x0C)) →
    ¬ (width = 8 ∧ 0x10 ≤ a ∧ a < 0x200) →
    hostAccess (.read a width) s = .refused .badHostAccess ∧
    hostAccess (.write a width v) s = .refused .badHostAccess

/-- R26, R234, R243: while HRES.BUSY = 1 every host access, and every host command, is refused HostWhileBusy, whatever
else is wrong with it. -/
def Obligations.BusyRefusesTheHost : Prop :=
  ∀ (s : State), s.hres.getLsbD 31 = true →
    (∀ a : HostAccess, hostAccess a s = .refused .hostWhileBusy) ∧
    (∀ i : Instr, formatOf i = .hcmd → exec i s = .refused .hostWhileBusy)

/-! ### The host commands -/

/-- R211: INITM with HARG nonzero writes MBAUD, MCTRLA, MSTATUS, MCTRLB and HRES, and nothing else; with HARG = 0 it is
refused. The divisor is the baud generator's (BaudHasOneCorrectionPath). -/
def Obligations.InitmWritesMasterRegisters : Prop :=
  (encode (.initm .standard) = 0x00000001#32 ∧ encode (.initm .fast) = 0x00010001#32 ∧
    encode (.initm .fastPlus) = 0x00020001#32) ∧
  ∀ (s : State) (m : BusMode), s.hres.getLsbD 31 = false →
    (s.harg ≠ 0#32 →
      exec (.initm m) s = .next { s with
        mbaud := computeBaud s.harg.toNat m s.cfg.busClockHz
        mctrla := match m with | .standard => 0x01#8 | .fast => 0x03#8 | .fastPlus => 0x05#8
        mstatus := 0x00#8
        mctrlb := 0x00#8
        hres := 0x00000000#32 }) ∧
    (s.harg = 0#32 → exec (.initm m) s = .refused .zeroFrequency)

/-- R212, R213 with T0 of R151 and the MADDR write of R143: MSEND and MRECV with the master enabled and COUNT at most C
set BUSY, start the transaction and issue the start; nothing else changes; and the engine then holds. -/
def Obligations.MasterCommandsStartTheEngine : Prop :=
  ∀ (s : State) (a : BitVec 7) (n : Byte),
    s.hres.getLsbD 31 = false → n.toNat ≤ s.cfg.capacity → s.mctrla.getLsbD 0 = true →
    (∀ t, s.bulk = none → exec (.msend a n) s = .next t ∨ exec (.mrecv a n) s = .next t →
      turnStep .engine t = none) ∧
    exec (.msend a n) s = .next { s with
      hres := s.hres ||| 0x80000000#32
      txn := some { addr7 := a, dir := .w, n := n.toNat }
      mstate := .addressPhase
      maddr := a ++ 0#1
      mstatus := s.mstatus &&& 0x03#8
      mreq := .addr .w
      trace := s.trace ++ [.mStart a .w] } ∧
    exec (.mrecv a n) s = .next { s with
      hres := s.hres ||| 0x80000000#32
      txn := some { addr7 := a, dir := .r, n := n.toNat }
      mstate := .addressPhase
      maddr := a ++ 1#1
      mstatus := s.mstatus &&& 0x03#8
      mreq := .addr .r
      trace := s.trace ++ [.mStart a .r] }

/-- R212, R213, R217, R218, R243: where the counting commands are refused, in the order of R243. -/
def Obligations.CountingCommandsRefused : Prop :=
  ∀ (s : State) (a : BitVec 7) (n : Byte), s.hres.getLsbD 31 = false →
    (s.cfg.capacity < n.toNat →
      exec (.msend a n) s = .refused .countAboveCapacity ∧ exec (.mrecv a n) s = .refused .countAboveCapacity ∧
      exec (.senq n) s = .refused .countAboveCapacity ∧ exec (.sdrain n) s = .refused .countAboveCapacity) ∧
    (n.toNat ≤ s.cfg.capacity → s.mctrla.getLsbD 0 = false →
      exec (.msend a n) s = .refused .masterDisabled ∧ exec (.mrecv a n) s = .refused .masterDisabled)

/-- R214, R215: INITS writes SADDR, SCTRLA and HRES, SETSA writes SADDR and HRES, and nothing else changes. -/
def Obligations.SlaveAddressCommands : Prop :=
  ∀ (s : State) (a : BitVec 7), s.hres.getLsbD 31 = false →
    encode (.inits a) = 0#17 ++ a ++ 0x04#8 ∧ encode (.setsa a) = 0#17 ++ a ++ 0x05#8 ∧
    exec (.inits a) s = .next { s with saddr := a ++ 0#1, sctrla := 0x0F#8, hres := 0x00000000#32 } ∧
    exec (.setsa a) s = .next { s with saddr := a ++ 0#1, hres := 0x00000000#32 }

/-- R217, bracketed SENQ: k = min(n, C - TX.length) bytes HBUF[0..k-1] are appended to TX in order, COUNT = k, and nothing
else changes. -/
def Obligations.SenqAppendsToTx : Prop :=
  ∀ (s : State) (n : Byte),
    s.hres.getLsbD 31 = false → s.cfg.bracket = true → n.toNat ≤ s.cfg.capacity →
    s.tx.head < s.cfg.capacity → s.tx.length ≤ s.cfg.capacity → Memory.wf ringBlank s.tx.store = true →
    (∀ i, i < min n.toNat (s.cfg.capacity - s.tx.length) → Memory.read hbufBlank s.hbuf i ≠ none) →
    encode (.senq n) = n ++ 0#16 ++ 0x06#8 ∧ ∃ t, exec (.senq n) s = .next t ∧
      t = { s with tx := t.tx, hres := t.hres } ∧
      t.hres = 0#16 ++ BitVec.ofNat 8 (min n.toNat (s.cfg.capacity - s.tx.length)) ++ 0#8 ∧
      t.tx.head = s.tx.head ∧
      t.tx.length = s.tx.length + min n.toNat (s.cfg.capacity - s.tx.length) ∧
      (∀ i, i < min n.toNat (s.cfg.capacity - s.tx.length) →
        Memory.read hbufBlank s.hbuf i =
          some (ringCell t.tx.store ((s.tx.head + (s.tx.length + i)) % s.cfg.capacity))) ∧
      (∀ j, (∀ i, i < min n.toNat (s.cfg.capacity - s.tx.length) →
          j ≠ (s.tx.head + (s.tx.length + i)) % s.cfg.capacity) →
        ringCell t.tx.store j = ringCell s.tx.store j)

/-- R217, R235: bracketed SENQ faults at the first HBUF entry it must read that holds no value. -/
def Obligations.SenqFaultsOnUnwrittenEntry : Prop :=
  ∀ (s : State) (n : Byte) (j : Nat),
    s.hres.getLsbD 31 = false → s.cfg.bracket = true → n.toNat ≤ s.cfg.capacity →
    s.tx.length ≤ s.cfg.capacity →
    j < min n.toNat (s.cfg.capacity - s.tx.length) →
    (∀ i, i < j → Memory.read hbufBlank s.hbuf i ≠ none) → Memory.read hbufBlank s.hbuf j = none →
    exec (.senq n) s = .fault (.unwrittenRead j)

/-- R218, bracketed SDRAIN: k = min(m, RX.length) oldest bytes of RX go to HBUF[0..k-1] in order, COUNT = k, RX's store and
every other HBUF entry are unchanged, and nothing else changes. -/
def Obligations.SdrainTakesFromRx : Prop :=
  ∀ (s : State) (m : Byte),
    s.hres.getLsbD 31 = false → s.cfg.bracket = true → m.toNat ≤ s.cfg.capacity →
    s.rx.head < s.cfg.capacity → s.rx.length ≤ s.cfg.capacity → Memory.wf hbufBlank s.hbuf = true →
    encode (.sdrain m) = m ++ 0#16 ++ 0x07#8 ∧ ∃ t, exec (.sdrain m) s = .next t ∧
      t = { s with rx := t.rx, hbuf := t.hbuf, hres := t.hres } ∧
      t.hres = 0#16 ++ BitVec.ofNat 8 (min m.toNat s.rx.length) ++ 0#8 ∧
      t.rx = { s.rx with
        head := (s.rx.head + min m.toNat s.rx.length) % s.cfg.capacity
        length := s.rx.length - min m.toNat s.rx.length } ∧
      (∀ i, i < min m.toNat s.rx.length →
        Memory.read hbufBlank t.hbuf i = some (ringCell s.rx.store ((s.rx.head + i) % s.cfg.capacity))) ∧
      (∀ a, min m.toNat s.rx.length ≤ a → Memory.read hbufBlank t.hbuf a = Memory.read hbufBlank s.hbuf a)

/-- R219: un-bracketed SENQ and SDRAIN are accepted with BUSY set and nothing else of the block changed; the loop starts at
its first micro-step, or at the final step for a count of 0. -/
def Obligations.UnbracketedBulkIsAccepted : Prop :=
  ∀ (s : State) (n : Byte), s.hres.getLsbD 31 = false → s.cfg.bracket = false → n.toNat ≤ s.cfg.capacity →
    exec (.senq n) s = .next { s with
      hres := s.hres ||| 0x80000000#32
      bulk := some { n := n.toNat, k := 0, pos := if n = 0#8 then .done else .w1 } } ∧
    exec (.sdrain n) s = .next { s with
      hres := s.hres ||| 0x80000000#32
      bulk := some { n := n.toNat, k := 0, pos := if n = 0#8 then .done else .r1 } }

/-! ### The engines' primitives -/

/-- R143, R144, R146, R147: the Master Engine's four writes, and nothing else changed. RECVTRANS with NACK is refused. -/
def Obligations.MasterPrimitiveEffects : Prop :=
  ∀ (s : State) (a : BitVec 7) (d : Dir) (b : Byte) (act : AckAct),
    exec (.maddrWrite a d) s = .next { s with
      maddr := match d with | .w => a ++ 0#1 | .r => a ++ 1#1
      mstatus := s.mstatus &&& 0x03#8
      mreq := .addr d
      trace := s.trace ++ [.mStart a d] } ∧
    exec (.mdataWrite b) s = .next { s with
      mdata := b
      mstatus := s.mstatus &&& 0x1F#8
      mreq := .tx
      trace := s.trace ++ [.mTx b] } ∧
    exec (.mctrlbRecvtrans .ack) s = .next { s with
      mctrlb := 0x00#8
      mstatus := s.mstatus &&& 0x1F#8
      mreq := .recvNext
      trace := s.trace ++ [.mRecvNext .ack] } ∧
    exec (.mctrlbRecvtrans .nack) s = .refused .reservedPeripheralCommand ∧
    exec (.mctrlbStop act) s = .next { s with
      mctrlb := match act with | .ack => 0x00#8 | .nack => 0x04#8
      mstatus := s.mstatus &&& 0x1F#8
      mreq := .none
      trace := s.trace ++ [.mStop act] }

/-- R186, R187: RESPONSE in Addressed(d) and Active(d), where it is refused, and COMPTRANS; nothing else changes. -/
def Obligations.SlavePrimitiveEffects : Prop :=
  ∀ (s : State) (act : AckAct) (p : Option Byte),
    (∀ d : Dir, s.sphase = .addressed d ∨ s.sphase = .active d →
      exec (.sctrlbResponse act p) s = .next { s with
        sctrlb := match act with | .ack => 0x00#8 | .nack => 0x04#8
        sstatus := s.sstatus &&& 0x1F#8
        sphase := match act with | .ack => .active d | .nack => .ending
        trace := s.trace ++ [.sResponse act p] }) ∧
    (s.sphase = .idle ∨ s.sphase = .ending →
      exec (.sctrlbResponse act p) s = .refused .reservedPeripheralCommand) ∧
    exec (.sctrlbComptrans act) s = .next { s with
      sctrlb := match act with | .ack => 0x00#8 | .nack => 0x04#8
      sstatus := s.sstatus &&& 0x1F#8
      sphase := .idle
      trace := s.trace ++ [.sComplete act] }

/-- The SDATA write stores its byte (R188), and the four reads (R145, R148, R189, R190) give the register's value. That a read
hands it back in State.result is the model's choice (DESIGN CHOICE, log 5); nothing else changes. -/
def Obligations.DataAndStatusAccesses : Prop :=
  ∀ (s : State) (b : Byte),
    (encode (.sdataWrite b)).extractLsb' 0 8 = 0x8C#8 ∧
    exec .mstatusRead s = .next { s with result := s.mstatus.setWidth 32 } ∧
    exec .mdataRead s = .next { s with result := s.mdata.setWidth 32 } ∧
    exec .sstatusRead s = .next { s with result := s.sstatus.setWidth 32 } ∧
    exec .sdataRead s = .next { s with result := s.sdata.setWidth 32 } ∧
    exec (.sdataWrite b) s = .next { s with sdata := b }

/-! ### The Master Engine -/

/-- R149: the engine holds in AddressPhase and in a write DataPhase exactly until RIF or WIF, and in a read DataPhase
exactly until CLKHOLD, ARBLOST or BUSERR. -/
def Obligations.EngineHoldsUntilAnswered : Prop :=
  ∀ (s : State) (x : Txn) (i : Nat), s.bulk = none → s.txn = some x →
    (s.mstate = .addressPhase →
      (turnStep .engine s = none ↔ s.mstatus.getLsbD 7 = false ∧ s.mstatus.getLsbD 6 = false)) ∧
    (s.mstate = .dataPhase i → x.dir = .w →
      (turnStep .engine s = none ↔ s.mstatus.getLsbD 7 = false ∧ s.mstatus.getLsbD 6 = false)) ∧
    (s.mstate = .dataPhase i → x.dir = .r →
      (turnStep .engine s = none ↔
        s.mstatus.getLsbD 5 = false ∧ s.mstatus.getLsbD 3 = false ∧ s.mstatus.getLsbD 2 = false))

/-- R152 to R155, R163, R167 with R169: what the engine's step does in AddressPhase once RIF or WIF is set: an error flag
first (T1, no stop), then RXACK (T2), a count of 0 (T3), the first byte written (T4), the first byte awaited (T5). -/
def Obligations.AddressPhaseOutcomes : Prop :=
  ∀ (s : State) (x : Txn),
    s.bulk = none → s.mstate = .addressPhase → s.txn = some x →
    (s.mstatus.getLsbD 7 = true ∨ s.mstatus.getLsbD 6 = true) →
    (s.mstatus.getLsbD 3 = true ∨ s.mstatus.getLsbD 2 = true →
      turnStep .engine s = some (.next { s with
        hres := 0x00000002#32, mlast := some (.error .busy), mstate := .idle, txn := none })) ∧
    (s.mstatus.getLsbD 3 = false → s.mstatus.getLsbD 2 = false →
      (s.mstatus.getLsbD 4 = true →
        turnStep .engine s = some (.next { s with
          mctrlb := 0x04#8, mstatus := s.mstatus &&& 0x1F#8, mreq := .none,
          trace := s.trace ++ [.mStop .nack],
          hres := 0x00000001#32, mlast := some (.stopSent (.err .noDevice)), mstate := .idle, txn := none })) ∧
      (s.mstatus.getLsbD 4 = false → x.n = 0 →
        turnStep .engine s = some (.next { s with
          mctrlb := 0x04#8, mstatus := s.mstatus &&& 0x1F#8, mreq := .none,
          trace := s.trace ++ [.mStop .nack],
          hres := 0x00000000#32, mlast := some (.stopSent (.ok 0)), mstate := .idle, txn := none })) ∧
      (s.mstatus.getLsbD 4 = false → 0 < x.n → x.dir = .w →
        (∀ b, Memory.read hbufBlank s.hbuf 0 = some b →
          turnStep .engine s = some (.next { s with
            mdata := b, mstatus := s.mstatus &&& 0x1F#8, mreq := .tx,
            trace := s.trace ++ [.mTx b], mstate := .dataPhase 0 })) ∧
        (Memory.read hbufBlank s.hbuf 0 = none → turnStep .engine s = some (.fault (.unwrittenRead 0)))) ∧
      (s.mstatus.getLsbD 4 = false → 0 < x.n → x.dir = .r →
        turnStep .engine s = some (.next { s with mstate := .dataPhase 0 })))

/-- R160, R161 with R162 and R169: what the engine's step does in a write DataPhase(i) once RIF or WIF is set: T6, T7, T8 or
T9. -/
def Obligations.WriteDataOutcomes : Prop :=
  ∀ (s : State) (x : Txn) (i : Nat),
    s.bulk = none → s.mstate = .dataPhase i → s.txn = some x → x.dir = .w →
    (s.mstatus.getLsbD 7 = true ∨ s.mstatus.getLsbD 6 = true) →
    (s.mstatus.getLsbD 3 = true ∨ s.mstatus.getLsbD 2 = true →
      turnStep .engine s = some (.next { s with
        hres := 0x00000002#32, mlast := some (.error .busy), mstate := .idle, txn := none })) ∧
    (s.mstatus.getLsbD 3 = false → s.mstatus.getLsbD 2 = false →
      (s.mstatus.getLsbD 4 = true →
        turnStep .engine s = some (.next { s with
          mctrlb := 0x04#8, mstatus := s.mstatus &&& 0x1F#8, mreq := .none,
          trace := s.trace ++ [.mStop .nack],
          hres := 0x00000002#32, mlast := some (.stopSent (.err .busy)), mstate := .idle, txn := none })) ∧
      (s.mstatus.getLsbD 4 = false → i + 1 < x.n →
        (∀ b, Memory.read hbufBlank s.hbuf (i + 1) = some b →
          turnStep .engine s = some (.next { s with
            mdata := b, mstatus := s.mstatus &&& 0x1F#8, mreq := .tx,
            trace := s.trace ++ [.mTx b], mstate := .dataPhase (i + 1) })) ∧
        (Memory.read hbufBlank s.hbuf (i + 1) = none →
          turnStep .engine s = some (.fault (.unwrittenRead (i + 1))))) ∧
      (s.mstatus.getLsbD 4 = false → i + 1 = x.n →
        turnStep .engine s = some (.next { s with
          mctrlb := 0x04#8, mstatus := s.mstatus &&& 0x1F#8, mreq := .none,
          trace := s.trace ++ [.mStop .nack],
          hres := 0#16 ++ BitVec.ofNat 8 x.n ++ 0#8, mlast := some (.stopSent (.ok x.n)),
          mstate := .idle, txn := none })))

/-- R165 with R169: what the engine's step does in a read DataPhase(i) with CLKHOLD set and no termination: the byte is
stored in HBUF[i], every other entry keeps its value, and T11 continues or T12 stops. -/
def Obligations.ReadDataOutcomes : Prop :=
  ∀ (s : State) (x : Txn) (i : Nat),
    s.bulk = none → s.mstate = .dataPhase i → s.txn = some x → x.dir = .r → Memory.wf hbufBlank s.hbuf = true →
    s.mstatus.getLsbD 5 = true → s.mstatus.getLsbD 3 = false → s.mstatus.getLsbD 2 = false → i < x.n →
    ∃ t, turnStep .engine s = some (.next t) ∧
      Memory.read hbufBlank t.hbuf i = some s.mdata ∧
      (∀ j, j ≠ i → Memory.read hbufBlank t.hbuf j = Memory.read hbufBlank s.hbuf j) ∧
      (i + 1 < x.n → t = { s with
        hbuf := t.hbuf, mctrlb := 0x00#8, mstatus := s.mstatus &&& 0x1F#8, mreq := .recvNext,
        trace := s.trace ++ [.mRecvNext .ack], mstate := .dataPhase (i + 1) }) ∧
      (i + 1 = x.n → t = { s with
        hbuf := t.hbuf, mctrlb := 0x04#8, mstatus := s.mstatus &&& 0x1F#8, mreq := .none,
        trace := s.trace ++ [.mStop .nack],
        hres := 0#16 ++ BitVec.ofNat 8 x.n ++ 0#8, mlast := some (.stopSent (.ok x.n)),
        mstate := .idle, txn := none })

/-- R165 (T10) with R168 and R169: on termination the read retires with IOError and no stop, HBUF[0..N-1] are unspecified,
every other entry keeps its value, and nothing else changes. That the unspecified entries are the free values numbered
from State.draws, which moves on by N, is the model's choice (DESIGN CHOICE, log 3). -/
def Obligations.ReadTerminationGivesIoError : Prop :=
  ∀ (s : State) (x : Txn) (i : Nat),
    s.bulk = none → s.mstate = .dataPhase i → s.txn = some x → x.dir = .r → Memory.wf hbufBlank s.hbuf = true →
    (s.mstatus.getLsbD 3 = true ∨ s.mstatus.getLsbD 2 = true) →
    ∃ t, turnStep .engine s = some (.next t) ∧
      t = { s with
        hbuf := t.hbuf, draws := s.draws + x.n,
        hres := 0x00000003#32, mlast := some (.error .ioError), mstate := .idle, txn := none } ∧
      (∀ j, j < x.n → Memory.read hbufBlank t.hbuf j = some (Config.freeByte (s.draws + j))) ∧
      (∀ j, x.n ≤ j → Memory.read hbufBlank t.hbuf j = Memory.read hbufBlank s.hbuf j)

/-- R174: a Master Engine step emits at most one stop, as its last action, and emits one only in the step that retires; a
retiring step emits none exactly when an error flag ended the transaction (T1, T6, T10). -/
def Obligations.StopOnlyAtRetirement : Prop :=
  ∀ (s t : State), s.bulk = none → turnStep .engine s = some (.next t) →
    ∃ l, t.trace = s.trace ++ l ∧ l.length ≤ 1 ∧
      (t.mstate ≠ .idle → stopCount l = 0) ∧
      (t.mstate = .idle → (stopCount l = 0 ↔ (s.mstatus.getLsbD 3 = true ∨ s.mstatus.getLsbD 2 = true)))

/-- R175: the Master Engine's step writes MDATA, MCTRLB, MSTATUS's cleared flags, HBUF, HRES, MSTATE, its transaction, MLAST,
MREQ and TRACE (and the counter of free values, log 3), and nothing else: no ring, IMASK or slave register. MSTATUS is as it
was or has RIF, WIF and CLKHOLD cleared (R144, R146, R147), and HBUF changes only in a read's data phase. -/
def Obligations.EngineWriteSet : Prop :=
  ∀ (s t : State), s.bulk = none → turnStep .engine s = some (.next t) →
    t = { s with
      mdata := t.mdata, mctrlb := t.mctrlb, mstatus := t.mstatus, hbuf := t.hbuf, hres := t.hres,
      mstate := t.mstate, txn := t.txn, mlast := t.mlast, mreq := t.mreq, trace := t.trace, draws := t.draws } ∧
    (t.mstatus = s.mstatus ∨ t.mstatus = s.mstatus &&& 0x1F#8) ∧
    (t.hbuf ≠ s.hbuf → ∃ i x, s.mstate = .dataPhase i ∧ s.txn = some x ∧ x.dir = .r)

/-- The turns of `n` bytes each acknowledged: the BUS's Ack, then the engine's step. -/
def Sys2Proof.ackedRounds : Nat → List Turn
  | 0 => []
  | n + 1 => .answer .ack :: .engine :: ackedRounds n

/-- The turns of read bytes delivered after the first: the BUS's Byte, then the engine's step. -/
def Sys2Proof.byteRounds : List Byte → List Turn
  | [] => []
  | b :: bs => .answer (.byte b) :: .engine :: byteRounds bs

/-- R172, the address-NACK property, for either direction: a start that no device acknowledges returns NoDevice, issues
exactly one stop and transmits no data byte. -/
def Obligations.AddressNackReturnsNoDevice : Prop :=
  ∀ (s : State) (a : BitVec 7) (n : Byte) (i : Instr) (d : Dir) (rest : List Turn),
    s.faulted = none → s.probe = none → s.bulk = none → busy s = false → s.mctrla.getLsbD 0 = true →
    n.toNat ≤ s.cfg.capacity → (i = .msend a n ∧ d = .w ∨ i = .mrecv a n ∧ d = .r) →
    s.schedule = .host (.write 0x00 32 (encode i)) :: .answer .nack :: .engine :: rest →
    ∃ t, runSteps 3 s = .next t ∧
      t.trace = s.trace ++ [.mStart a d, .mStop .nack] ∧ t.hres = 0x00000001#32 ∧
      t.mlast = some (.stopSent (.err .noDevice)) ∧ t.mstate = .idle ∧ t.hbuf = s.hbuf ∧ t.schedule = rest

/-- R161, R163 and the outcome table of R171: a whole write of N bytes, each acknowledged, puts them on the bus in order
between one start and one stop and returns Ok(N). -/
def Obligations.WriteTransactionSendsAllBytes : Prop :=
  ∀ (s : State) (a : BitVec 7) (n : Byte) (bs : List Byte) (rest : List Turn),
    s.faulted = none → s.probe = none → s.bulk = none → busy s = false → s.mctrla.getLsbD 0 = true →
    n.toNat ≤ s.cfg.capacity → bs.length = n.toNat →
    (∀ i (h : i < bs.length), Memory.read hbufBlank s.hbuf i = some bs[i]) →
    s.schedule = .host (.write 0x00 32 (encode (.msend a n))) :: .answer .ackW :: .engine ::
      (ackedRounds n.toNat ++ rest) →
    ∃ t, runSteps (3 + 2 * n.toNat) s = .next t ∧
      t.trace = s.trace ++ [.mStart a .w] ++ bs.map .mTx ++ [.mStop .nack] ∧
      t.hres = 0#16 ++ n ++ 0#8 ∧ t.mlast = some (.stopSent (.ok n.toNat)) ∧ t.mstate = .idle ∧
      t.hbuf = s.hbuf ∧ t.schedule = rest

/-- R173, the partial-NACK property: a write whose byte k (1 to N) is the first not acknowledged returns Busy with count 0;
exactly k bytes were placed on the bus, and one stop follows them. -/
def Obligations.PartialNackPlacesKBytes : Prop :=
  ∀ (s : State) (a : BitVec 7) (n : Byte) (bs : List Byte) (rest : List Turn),
    s.faulted = none → s.probe = none → s.bulk = none → busy s = false → s.mctrla.getLsbD 0 = true →
    n.toNat ≤ s.cfg.capacity → 1 ≤ bs.length → bs.length ≤ n.toNat →
    (∀ i (h : i < bs.length), Memory.read hbufBlank s.hbuf i = some bs[i]) →
    s.schedule = .host (.write 0x00 32 (encode (.msend a n))) :: .answer .ackW :: .engine ::
      (ackedRounds (bs.length - 1) ++ .answer .nack :: .engine :: rest) →
    ∃ t, runSteps (3 + 2 * bs.length) s = .next t ∧
      t.trace = s.trace ++ [.mStart a .w] ++ bs.map .mTx ++ [.mStop .nack] ∧
      t.hres = 0x00000002#32 ∧ t.mlast = some (.stopSent (.err .busy)) ∧ t.mstate = .idle ∧
      t.hbuf = s.hbuf ∧ t.schedule = rest

/-- R165, R166: a whole read of N >= 1 bytes stores them in HBUF[0..N-1] in order, every other entry keeping its value,
with exactly N - 1 continues and one stop, and returns Ok(N). -/
def Obligations.ReadTransactionStoresAllBytes : Prop :=
  ∀ (s : State) (a : BitVec 7) (n : Byte) (b : Byte) (bs : List Byte) (rest : List Turn),
    s.faulted = none → s.probe = none → s.bulk = none → busy s = false → s.mctrla.getLsbD 0 = true →
    Memory.wf hbufBlank s.hbuf = true → n.toNat ≤ s.cfg.capacity → (b :: bs).length = n.toNat →
    s.schedule = .host (.write 0x00 32 (encode (.mrecv a n))) :: .answer (.ackR b) :: .engine :: .engine ::
      (byteRounds bs ++ rest) →
    ∃ t, runSteps (4 + 2 * bs.length) s = .next t ∧
      t.trace = s.trace ++ [.mStart a .r] ++ List.replicate bs.length (.mRecvNext .ack) ++ [.mStop .nack] ∧
      t.hres = 0#16 ++ n ++ 0#8 ∧ t.mlast = some (.stopSent (.ok n.toNat)) ∧ t.mstate = .idle ∧
      (∀ i (h : i < (b :: bs).length), Memory.read hbufBlank t.hbuf i = some (b :: bs)[i]) ∧
      (∀ i, n.toNat ≤ i → Memory.read hbufBlank t.hbuf i = Memory.read hbufBlank s.hbuf i) ∧
      t.schedule = rest

/-- R149, R272: while the engine holds, no turn but a BUS answer ends the hold, whether the turn is listed or drawn; BUSY
stays 1. -/
def Obligations.OnlyAnAnswerLiftsTheHold : Prop :=
  ∀ (s : State) (k : Turn),
    s.faulted = none → s.probe = none → s.bulk = none → busy s = true → s.mstate ≠ .idle →
    turnStep .engine s = none → turnTaken s = some k → (∀ a, k ≠ .answer a) →
    ∃ t, step s = .next t ∧ busy t = true ∧ t.mstate = s.mstate ∧ t.txn = s.txn ∧ t.mstatus = s.mstatus ∧
      t.mreq = s.mreq ∧ turnStep .engine t = none

/-! ### The bus environment -/

/-- R150, the whole answer table: each admitted answer's effect, that it clears MREQ, that nothing else changes, and that
no other answer is a step. -/
def Obligations.BusAnswersMaster : Prop :=
  ∀ (s : State),
    (s.mreq = .addr .w → turnStep (.answer .ackW) s =
      some (.next { s with mreq := .none, mstatus := (s.mstatus ||| 0x40#8) &&& 0xEF#8 })) ∧
    (∀ b, s.mreq = .addr .r → turnStep (.answer (.ackR b)) s =
      some (.next { s with mreq := .none, mdata := b, mstatus := (s.mstatus ||| 0xA0#8) &&& 0xEF#8 })) ∧
    (s.mreq = .tx → turnStep (.answer .ack) s =
      some (.next { s with mreq := .none, mstatus := (s.mstatus ||| 0x40#8) &&& 0xEF#8 })) ∧
    (s.mreq = .addr .w ∨ s.mreq = .addr .r ∨ s.mreq = .tx → turnStep (.answer .nack) s =
      some (.next { s with mreq := .none, mstatus := s.mstatus ||| 0x50#8 })) ∧
    (∀ b, s.mreq = .recvNext → turnStep (.answer (.byte b)) s =
      some (.next { s with mreq := .none, mdata := b, mstatus := s.mstatus ||| 0xA0#8 })) ∧
    (s.mreq ≠ .none →
      turnStep (.answer (.lostArb true)) s =
        some (.next { s with mreq := .none, mstatus := s.mstatus ||| 0x58#8 }) ∧
      turnStep (.answer (.lostArb false)) s =
        some (.next { s with mreq := .none, mstatus := (s.mstatus ||| 0x48#8) &&& 0xEF#8 }) ∧
      turnStep (.answer (.lostBus true)) s =
        some (.next { s with mreq := .none, mstatus := s.mstatus ||| 0x54#8 }) ∧
      turnStep (.answer (.lostBus false)) s =
        some (.next { s with mreq := .none, mstatus := (s.mstatus ||| 0x44#8) &&& 0xEF#8 })) ∧
    (s.mreq ≠ .addr .w → turnStep (.answer .ackW) s = none) ∧
    (∀ b, s.mreq ≠ .addr .r → turnStep (.answer (.ackR b)) s = none) ∧
    (s.mreq ≠ .tx → turnStep (.answer .ack) s = none) ∧
    (∀ b, s.mreq ≠ .recvNext → turnStep (.answer (.byte b)) s = none) ∧
    (s.mreq = .recvNext → turnStep (.answer .nack) s = none) ∧
    (s.mreq = .none → ∀ a, turnStep (.answer a) s = none)

/-- R181, R182: when the BUS may raise a slave event, what each event does, that nothing else changes, and that no event is
a step otherwise. -/
def Obligations.BusRaisesSlaveEvents : Prop :=
  ∀ (s : State),
    (s.sctrla.getLsbD 0 = true → s.sstatus.getLsbD 7 = false → s.sstatus.getLsbD 6 = false →
      s.sstatus.getLsbD 5 = false →
      (∀ a, a = s.saddr.extractLsb' 1 7 →
        turnStep (.event (.addressByte a .w)) s =
          some (.next { s with sstatus := (s.sstatus ||| 0x61#8) &&& 0xF5#8, sphase := .addressed .w }) ∧
        turnStep (.event (.addressByte a .r)) s =
          some (.next { s with sstatus := (s.sstatus ||| 0x63#8) &&& 0xF7#8, sphase := .addressed .r })) ∧
      (∀ a d, a ≠ s.saddr.extractLsb' 1 7 → turnStep (.event (.addressByte a d)) s = none) ∧
      turnStep (.event .stop) s =
        some (.next { s with sstatus := (s.sstatus ||| 0x40#8) &&& 0xFE#8, sphase := .idle }) ∧
      (s.sphase ≠ .idle → turnStep (.event .collision) s =
        some (.next { s with sstatus := (s.sstatus ||| 0x48#8) &&& 0xFE#8, sphase := .idle })) ∧
      (s.sphase = .idle → turnStep (.event .collision) s = none) ∧
      (∀ b, s.sphase = .active .w → turnStep (.event (.dataRx b)) s =
        some (.next { s with sdata := b, sstatus := (s.sstatus ||| 0xA0#8) &&& 0xFD#8 })) ∧
      (∀ b, s.sphase ≠ .active .w → turnStep (.event (.dataRx b)) s = none) ∧
      (s.sphase = .active .r → turnStep (.event .dataTxReq) s =
        some (.next { s with sstatus := s.sstatus ||| 0xA2#8 })) ∧
      (s.sphase ≠ .active .r → turnStep (.event .dataTxReq) s = none)) ∧
    (s.sctrla.getLsbD 0 = false ∨ s.sstatus.getLsbD 7 = true ∨ s.sstatus.getLsbD 6 = true ∨
      s.sstatus.getLsbD 5 = true → ∀ e, turnStep (.event e) s = none)

/-! ### The Slave Engine -/

/-- R184, R240: the interrupt is taken exactly when IMASK = 0 and SIRQ, written out by its bits, is raised. -/
def Obligations.InterruptTakenExactlyOnRequest : Prop :=
  ∀ (s : State),
    (turnStep .isr s ≠ none ↔
      s.imask = false ∧ s.sctrla.getLsbD 0 = true ∧
      ((s.sstatus.getLsbD 7 = true ∧ s.sctrla.getLsbD 1 = true) ∨
       (s.sstatus.getLsbD 6 = true ∧ s.sstatus.getLsbD 0 = true ∧ s.sctrla.getLsbD 2 = true) ∨
       (s.sstatus.getLsbD 6 = true ∧ s.sstatus.getLsbD 0 = false ∧ s.sctrla.getLsbD 3 = true)))

/-- R185, R191, the transmit branch: the oldest byte of TX is presented with ACK, or the empty ring gives NACK and Ending
with SDATA kept. -/
def Obligations.HandlerTransmits : Prop :=
  ∀ (s : State) (d : Dir),
    isrEnabled s = true → s.sstatus.getLsbD 7 = true → s.sstatus.getLsbD 1 = true → s.sphase = .active d →
    (0 < s.tx.length → turnStep .isr s = some (.next { s with
      tx := { s.tx with head := (s.tx.head + 1) % s.cfg.capacity, length := s.tx.length - 1 }
      sdata := ringCell s.tx.store s.tx.head
      sctrlb := 0x00#8, sstatus := s.sstatus &&& 0x1F#8, sphase := .active d
      trace := s.trace ++ [.sResponse .ack (some (ringCell s.tx.store s.tx.head))] })) ∧
    (s.tx.length = 0 → turnStep .isr s = some (.next { s with
      sctrlb := 0x04#8, sstatus := s.sstatus &&& 0x1F#8, sphase := .ending
      trace := s.trace ++ [.sResponse .nack none] }))

/-- R185, R192, the receive branch: the byte in SDATA becomes RX's newest with ACK, or the full ring gives NACK and the byte
is dropped. RX's store is told by its cells. -/
def Obligations.HandlerReceives : Prop :=
  ∀ (s : State) (d : Dir),
    isrEnabled s = true → s.sstatus.getLsbD 7 = true → s.sstatus.getLsbD 1 = false → s.sphase = .active d →
    Memory.wf ringBlank s.rx.store = true →
    (s.rx.length ≠ s.cfg.capacity → ∃ t, turnStep .isr s = some (.next t) ∧
      t = { s with
        rx := { s.rx with store := t.rx.store, length := s.rx.length + 1 }
        sctrlb := 0x00#8, sstatus := s.sstatus &&& 0x1F#8, sphase := .active d
        trace := s.trace ++ [.sResponse .ack none] } ∧
      ringCell t.rx.store ((s.rx.head + s.rx.length) % s.cfg.capacity) = s.sdata ∧
      (∀ j, j ≠ (s.rx.head + s.rx.length) % s.cfg.capacity → ringCell t.rx.store j = ringCell s.rx.store j)) ∧
    (s.rx.length = s.cfg.capacity → turnStep .isr s = some (.next { s with
      sctrlb := 0x04#8, sstatus := s.sstatus &&& 0x1F#8, sphase := .ending
      trace := s.trace ++ [.sResponse .nack none] }))

/-- R185, R193, the address/stop branch: an address match is answered ACK and touches no ring; anything else completes the
transaction with NACK. -/
def Obligations.HandlerAnswersAddressAndStop : Prop :=
  ∀ (s : State),
    isrEnabled s = true → s.sstatus.getLsbD 7 = false → s.sstatus.getLsbD 6 = true →
    (∀ d, s.sstatus.getLsbD 0 = true → s.sstatus.getLsbD 3 = false → s.sphase = .addressed d →
      turnStep .isr s = some (.next { s with
        sctrlb := 0x00#8, sstatus := s.sstatus &&& 0x1F#8, sphase := .active d
        trace := s.trace ++ [.sResponse .ack none] })) ∧
    (s.sstatus.getLsbD 0 = false ∨ s.sstatus.getLsbD 3 = true →
      turnStep .isr s = some (.next { s with
        sctrlb := 0x04#8, sstatus := s.sstatus &&& 0x1F#8, sphase := .idle
        trace := s.trace ++ [.sComplete .nack] }))

/-- R195: an invocation of the handler writes SDATA, SCTRLB, SSTATUS's cleared flags, SPHASE, the rings and TRACE, and
nothing else: no HRES field, no host-visible state, no Master Engine state. -/
def Obligations.HandlerWriteSet : Prop :=
  ∀ (s t : State), turnStep .isr s = some (.next t) →
    t = { s with
      tx := t.tx, rx := t.rx, sdata := t.sdata, sctrlb := t.sctrlb, sstatus := t.sstatus, sphase := t.sphase,
      trace := t.trace } ∧
    t.sstatus = s.sstatus &&& 0x1F#8 ∧ t.tx.store = s.tx.store ∧ t.rx.head = s.rx.head

/-- R44, R181: a pending slave condition is neither lost nor doubled: a step that is not the handler's leaves SSTATUS, SDATA
and SPHASE as they are, and the request raised if it was. -/
def Obligations.PendingConditionWaitsForTheHandler : Prop :=
  ∀ (s t : State), s.probe = none → unmasked s = true →
    (s.sstatus.getLsbD 7 = true ∨ s.sstatus.getLsbD 6 = true) → turnTaken s ≠ some .isr → step s = .next t →
    t.sstatus = s.sstatus ∧ t.sdata = s.sdata ∧ t.sphase = s.sphase ∧ (isrEnabled s = true → isrEnabled t = true)

/-- The turns of a transmit in which the remote master asks for `n` bytes and each request is served. -/
def Sys2Proof.requestRounds : Nat → List Turn
  | 0 => []
  | n + 1 => .event .dataTxReq :: .isr :: requestRounds n

/-- The turns of a receive of the given bytes, each served. -/
def Sys2Proof.deliverRounds : List Byte → List Turn
  | [] => []
  | b :: bs => .event (.dataRx b) :: .isr :: deliverRounds bs

/-- A slave that is enabled, unmasked, idle and with nothing pending. -/
def Sys2Proof.slaveReady (s : State) : Prop :=
  s.faulted = none ∧ s.probe = none ∧ s.imask = false ∧ s.sctrla = 0x0F#8 ∧
  s.sstatus.getLsbD 7 = false ∧ s.sstatus.getLsbD 6 = false ∧ s.sstatus.getLsbD 5 = false

/-- R196, the underflow scenario for any number of enqueued bytes: a remote master that reads past them is answered ACK for
the address and for each byte in FIFO order, then NACK, and no later request is a step. -/
def Obligations.UnderflowShortensTheTransaction : Prop :=
  ∀ (s : State) (rest : List Turn),
    slaveReady s → s.tx.head < s.cfg.capacity → s.tx.length ≤ s.cfg.capacity →
    s.schedule = .event (.addressByte (s.saddr.extractLsb' 1 7) .r) :: .isr ::
      (requestRounds (s.tx.length + 1) ++ rest) →
    ∃ t, runSteps (2 + 2 * (s.tx.length + 1)) s = .next t ∧
      t.trace = s.trace ++ [.sResponse .ack none] ++
        (s.tx.bytes s.cfg.capacity).map (fun b => .sResponse .ack (some b)) ++ [.sResponse .nack none] ∧
      t.tx.length = 0 ∧ t.sphase = .ending ∧ turnStep (.event .dataTxReq) t = none ∧ t.schedule = rest

/-- R197, overflow: of the bytes a remote master writes, the first C - L are ACKed and stored, the next is NACKed and
dropped, and no later byte is delivered. -/
def Obligations.OverflowDropsTheByte : Prop :=
  ∀ (s : State) (bs : List Byte) (x : Byte) (rest : List Turn),
    slaveReady s → s.rx.head < s.cfg.capacity → s.rx.length + bs.length = s.cfg.capacity →
    Memory.wf ringBlank s.rx.store = true →
    s.schedule = .event (.addressByte (s.saddr.extractLsb' 1 7) .w) :: .isr ::
      (deliverRounds (bs ++ [x]) ++ rest) →
    ∃ t, runSteps (2 + 2 * (bs.length + 1)) s = .next t ∧
      t.rx.bytes s.cfg.capacity = s.rx.bytes s.cfg.capacity ++ bs ∧
      t.trace = s.trace ++ List.replicate (1 + bs.length) (.sResponse .ack none) ++ [.sResponse .nack none] ∧
      t.sphase = .ending ∧ (∀ y, turnStep (.event (.dataRx y)) t = none) ∧ t.schedule = rest

/-- R240's fairness: in a run that is fair to the handler, an enabled request is taken at some later step, still raised
(R198). -/
def Obligations.FairRunServesTheRequest : Prop :=
  ∀ (run : Nat → State) (n : Nat),
    IsRun run → WeaklyFair run → (∀ m, (run m).probe = none ∧ unmasked (run m) = true) →
    isrEnabled (run n) = true →
    ∃ m, n ≤ m ∧ turnTaken (run m) = some .isr ∧ isrEnabled (run m) = true

/-! ### Rings and baud -/

/-- R100, R101, R103, the FIFO law: an accepted write appends the byte, a full ring refuses it unchanged (NoMemory), a read
takes the oldest byte, an empty ring gives NoData. -/
def Obligations.RingIsFifo : Prop :=
  ∀ (c : Nat) (r : Ring) (b : Byte), r.head < c → r.length ≤ c → Memory.wf ringBlank r.store = true →
    (r.length < c → ∃ q, r.write c b = .ok q ∧ q.head = r.head ∧ q.length = r.length + 1 ∧
      ringCell q.store ((r.head + r.length) % c) = b ∧
      (∀ j, j ≠ (r.head + r.length) % c → ringCell q.store j = ringCell r.store j) ∧
      q.bytes c = r.bytes c ++ [b]) ∧
    (r.length = c → r.write c b = .error .noMemory) ∧
    (0 < r.length → ∃ x q, r.read c = .ok (x, q) ∧ q.store = r.store ∧ q.head = (r.head + 1) % c ∧
      q.length = r.length - 1 ∧ r.bytes c = x :: q.bytes c) ∧
    (r.length = 0 → r.read c = .error .noData)

/-- R120, R122, R123, R126: the divisor is one of two values, modulo 256: the step-1 value when the estimate reaches the
mode's threshold, else the corrected value, which does not depend on the frequency. Division truncates toward zero. -/
def Obligations.BaudHasOneCorrectionPath : Prop :=
  ∀ (f clock : Nat) (m : BusMode), 0 < f → 0 < clock →
    ∃ thr : Int, thr = (match m with | .standard => 47 | .fast => 13 | .fastPlus => 5) ∧
      (thr ≤ Int.tdiv ((Int.tdiv clock f - 10 + 5) * 10000000) clock →
        ((computeBaud f m clock).toNat : Int) = (Int.tdiv clock f - 10) % 256) ∧
      (Int.tdiv ((Int.tdiv clock f - 10 + 5) * 10000000) clock < thr →
        ((computeBaud f m clock).toNat : Int) = (Int.tdiv (clock * thr) 10000000 - 5) % 256)

/-- R128: the estimate of a corrected divisor is at most the threshold, and strictly less unless SCALE divides
`bus_clock_hz * THR`. -/
def Obligations.CorrectedEstimateIsBelowThreshold : Prop :=
  ∀ (clock : Nat) (m : BusMode), 0 < clock →
    baudLowScaled (baudCorrected m clock) clock ≤ baudThreshold m ∧
    (¬ ((10000000 : Int) ∣ clock * baudThreshold m) →
      baudLowScaled (baudCorrected m clock) clock < baudThreshold m)

/-! ### Invariants every step keeps, and reset -/

/-- R50, R260: the value of every piece of state right after reset. HBUF holds no value (R49). HCMD is told by a host read of
it, which gives 0 (R22); that the read hands it back in State.result is the model's choice (DESIGN CHOICE, log 5). -/
def Obligations.ResetValues : Prop :=
  hostAccess (.read 0x00 32) State.reset = .next { State.reset with result := 0#32 } ∧
  State.reset.harg = 0#32 ∧ State.reset.hres = 0#32 ∧ (∀ i, Memory.read hbufBlank State.reset.hbuf i = none) ∧
  (∀ r : PReg, pregRead State.reset r = 0x00#8) ∧
  State.reset.mstate = .idle ∧ State.reset.txn = none ∧ State.reset.mlast = none ∧
  (∀ id : RingId, (ring State.reset id).head = 0 ∧ (ring State.reset id).length = 0 ∧
    ∀ i, ringCell (ring State.reset id).store i = 0x00#8) ∧
  State.reset.imask = false ∧ State.reset.trace = [] ∧ State.reset.mreq = .none ∧ State.reset.sphase = .idle ∧
  State.reset.refused = none ∧ State.reset.faulted = none

/-- The invariants below hold right after reset. -/
def Obligations.InvariantsHoldAtReset : Prop :=
  launched State.reset = true ∧ ringsInRange State.reset = true ∧ storageCanonical State.reset = true ∧
  masterInvariant State.reset = true ∧ slaveInvariant State.reset = true ∧ registersLegal State.reset = true ∧
  enablesTogether State.reset = true ∧ unmasked State.reset = true ∧ noProbe State.reset = true

/-- R107, R109: every step keeps both rings in range, bracketed or not. -/
def Obligations.StepKeepsRingsInRange : Prop :=
  ∀ (s t : State), noProbe s = true → ringsInRange s = true → step s = .next t → ringsInRange t = true

/-- Every step keeps every storage space in its canonical form. -/
def Obligations.StepKeepsStorageCanonical : Prop :=
  ∀ (s t : State), noProbe s = true → storageCanonical s = true → step s = .next t → storageCanonical t = true

/-- R39, R142, R264: every step keeps the Master Engine's invariant. -/
def Obligations.StepKeepsMasterInvariant : Prop :=
  ∀ (s t : State), noProbe s = true → masterInvariant s = true → step s = .next t → masterInvariant t = true

/-- R181, R183: every step keeps the slave's invariant: at most one condition pending, in its phase. -/
def Obligations.StepKeepsSlaveInvariant : Prop :=
  ∀ (s t : State), noProbe s = true → slaveInvariant s = true → step s = .next t → slaveInvariant t = true

/-- R24, R28 to R37, R230: every step keeps the reserved bits 0, MODE legal and STATUS one of the codes that reach HRES. -/
def Obligations.StepKeepsRegistersLegal : Prop :=
  ∀ (s t : State), registersLegal s = true → step s = .next t → registersLegal t = true

/-- R216, R184, R236: every step leaves IMASK 0, the slave's enables set together, no lone access, and the parameters as they
were. -/
def Obligations.StepKeepsMaskEnablesAndParameters : Prop :=
  ∀ (s t : State), noProbe s = true → unmasked s = true → enablesTogether s = true → step s = .next t →
    noProbe t = true ∧ unmasked t = true ∧ enablesTogether t = true ∧ t.cfg = s.cfg

/-- R45, R234, R235: no step takes an action out of TRACE, and the marks are never cleared. -/
def Obligations.TraceAndMarksOnlyGrow : Prop :=
  ∀ (s t : State), step s = .next t →
    (∃ l, t.trace = s.trace ++ l) ∧ (∀ r, s.refused = some r → t.refused = some r) ∧ s.faulted = none

/-! ### The hazard harness -/

/-- R109, the lost byte, for any ring with room: a handler's write between r3 and r4 of an un-bracketed drain is ACKed,
stored, and then lost from the count. -/
def Obligations.UnbracketedDrainLosesAByte : Prop :=
  ∀ (s : State) (n k l : Nat) (rest : List Turn),
    s.faulted = none → s.probe = none → s.imask = false → s.sctrla = 0x0F#8 →
    s.sstatus.getLsbD 7 = true → s.sstatus.getLsbD 1 = false → s.sphase = .active .w →
    s.bulk = some { n := n, k := k, pos := .r1 } → s.rx.length = l → 0 < l → l < s.cfg.capacity →
    Memory.wf ringBlank s.rx.store = true →
    s.schedule = .engine :: .engine :: .engine :: .isr :: .engine :: .engine :: rest →
    ∃ t, runSteps 6 s = .next t ∧
      t.trace = s.trace ++ [.sResponse .ack none] ∧
      ringCell t.rx.store ((s.rx.head + l) % s.cfg.capacity) = s.sdata ∧
      t.rx.head = (s.rx.head + 1) % s.cfg.capacity ∧ t.rx.length = l - 1

/-- R109, the phantom byte: a handler's read between w2 and w3 of an un-bracketed enqueue leaves TX one byte longer than
what it holds. -/
def Obligations.UnbracketedEnqueueClaimsAPhantom : Prop :=
  ∀ (s : State) (n k l : Nat) (b : Byte) (rest : List Turn),
    s.faulted = none → s.probe = none → s.imask = false → s.sctrla = 0x0F#8 →
    s.sstatus.getLsbD 7 = true → s.sstatus.getLsbD 1 = true → s.sphase = .active .r →
    s.bulk = some { n := n, k := k, pos := .w1 } → s.tx.length = l → 0 < l → l < s.cfg.capacity →
    Memory.wf ringBlank s.tx.store = true → Memory.read hbufBlank s.hbuf k = some b →
    s.schedule = .engine :: .engine :: .isr :: .engine :: .engine :: rest →
    ∃ t, runSteps 5 s = .next t ∧
      t.trace = s.trace ++ [.sResponse .ack (some (ringCell s.tx.store s.tx.head))] ∧
      t.tx.head = (s.tx.head + 1) % s.cfg.capacity ∧ t.tx.length = l + 1 ∧
      ringCell t.tx.store ((s.tx.head + l) % s.cfg.capacity) = b

/-- R217, R218, R219: with no other agent's step between its micro-steps, an un-bracketed SENQ or SDRAIN leaves exactly the
state the bracketed one leaves. The turns left over after its last micro-step change nothing. -/
def Obligations.UndisturbedLoopMatchesBracketed : Prop :=
  ∀ (s t : State) (i : Instr) (n : Byte) (rest : List Turn),
    s.faulted = none → s.probe = none → s.bulk = none → s.mstate = .idle → busy s = false →
    s.cfg.bracket = false → ringsInRange s = true → (i = .senq n ∨ i = .sdrain n) →
    s.schedule = .host (.write 0x00 32 (encode i)) :: (List.replicate (5 * n.toNat + 2) .engine ++ rest) →
    exec i { s with cfg := { s.cfg with bracket := true } } = .next t →
    runSteps (5 * n.toNat + 3) s = .next { t with cfg := s.cfg, schedule := rest }
end

