-- ==== Sys2Proof/Laws/Memory.lean ====
section
/-! SUPPORT. The laws of a storage space: a read after a write, and that a write keeps the canonical form and the bound
on its addresses. -/

namespace Sys2Proof.Machine

/-- Below every listed address, a cell reads as unlisted. -/
theorem Memory.read_of_lt {blank : Option Byte} {m : Memory} {lo a : Nat} (h : Memory.wfFrom blank lo m = true)
    (ha : a < lo) : Memory.read blank m a = blank := by
  induction m generalizing lo with
  | nil => rfl
  | cons cell m ih =>
    obtain ⟨k, v⟩ := cell
    simp only [Memory.wfFrom, Bool.and_eq_true, decide_eq_true_eq] at h
    have hne : a ≠ k := by omega
    simp only [Memory.read, if_neg hne]
    exact ih h.2 (by omega)

/-- A read after a write to the same cell gives the byte written. -/
theorem Memory.read_write_same {blank : Option Byte} {m : Memory} {lo : Nat} (a : Nat) (b : Byte)
    (h : Memory.wfFrom blank lo m = true) : Memory.read blank (Memory.write blank m a b) a = some b := by
  induction m generalizing lo with
  | nil => by_cases hb : blank = some b <;> simp [Memory.write, Memory.read, hb]
  | cons cell m ih =>
    obtain ⟨k, v⟩ := cell
    simp only [Memory.wfFrom, Bool.and_eq_true, decide_eq_true_eq] at h
    have tail : a < k + 1 → Memory.read blank m a = blank := Memory.read_of_lt h.2
    by_cases h1 : a < k
    · have hne : a ≠ k := by omega
      by_cases hb : blank = some b
      · simp [Memory.write, h1, hb, Memory.read, hne]
        simpa [hb] using tail (by omega)
      · simp [Memory.write, h1, hb, Memory.read]
    · by_cases h2 : a = k
      · subst h2
        by_cases hb : blank = some b
        · simp [Memory.write, hb]
          simpa [hb] using tail (by omega)
        · simp [Memory.write, hb, Memory.read]
      · simp [Memory.write, h1, h2, Memory.read, ih h.2]

/-- A write leaves every other cell alone. -/
theorem Memory.read_write_other {blank : Option Byte} {m : Memory} {lo : Nat} {a a' : Nat} (b : Byte)
    (h : Memory.wfFrom blank lo m = true) (hne : a' ≠ a) :
    Memory.read blank (Memory.write blank m a b) a' = Memory.read blank m a' := by
  induction m generalizing lo with
  | nil => by_cases hb : blank = some b <;> simp [Memory.write, Memory.read, hb, hne]
  | cons cell m ih =>
    obtain ⟨k, v⟩ := cell
    simp only [Memory.wfFrom, Bool.and_eq_true, decide_eq_true_eq] at h
    have tail : a' < k + 1 → Memory.read blank m a' = blank := Memory.read_of_lt h.2
    by_cases h1 : a < k
    · by_cases hb : blank = some b <;> simp [Memory.write, h1, hb, Memory.read, hne]
    · by_cases h2 : a = k
      · subst h2
        by_cases hb : blank = some b <;> simp [Memory.write, hb, Memory.read, hne]
      · simp [Memory.write, h1, h2, Memory.read, ih h.2]

/-- A write of an address at or above the lower bound keeps the canonical form above that bound. -/
theorem Memory.wfFrom_write {blank : Option Byte} {m : Memory} {lo : Nat} (a : Nat) (b : Byte)
    (h : Memory.wfFrom blank lo m = true) (ha : lo ≤ a) :
    Memory.wfFrom blank lo (Memory.write blank m a b) = true := by
  induction m generalizing lo with
  | nil => by_cases hb : blank = some b <;> simp [Memory.write, Memory.wfFrom, hb, ha]
  | cons cell m ih =>
    obtain ⟨k, v⟩ := cell
    have h' := h
    simp only [Memory.wfFrom, Bool.and_eq_true, decide_eq_true_eq] at h
    have weaken : ∀ {l : Memory} {p q : Nat}, q ≤ p → Memory.wfFrom blank p l = true →
        Memory.wfFrom blank q l = true := by
      intro l p q hpq hl
      cases l with
      | nil => rfl
      | cons c t =>
        simp only [Memory.wfFrom, Bool.and_eq_true, decide_eq_true_eq] at hl ⊢
        exact ⟨⟨by omega, hl.1.2⟩, hl.2⟩
    by_cases h1 : a < k
    · by_cases hb : blank = some b
      · simpa [Memory.write, h1, hb] using by simpa [hb] using h'
      · simp only [Memory.write, h1, if_true, hb, if_false, Memory.wfFrom, Bool.and_eq_true, decide_eq_true_eq]
        exact ⟨⟨ha, hb⟩, ⟨⟨by omega, h.1.2⟩, h.2⟩⟩
    · by_cases h2 : a = k
      · subst h2
        by_cases hb : blank = some b
        · simp only [Memory.write, lt_irrefl, if_false, if_true, hb]
          exact hb ▸ weaken (Nat.le_succ_of_le ha) h.2
        · simp only [Memory.write, lt_irrefl, if_false, if_true, hb, Memory.wfFrom, Bool.and_eq_true,
            decide_eq_true_eq]
          exact ⟨⟨ha, hb⟩, h.2⟩
      · simp only [Memory.write, h1, h2, if_false, Memory.wfFrom, Bool.and_eq_true, decide_eq_true_eq]
        exact ⟨h.1, ih h.2 (by omega)⟩

/-- A write keeps the canonical form. -/
theorem Memory.wf_write {blank : Option Byte} {m : Memory} (a : Nat) (b : Byte) (h : Memory.wf blank m = true) :
    Memory.wf blank (Memory.write blank m a b) = true :=
  Memory.wfFrom_write a b h (Nat.zero_le a)

/-- A write below `c` keeps every listed address below `c`. -/
theorem Memory.below_write {blank : Option Byte} {m : Memory} {c : Nat} (a : Nat) (b : Byte)
    (h : Memory.below c m = true) (ha : a < c) : Memory.below c (Memory.write blank m a b) = true := by
  induction m with
  | nil => by_cases hb : blank = some b <;> simp [Memory.write, Memory.below, hb, ha]
  | cons cell m ih =>
    obtain ⟨k, v⟩ := cell
    have hk : k < c ∧ Memory.below c m = true := by simpa [Memory.below] using h
    have ih' := ih hk.2
    have cons : ∀ (x : Nat) (y : Byte) (l : Memory), x < c → Memory.below c l = true →
        Memory.below c ((x, y) :: l) = true := by
      intro x y l hx hl
      simpa [Memory.below, hx] using hl
    by_cases h1 : a < k
    · by_cases hb : blank = some b
      · simpa only [Memory.write, h1, hb, if_true] using h
      · simpa only [Memory.write, h1, hb, if_true, if_false] using cons _ _ _ ha h
    · by_cases h2 : a = k
      · by_cases hb : blank = some b
        · simpa only [Memory.write, h1, h2, hb, if_true, if_false, lt_irrefl] using hk.2
        · simpa only [Memory.write, h1, h2, hb, if_true, if_false, lt_irrefl] using cons _ _ _ (h2 ▸ ha) hk.2
      · simpa only [Memory.write, h1, h2, if_false] using cons _ _ _ hk.1 ih'

/-- A ring cell just written. -/
theorem ringCell_write_same {m : Memory} (i : Nat) (b : Byte) (h : Memory.wf ringBlank m = true) :
    ringCell (Memory.write ringBlank m i b) i = b := by
  simp [ringCell, Memory.read_write_same i b h]

/-- A ring cell elsewhere. -/
theorem ringCell_write_other {m : Memory} {i j : Nat} (b : Byte) (h : Memory.wf ringBlank m = true) (hne : j ≠ i) :
    ringCell (Memory.write ringBlank m i b) j = ringCell m j := by
  simp [ringCell, Memory.read_write_other b h hne]

end Sys2Proof.Machine
end

