-- ==== Sys2Proof/Laws/State.lean ====
section
/-! SUPPORT. What each named state operation leaves in each field: true by rfl, for simp, so that no proof unfolds a
record update. -/

namespace Sys2Proof.Machine

/-! ### emit -/

@[simp] theorem emit_harg (a : BusAction) (s : State) : (emit a s).harg = s.harg := rfl
@[simp] theorem emit_hres (a : BusAction) (s : State) : (emit a s).hres = s.hres := rfl
@[simp] theorem emit_hbuf (a : BusAction) (s : State) : (emit a s).hbuf = s.hbuf := rfl
@[simp] theorem emit_mctrla (a : BusAction) (s : State) : (emit a s).mctrla = s.mctrla := rfl
@[simp] theorem emit_mctrlb (a : BusAction) (s : State) : (emit a s).mctrlb = s.mctrlb := rfl
@[simp] theorem emit_mstatus (a : BusAction) (s : State) : (emit a s).mstatus = s.mstatus := rfl
@[simp] theorem emit_mbaud (a : BusAction) (s : State) : (emit a s).mbaud = s.mbaud := rfl
@[simp] theorem emit_maddr (a : BusAction) (s : State) : (emit a s).maddr = s.maddr := rfl
@[simp] theorem emit_mdata (a : BusAction) (s : State) : (emit a s).mdata = s.mdata := rfl
@[simp] theorem emit_sctrla (a : BusAction) (s : State) : (emit a s).sctrla = s.sctrla := rfl
@[simp] theorem emit_sctrlb (a : BusAction) (s : State) : (emit a s).sctrlb = s.sctrlb := rfl
@[simp] theorem emit_sstatus (a : BusAction) (s : State) : (emit a s).sstatus = s.sstatus := rfl
@[simp] theorem emit_saddr (a : BusAction) (s : State) : (emit a s).saddr = s.saddr := rfl
@[simp] theorem emit_sdata (a : BusAction) (s : State) : (emit a s).sdata = s.sdata := rfl
@[simp] theorem emit_mstate (a : BusAction) (s : State) : (emit a s).mstate = s.mstate := rfl
@[simp] theorem emit_txn (a : BusAction) (s : State) : (emit a s).txn = s.txn := rfl
@[simp] theorem emit_mlast (a : BusAction) (s : State) : (emit a s).mlast = s.mlast := rfl
@[simp] theorem emit_tx (a : BusAction) (s : State) : (emit a s).tx = s.tx := rfl
@[simp] theorem emit_rx (a : BusAction) (s : State) : (emit a s).rx = s.rx := rfl
@[simp] theorem emit_imask (a : BusAction) (s : State) : (emit a s).imask = s.imask := rfl
@[simp] theorem emit_trace (a : BusAction) (s : State) : (emit a s).trace = s.trace ++ [a] := rfl
@[simp] theorem emit_mreq (a : BusAction) (s : State) : (emit a s).mreq = s.mreq := rfl
@[simp] theorem emit_sphase (a : BusAction) (s : State) : (emit a s).sphase = s.sphase := rfl
@[simp] theorem emit_refused (a : BusAction) (s : State) : (emit a s).refused = s.refused := rfl
@[simp] theorem emit_faulted (a : BusAction) (s : State) : (emit a s).faulted = s.faulted := rfl
@[simp] theorem emit_bulk (a : BusAction) (s : State) : (emit a s).bulk = s.bulk := rfl
@[simp] theorem emit_cfg (a : BusAction) (s : State) : (emit a s).cfg = s.cfg := rfl
@[simp] theorem emit_schedule (a : BusAction) (s : State) : (emit a s).schedule = s.schedule := rfl
@[simp] theorem emit_probe (a : BusAction) (s : State) : (emit a s).probe = s.probe := rfl
@[simp] theorem emit_draws (a : BusAction) (s : State) : (emit a s).draws = s.draws := rfl
@[simp] theorem emit_result (a : BusAction) (s : State) : (emit a s).result = s.result := rfl

/-! ### handBack -/

@[simp] theorem handBack_harg (v : Word) (s : State) : (handBack v s).harg = s.harg := rfl
@[simp] theorem handBack_hres (v : Word) (s : State) : (handBack v s).hres = s.hres := rfl
@[simp] theorem handBack_hbuf (v : Word) (s : State) : (handBack v s).hbuf = s.hbuf := rfl
@[simp] theorem handBack_mctrla (v : Word) (s : State) : (handBack v s).mctrla = s.mctrla := rfl
@[simp] theorem handBack_mctrlb (v : Word) (s : State) : (handBack v s).mctrlb = s.mctrlb := rfl
@[simp] theorem handBack_mstatus (v : Word) (s : State) : (handBack v s).mstatus = s.mstatus := rfl
@[simp] theorem handBack_mbaud (v : Word) (s : State) : (handBack v s).mbaud = s.mbaud := rfl
@[simp] theorem handBack_maddr (v : Word) (s : State) : (handBack v s).maddr = s.maddr := rfl
@[simp] theorem handBack_mdata (v : Word) (s : State) : (handBack v s).mdata = s.mdata := rfl
@[simp] theorem handBack_sctrla (v : Word) (s : State) : (handBack v s).sctrla = s.sctrla := rfl
@[simp] theorem handBack_sctrlb (v : Word) (s : State) : (handBack v s).sctrlb = s.sctrlb := rfl
@[simp] theorem handBack_sstatus (v : Word) (s : State) : (handBack v s).sstatus = s.sstatus := rfl
@[simp] theorem handBack_saddr (v : Word) (s : State) : (handBack v s).saddr = s.saddr := rfl
@[simp] theorem handBack_sdata (v : Word) (s : State) : (handBack v s).sdata = s.sdata := rfl
@[simp] theorem handBack_mstate (v : Word) (s : State) : (handBack v s).mstate = s.mstate := rfl
@[simp] theorem handBack_txn (v : Word) (s : State) : (handBack v s).txn = s.txn := rfl
@[simp] theorem handBack_mlast (v : Word) (s : State) : (handBack v s).mlast = s.mlast := rfl
@[simp] theorem handBack_tx (v : Word) (s : State) : (handBack v s).tx = s.tx := rfl
@[simp] theorem handBack_rx (v : Word) (s : State) : (handBack v s).rx = s.rx := rfl
@[simp] theorem handBack_imask (v : Word) (s : State) : (handBack v s).imask = s.imask := rfl
@[simp] theorem handBack_trace (v : Word) (s : State) : (handBack v s).trace = s.trace := rfl
@[simp] theorem handBack_mreq (v : Word) (s : State) : (handBack v s).mreq = s.mreq := rfl
@[simp] theorem handBack_sphase (v : Word) (s : State) : (handBack v s).sphase = s.sphase := rfl
@[simp] theorem handBack_refused (v : Word) (s : State) : (handBack v s).refused = s.refused := rfl
@[simp] theorem handBack_faulted (v : Word) (s : State) : (handBack v s).faulted = s.faulted := rfl
@[simp] theorem handBack_bulk (v : Word) (s : State) : (handBack v s).bulk = s.bulk := rfl
@[simp] theorem handBack_cfg (v : Word) (s : State) : (handBack v s).cfg = s.cfg := rfl
@[simp] theorem handBack_schedule (v : Word) (s : State) : (handBack v s).schedule = s.schedule := rfl
@[simp] theorem handBack_probe (v : Word) (s : State) : (handBack v s).probe = s.probe := rfl
@[simp] theorem handBack_draws (v : Word) (s : State) : (handBack v s).draws = s.draws := rfl
@[simp] theorem handBack_result (v : Word) (s : State) : (handBack v s).result = v := rfl

/-! ### hbufWrite -/

@[simp] theorem hbufWrite_harg (i : Nat) (b : Byte) (s : State) : (hbufWrite i b s).harg = s.harg := rfl
@[simp] theorem hbufWrite_hres (i : Nat) (b : Byte) (s : State) : (hbufWrite i b s).hres = s.hres := rfl
@[simp] theorem hbufWrite_hbuf (i : Nat) (b : Byte) (s : State) : (hbufWrite i b s).hbuf = Memory.write hbufBlank s.hbuf i b := rfl
@[simp] theorem hbufWrite_mctrla (i : Nat) (b : Byte) (s : State) : (hbufWrite i b s).mctrla = s.mctrla := rfl
@[simp] theorem hbufWrite_mctrlb (i : Nat) (b : Byte) (s : State) : (hbufWrite i b s).mctrlb = s.mctrlb := rfl
@[simp] theorem hbufWrite_mstatus (i : Nat) (b : Byte) (s : State) : (hbufWrite i b s).mstatus = s.mstatus := rfl
@[simp] theorem hbufWrite_mbaud (i : Nat) (b : Byte) (s : State) : (hbufWrite i b s).mbaud = s.mbaud := rfl
@[simp] theorem hbufWrite_maddr (i : Nat) (b : Byte) (s : State) : (hbufWrite i b s).maddr = s.maddr := rfl
@[simp] theorem hbufWrite_mdata (i : Nat) (b : Byte) (s : State) : (hbufWrite i b s).mdata = s.mdata := rfl
@[simp] theorem hbufWrite_sctrla (i : Nat) (b : Byte) (s : State) : (hbufWrite i b s).sctrla = s.sctrla := rfl
@[simp] theorem hbufWrite_sctrlb (i : Nat) (b : Byte) (s : State) : (hbufWrite i b s).sctrlb = s.sctrlb := rfl
@[simp] theorem hbufWrite_sstatus (i : Nat) (b : Byte) (s : State) : (hbufWrite i b s).sstatus = s.sstatus := rfl
@[simp] theorem hbufWrite_saddr (i : Nat) (b : Byte) (s : State) : (hbufWrite i b s).saddr = s.saddr := rfl
@[simp] theorem hbufWrite_sdata (i : Nat) (b : Byte) (s : State) : (hbufWrite i b s).sdata = s.sdata := rfl
@[simp] theorem hbufWrite_mstate (i : Nat) (b : Byte) (s : State) : (hbufWrite i b s).mstate = s.mstate := rfl
@[simp] theorem hbufWrite_txn (i : Nat) (b : Byte) (s : State) : (hbufWrite i b s).txn = s.txn := rfl
@[simp] theorem hbufWrite_mlast (i : Nat) (b : Byte) (s : State) : (hbufWrite i b s).mlast = s.mlast := rfl
@[simp] theorem hbufWrite_tx (i : Nat) (b : Byte) (s : State) : (hbufWrite i b s).tx = s.tx := rfl
@[simp] theorem hbufWrite_rx (i : Nat) (b : Byte) (s : State) : (hbufWrite i b s).rx = s.rx := rfl
@[simp] theorem hbufWrite_imask (i : Nat) (b : Byte) (s : State) : (hbufWrite i b s).imask = s.imask := rfl
@[simp] theorem hbufWrite_trace (i : Nat) (b : Byte) (s : State) : (hbufWrite i b s).trace = s.trace := rfl
@[simp] theorem hbufWrite_mreq (i : Nat) (b : Byte) (s : State) : (hbufWrite i b s).mreq = s.mreq := rfl
@[simp] theorem hbufWrite_sphase (i : Nat) (b : Byte) (s : State) : (hbufWrite i b s).sphase = s.sphase := rfl
@[simp] theorem hbufWrite_refused (i : Nat) (b : Byte) (s : State) : (hbufWrite i b s).refused = s.refused := rfl
@[simp] theorem hbufWrite_faulted (i : Nat) (b : Byte) (s : State) : (hbufWrite i b s).faulted = s.faulted := rfl
@[simp] theorem hbufWrite_bulk (i : Nat) (b : Byte) (s : State) : (hbufWrite i b s).bulk = s.bulk := rfl
@[simp] theorem hbufWrite_cfg (i : Nat) (b : Byte) (s : State) : (hbufWrite i b s).cfg = s.cfg := rfl
@[simp] theorem hbufWrite_schedule (i : Nat) (b : Byte) (s : State) : (hbufWrite i b s).schedule = s.schedule := rfl
@[simp] theorem hbufWrite_probe (i : Nat) (b : Byte) (s : State) : (hbufWrite i b s).probe = s.probe := rfl
@[simp] theorem hbufWrite_draws (i : Nat) (b : Byte) (s : State) : (hbufWrite i b s).draws = s.draws := rfl
@[simp] theorem hbufWrite_result (i : Nat) (b : Byte) (s : State) : (hbufWrite i b s).result = s.result := rfl

/-! ### setTx -/

@[simp] theorem setTx_harg (r : Ring) (s : State) : (setRing .tx r s).harg = s.harg := rfl
@[simp] theorem setTx_hres (r : Ring) (s : State) : (setRing .tx r s).hres = s.hres := rfl
@[simp] theorem setTx_hbuf (r : Ring) (s : State) : (setRing .tx r s).hbuf = s.hbuf := rfl
@[simp] theorem setTx_mctrla (r : Ring) (s : State) : (setRing .tx r s).mctrla = s.mctrla := rfl
@[simp] theorem setTx_mctrlb (r : Ring) (s : State) : (setRing .tx r s).mctrlb = s.mctrlb := rfl
@[simp] theorem setTx_mstatus (r : Ring) (s : State) : (setRing .tx r s).mstatus = s.mstatus := rfl
@[simp] theorem setTx_mbaud (r : Ring) (s : State) : (setRing .tx r s).mbaud = s.mbaud := rfl
@[simp] theorem setTx_maddr (r : Ring) (s : State) : (setRing .tx r s).maddr = s.maddr := rfl
@[simp] theorem setTx_mdata (r : Ring) (s : State) : (setRing .tx r s).mdata = s.mdata := rfl
@[simp] theorem setTx_sctrla (r : Ring) (s : State) : (setRing .tx r s).sctrla = s.sctrla := rfl
@[simp] theorem setTx_sctrlb (r : Ring) (s : State) : (setRing .tx r s).sctrlb = s.sctrlb := rfl
@[simp] theorem setTx_sstatus (r : Ring) (s : State) : (setRing .tx r s).sstatus = s.sstatus := rfl
@[simp] theorem setTx_saddr (r : Ring) (s : State) : (setRing .tx r s).saddr = s.saddr := rfl
@[simp] theorem setTx_sdata (r : Ring) (s : State) : (setRing .tx r s).sdata = s.sdata := rfl
@[simp] theorem setTx_mstate (r : Ring) (s : State) : (setRing .tx r s).mstate = s.mstate := rfl
@[simp] theorem setTx_txn (r : Ring) (s : State) : (setRing .tx r s).txn = s.txn := rfl
@[simp] theorem setTx_mlast (r : Ring) (s : State) : (setRing .tx r s).mlast = s.mlast := rfl
@[simp] theorem setTx_tx (r : Ring) (s : State) : (setRing .tx r s).tx = r := rfl
@[simp] theorem setTx_rx (r : Ring) (s : State) : (setRing .tx r s).rx = s.rx := rfl
@[simp] theorem setTx_imask (r : Ring) (s : State) : (setRing .tx r s).imask = s.imask := rfl
@[simp] theorem setTx_trace (r : Ring) (s : State) : (setRing .tx r s).trace = s.trace := rfl
@[simp] theorem setTx_mreq (r : Ring) (s : State) : (setRing .tx r s).mreq = s.mreq := rfl
@[simp] theorem setTx_sphase (r : Ring) (s : State) : (setRing .tx r s).sphase = s.sphase := rfl
@[simp] theorem setTx_refused (r : Ring) (s : State) : (setRing .tx r s).refused = s.refused := rfl
@[simp] theorem setTx_faulted (r : Ring) (s : State) : (setRing .tx r s).faulted = s.faulted := rfl
@[simp] theorem setTx_bulk (r : Ring) (s : State) : (setRing .tx r s).bulk = s.bulk := rfl
@[simp] theorem setTx_cfg (r : Ring) (s : State) : (setRing .tx r s).cfg = s.cfg := rfl
@[simp] theorem setTx_schedule (r : Ring) (s : State) : (setRing .tx r s).schedule = s.schedule := rfl
@[simp] theorem setTx_probe (r : Ring) (s : State) : (setRing .tx r s).probe = s.probe := rfl
@[simp] theorem setTx_draws (r : Ring) (s : State) : (setRing .tx r s).draws = s.draws := rfl
@[simp] theorem setTx_result (r : Ring) (s : State) : (setRing .tx r s).result = s.result := rfl

/-! ### setRx -/

@[simp] theorem setRx_harg (r : Ring) (s : State) : (setRing .rx r s).harg = s.harg := rfl
@[simp] theorem setRx_hres (r : Ring) (s : State) : (setRing .rx r s).hres = s.hres := rfl
@[simp] theorem setRx_hbuf (r : Ring) (s : State) : (setRing .rx r s).hbuf = s.hbuf := rfl
@[simp] theorem setRx_mctrla (r : Ring) (s : State) : (setRing .rx r s).mctrla = s.mctrla := rfl
@[simp] theorem setRx_mctrlb (r : Ring) (s : State) : (setRing .rx r s).mctrlb = s.mctrlb := rfl
@[simp] theorem setRx_mstatus (r : Ring) (s : State) : (setRing .rx r s).mstatus = s.mstatus := rfl
@[simp] theorem setRx_mbaud (r : Ring) (s : State) : (setRing .rx r s).mbaud = s.mbaud := rfl
@[simp] theorem setRx_maddr (r : Ring) (s : State) : (setRing .rx r s).maddr = s.maddr := rfl
@[simp] theorem setRx_mdata (r : Ring) (s : State) : (setRing .rx r s).mdata = s.mdata := rfl
@[simp] theorem setRx_sctrla (r : Ring) (s : State) : (setRing .rx r s).sctrla = s.sctrla := rfl
@[simp] theorem setRx_sctrlb (r : Ring) (s : State) : (setRing .rx r s).sctrlb = s.sctrlb := rfl
@[simp] theorem setRx_sstatus (r : Ring) (s : State) : (setRing .rx r s).sstatus = s.sstatus := rfl
@[simp] theorem setRx_saddr (r : Ring) (s : State) : (setRing .rx r s).saddr = s.saddr := rfl
@[simp] theorem setRx_sdata (r : Ring) (s : State) : (setRing .rx r s).sdata = s.sdata := rfl
@[simp] theorem setRx_mstate (r : Ring) (s : State) : (setRing .rx r s).mstate = s.mstate := rfl
@[simp] theorem setRx_txn (r : Ring) (s : State) : (setRing .rx r s).txn = s.txn := rfl
@[simp] theorem setRx_mlast (r : Ring) (s : State) : (setRing .rx r s).mlast = s.mlast := rfl
@[simp] theorem setRx_tx (r : Ring) (s : State) : (setRing .rx r s).tx = s.tx := rfl
@[simp] theorem setRx_rx (r : Ring) (s : State) : (setRing .rx r s).rx = r := rfl
@[simp] theorem setRx_imask (r : Ring) (s : State) : (setRing .rx r s).imask = s.imask := rfl
@[simp] theorem setRx_trace (r : Ring) (s : State) : (setRing .rx r s).trace = s.trace := rfl
@[simp] theorem setRx_mreq (r : Ring) (s : State) : (setRing .rx r s).mreq = s.mreq := rfl
@[simp] theorem setRx_sphase (r : Ring) (s : State) : (setRing .rx r s).sphase = s.sphase := rfl
@[simp] theorem setRx_refused (r : Ring) (s : State) : (setRing .rx r s).refused = s.refused := rfl
@[simp] theorem setRx_faulted (r : Ring) (s : State) : (setRing .rx r s).faulted = s.faulted := rfl
@[simp] theorem setRx_bulk (r : Ring) (s : State) : (setRing .rx r s).bulk = s.bulk := rfl
@[simp] theorem setRx_cfg (r : Ring) (s : State) : (setRing .rx r s).cfg = s.cfg := rfl
@[simp] theorem setRx_schedule (r : Ring) (s : State) : (setRing .rx r s).schedule = s.schedule := rfl
@[simp] theorem setRx_probe (r : Ring) (s : State) : (setRing .rx r s).probe = s.probe := rfl
@[simp] theorem setRx_draws (r : Ring) (s : State) : (setRing .rx r s).draws = s.draws := rfl
@[simp] theorem setRx_result (r : Ring) (s : State) : (setRing .rx r s).result = s.result := rfl

/-! ### maddrWriteOp -/

@[simp] theorem maddrWriteOp_harg (a : BitVec 7) (d : Dir) (s : State) : (maddrWriteOp a d s).harg = s.harg := rfl
@[simp] theorem maddrWriteOp_hres (a : BitVec 7) (d : Dir) (s : State) : (maddrWriteOp a d s).hres = s.hres := rfl
@[simp] theorem maddrWriteOp_hbuf (a : BitVec 7) (d : Dir) (s : State) : (maddrWriteOp a d s).hbuf = s.hbuf := rfl
@[simp] theorem maddrWriteOp_mctrla (a : BitVec 7) (d : Dir) (s : State) : (maddrWriteOp a d s).mctrla = s.mctrla := rfl
@[simp] theorem maddrWriteOp_mctrlb (a : BitVec 7) (d : Dir) (s : State) : (maddrWriteOp a d s).mctrlb = s.mctrlb := rfl
@[simp] theorem maddrWriteOp_mstatus (a : BitVec 7) (d : Dir) (s : State) : (maddrWriteOp a d s).mstatus = mClearAll s.mstatus := rfl
@[simp] theorem maddrWriteOp_mbaud (a : BitVec 7) (d : Dir) (s : State) : (maddrWriteOp a d s).mbaud = s.mbaud := rfl
@[simp] theorem maddrWriteOp_maddr (a : BitVec 7) (d : Dir) (s : State) : (maddrWriteOp a d s).maddr = addressByte a d := rfl
@[simp] theorem maddrWriteOp_mdata (a : BitVec 7) (d : Dir) (s : State) : (maddrWriteOp a d s).mdata = s.mdata := rfl
@[simp] theorem maddrWriteOp_sctrla (a : BitVec 7) (d : Dir) (s : State) : (maddrWriteOp a d s).sctrla = s.sctrla := rfl
@[simp] theorem maddrWriteOp_sctrlb (a : BitVec 7) (d : Dir) (s : State) : (maddrWriteOp a d s).sctrlb = s.sctrlb := rfl
@[simp] theorem maddrWriteOp_sstatus (a : BitVec 7) (d : Dir) (s : State) : (maddrWriteOp a d s).sstatus = s.sstatus := rfl
@[simp] theorem maddrWriteOp_saddr (a : BitVec 7) (d : Dir) (s : State) : (maddrWriteOp a d s).saddr = s.saddr := rfl
@[simp] theorem maddrWriteOp_sdata (a : BitVec 7) (d : Dir) (s : State) : (maddrWriteOp a d s).sdata = s.sdata := rfl
@[simp] theorem maddrWriteOp_mstate (a : BitVec 7) (d : Dir) (s : State) : (maddrWriteOp a d s).mstate = s.mstate := rfl
@[simp] theorem maddrWriteOp_txn (a : BitVec 7) (d : Dir) (s : State) : (maddrWriteOp a d s).txn = s.txn := rfl
@[simp] theorem maddrWriteOp_mlast (a : BitVec 7) (d : Dir) (s : State) : (maddrWriteOp a d s).mlast = s.mlast := rfl
@[simp] theorem maddrWriteOp_tx (a : BitVec 7) (d : Dir) (s : State) : (maddrWriteOp a d s).tx = s.tx := rfl
@[simp] theorem maddrWriteOp_rx (a : BitVec 7) (d : Dir) (s : State) : (maddrWriteOp a d s).rx = s.rx := rfl
@[simp] theorem maddrWriteOp_imask (a : BitVec 7) (d : Dir) (s : State) : (maddrWriteOp a d s).imask = s.imask := rfl
@[simp] theorem maddrWriteOp_trace (a : BitVec 7) (d : Dir) (s : State) : (maddrWriteOp a d s).trace = s.trace ++ [.mStart a d] := rfl
@[simp] theorem maddrWriteOp_mreq (a : BitVec 7) (d : Dir) (s : State) : (maddrWriteOp a d s).mreq = .addr d := rfl
@[simp] theorem maddrWriteOp_sphase (a : BitVec 7) (d : Dir) (s : State) : (maddrWriteOp a d s).sphase = s.sphase := rfl
@[simp] theorem maddrWriteOp_refused (a : BitVec 7) (d : Dir) (s : State) : (maddrWriteOp a d s).refused = s.refused := rfl
@[simp] theorem maddrWriteOp_faulted (a : BitVec 7) (d : Dir) (s : State) : (maddrWriteOp a d s).faulted = s.faulted := rfl
@[simp] theorem maddrWriteOp_bulk (a : BitVec 7) (d : Dir) (s : State) : (maddrWriteOp a d s).bulk = s.bulk := rfl
@[simp] theorem maddrWriteOp_cfg (a : BitVec 7) (d : Dir) (s : State) : (maddrWriteOp a d s).cfg = s.cfg := rfl
@[simp] theorem maddrWriteOp_schedule (a : BitVec 7) (d : Dir) (s : State) : (maddrWriteOp a d s).schedule = s.schedule := rfl
@[simp] theorem maddrWriteOp_probe (a : BitVec 7) (d : Dir) (s : State) : (maddrWriteOp a d s).probe = s.probe := rfl
@[simp] theorem maddrWriteOp_draws (a : BitVec 7) (d : Dir) (s : State) : (maddrWriteOp a d s).draws = s.draws := rfl
@[simp] theorem maddrWriteOp_result (a : BitVec 7) (d : Dir) (s : State) : (maddrWriteOp a d s).result = s.result := rfl

/-! ### mdataWriteOp -/

@[simp] theorem mdataWriteOp_harg (b : Byte) (s : State) : (mdataWriteOp b s).harg = s.harg := rfl
@[simp] theorem mdataWriteOp_hres (b : Byte) (s : State) : (mdataWriteOp b s).hres = s.hres := rfl
@[simp] theorem mdataWriteOp_hbuf (b : Byte) (s : State) : (mdataWriteOp b s).hbuf = s.hbuf := rfl
@[simp] theorem mdataWriteOp_mctrla (b : Byte) (s : State) : (mdataWriteOp b s).mctrla = s.mctrla := rfl
@[simp] theorem mdataWriteOp_mctrlb (b : Byte) (s : State) : (mdataWriteOp b s).mctrlb = s.mctrlb := rfl
@[simp] theorem mdataWriteOp_mstatus (b : Byte) (s : State) : (mdataWriteOp b s).mstatus = mClearTransfer s.mstatus := rfl
@[simp] theorem mdataWriteOp_mbaud (b : Byte) (s : State) : (mdataWriteOp b s).mbaud = s.mbaud := rfl
@[simp] theorem mdataWriteOp_maddr (b : Byte) (s : State) : (mdataWriteOp b s).maddr = s.maddr := rfl
@[simp] theorem mdataWriteOp_mdata (b : Byte) (s : State) : (mdataWriteOp b s).mdata = b := rfl
@[simp] theorem mdataWriteOp_sctrla (b : Byte) (s : State) : (mdataWriteOp b s).sctrla = s.sctrla := rfl
@[simp] theorem mdataWriteOp_sctrlb (b : Byte) (s : State) : (mdataWriteOp b s).sctrlb = s.sctrlb := rfl
@[simp] theorem mdataWriteOp_sstatus (b : Byte) (s : State) : (mdataWriteOp b s).sstatus = s.sstatus := rfl
@[simp] theorem mdataWriteOp_saddr (b : Byte) (s : State) : (mdataWriteOp b s).saddr = s.saddr := rfl
@[simp] theorem mdataWriteOp_sdata (b : Byte) (s : State) : (mdataWriteOp b s).sdata = s.sdata := rfl
@[simp] theorem mdataWriteOp_mstate (b : Byte) (s : State) : (mdataWriteOp b s).mstate = s.mstate := rfl
@[simp] theorem mdataWriteOp_txn (b : Byte) (s : State) : (mdataWriteOp b s).txn = s.txn := rfl
@[simp] theorem mdataWriteOp_mlast (b : Byte) (s : State) : (mdataWriteOp b s).mlast = s.mlast := rfl
@[simp] theorem mdataWriteOp_tx (b : Byte) (s : State) : (mdataWriteOp b s).tx = s.tx := rfl
@[simp] theorem mdataWriteOp_rx (b : Byte) (s : State) : (mdataWriteOp b s).rx = s.rx := rfl
@[simp] theorem mdataWriteOp_imask (b : Byte) (s : State) : (mdataWriteOp b s).imask = s.imask := rfl
@[simp] theorem mdataWriteOp_trace (b : Byte) (s : State) : (mdataWriteOp b s).trace = s.trace ++ [.mTx b] := rfl
@[simp] theorem mdataWriteOp_mreq (b : Byte) (s : State) : (mdataWriteOp b s).mreq = .tx := rfl
@[simp] theorem mdataWriteOp_sphase (b : Byte) (s : State) : (mdataWriteOp b s).sphase = s.sphase := rfl
@[simp] theorem mdataWriteOp_refused (b : Byte) (s : State) : (mdataWriteOp b s).refused = s.refused := rfl
@[simp] theorem mdataWriteOp_faulted (b : Byte) (s : State) : (mdataWriteOp b s).faulted = s.faulted := rfl
@[simp] theorem mdataWriteOp_bulk (b : Byte) (s : State) : (mdataWriteOp b s).bulk = s.bulk := rfl
@[simp] theorem mdataWriteOp_cfg (b : Byte) (s : State) : (mdataWriteOp b s).cfg = s.cfg := rfl
@[simp] theorem mdataWriteOp_schedule (b : Byte) (s : State) : (mdataWriteOp b s).schedule = s.schedule := rfl
@[simp] theorem mdataWriteOp_probe (b : Byte) (s : State) : (mdataWriteOp b s).probe = s.probe := rfl
@[simp] theorem mdataWriteOp_draws (b : Byte) (s : State) : (mdataWriteOp b s).draws = s.draws := rfl
@[simp] theorem mdataWriteOp_result (b : Byte) (s : State) : (mdataWriteOp b s).result = s.result := rfl

/-! ### recvTransOp -/

@[simp] theorem recvTransOp_harg (act : AckAct) (s : State) : (recvTransOp act s).harg = s.harg := rfl
@[simp] theorem recvTransOp_hres (act : AckAct) (s : State) : (recvTransOp act s).hres = s.hres := rfl
@[simp] theorem recvTransOp_hbuf (act : AckAct) (s : State) : (recvTransOp act s).hbuf = s.hbuf := rfl
@[simp] theorem recvTransOp_mctrla (act : AckAct) (s : State) : (recvTransOp act s).mctrla = s.mctrla := rfl
@[simp] theorem recvTransOp_mctrlb (act : AckAct) (s : State) : (recvTransOp act s).mctrlb = commandReadBack act := rfl
@[simp] theorem recvTransOp_mstatus (act : AckAct) (s : State) : (recvTransOp act s).mstatus = mClearTransfer s.mstatus := rfl
@[simp] theorem recvTransOp_mbaud (act : AckAct) (s : State) : (recvTransOp act s).mbaud = s.mbaud := rfl
@[simp] theorem recvTransOp_maddr (act : AckAct) (s : State) : (recvTransOp act s).maddr = s.maddr := rfl
@[simp] theorem recvTransOp_mdata (act : AckAct) (s : State) : (recvTransOp act s).mdata = s.mdata := rfl
@[simp] theorem recvTransOp_sctrla (act : AckAct) (s : State) : (recvTransOp act s).sctrla = s.sctrla := rfl
@[simp] theorem recvTransOp_sctrlb (act : AckAct) (s : State) : (recvTransOp act s).sctrlb = s.sctrlb := rfl
@[simp] theorem recvTransOp_sstatus (act : AckAct) (s : State) : (recvTransOp act s).sstatus = s.sstatus := rfl
@[simp] theorem recvTransOp_saddr (act : AckAct) (s : State) : (recvTransOp act s).saddr = s.saddr := rfl
@[simp] theorem recvTransOp_sdata (act : AckAct) (s : State) : (recvTransOp act s).sdata = s.sdata := rfl
@[simp] theorem recvTransOp_mstate (act : AckAct) (s : State) : (recvTransOp act s).mstate = s.mstate := rfl
@[simp] theorem recvTransOp_txn (act : AckAct) (s : State) : (recvTransOp act s).txn = s.txn := rfl
@[simp] theorem recvTransOp_mlast (act : AckAct) (s : State) : (recvTransOp act s).mlast = s.mlast := rfl
@[simp] theorem recvTransOp_tx (act : AckAct) (s : State) : (recvTransOp act s).tx = s.tx := rfl
@[simp] theorem recvTransOp_rx (act : AckAct) (s : State) : (recvTransOp act s).rx = s.rx := rfl
@[simp] theorem recvTransOp_imask (act : AckAct) (s : State) : (recvTransOp act s).imask = s.imask := rfl
@[simp] theorem recvTransOp_trace (act : AckAct) (s : State) : (recvTransOp act s).trace = s.trace ++ [.mRecvNext act] := rfl
@[simp] theorem recvTransOp_mreq (act : AckAct) (s : State) : (recvTransOp act s).mreq = .recvNext := rfl
@[simp] theorem recvTransOp_sphase (act : AckAct) (s : State) : (recvTransOp act s).sphase = s.sphase := rfl
@[simp] theorem recvTransOp_refused (act : AckAct) (s : State) : (recvTransOp act s).refused = s.refused := rfl
@[simp] theorem recvTransOp_faulted (act : AckAct) (s : State) : (recvTransOp act s).faulted = s.faulted := rfl
@[simp] theorem recvTransOp_bulk (act : AckAct) (s : State) : (recvTransOp act s).bulk = s.bulk := rfl
@[simp] theorem recvTransOp_cfg (act : AckAct) (s : State) : (recvTransOp act s).cfg = s.cfg := rfl
@[simp] theorem recvTransOp_schedule (act : AckAct) (s : State) : (recvTransOp act s).schedule = s.schedule := rfl
@[simp] theorem recvTransOp_probe (act : AckAct) (s : State) : (recvTransOp act s).probe = s.probe := rfl
@[simp] theorem recvTransOp_draws (act : AckAct) (s : State) : (recvTransOp act s).draws = s.draws := rfl
@[simp] theorem recvTransOp_result (act : AckAct) (s : State) : (recvTransOp act s).result = s.result := rfl

/-! ### stopOp -/

@[simp] theorem stopOp_harg (act : AckAct) (s : State) : (stopOp act s).harg = s.harg := rfl
@[simp] theorem stopOp_hres (act : AckAct) (s : State) : (stopOp act s).hres = s.hres := rfl
@[simp] theorem stopOp_hbuf (act : AckAct) (s : State) : (stopOp act s).hbuf = s.hbuf := rfl
@[simp] theorem stopOp_mctrla (act : AckAct) (s : State) : (stopOp act s).mctrla = s.mctrla := rfl
@[simp] theorem stopOp_mctrlb (act : AckAct) (s : State) : (stopOp act s).mctrlb = commandReadBack act := rfl
@[simp] theorem stopOp_mstatus (act : AckAct) (s : State) : (stopOp act s).mstatus = mClearTransfer s.mstatus := rfl
@[simp] theorem stopOp_mbaud (act : AckAct) (s : State) : (stopOp act s).mbaud = s.mbaud := rfl
@[simp] theorem stopOp_maddr (act : AckAct) (s : State) : (stopOp act s).maddr = s.maddr := rfl
@[simp] theorem stopOp_mdata (act : AckAct) (s : State) : (stopOp act s).mdata = s.mdata := rfl
@[simp] theorem stopOp_sctrla (act : AckAct) (s : State) : (stopOp act s).sctrla = s.sctrla := rfl
@[simp] theorem stopOp_sctrlb (act : AckAct) (s : State) : (stopOp act s).sctrlb = s.sctrlb := rfl
@[simp] theorem stopOp_sstatus (act : AckAct) (s : State) : (stopOp act s).sstatus = s.sstatus := rfl
@[simp] theorem stopOp_saddr (act : AckAct) (s : State) : (stopOp act s).saddr = s.saddr := rfl
@[simp] theorem stopOp_sdata (act : AckAct) (s : State) : (stopOp act s).sdata = s.sdata := rfl
@[simp] theorem stopOp_mstate (act : AckAct) (s : State) : (stopOp act s).mstate = s.mstate := rfl
@[simp] theorem stopOp_txn (act : AckAct) (s : State) : (stopOp act s).txn = s.txn := rfl
@[simp] theorem stopOp_mlast (act : AckAct) (s : State) : (stopOp act s).mlast = s.mlast := rfl
@[simp] theorem stopOp_tx (act : AckAct) (s : State) : (stopOp act s).tx = s.tx := rfl
@[simp] theorem stopOp_rx (act : AckAct) (s : State) : (stopOp act s).rx = s.rx := rfl
@[simp] theorem stopOp_imask (act : AckAct) (s : State) : (stopOp act s).imask = s.imask := rfl
@[simp] theorem stopOp_trace (act : AckAct) (s : State) : (stopOp act s).trace = s.trace ++ [.mStop act] := rfl
@[simp] theorem stopOp_mreq (act : AckAct) (s : State) : (stopOp act s).mreq = .none := rfl
@[simp] theorem stopOp_sphase (act : AckAct) (s : State) : (stopOp act s).sphase = s.sphase := rfl
@[simp] theorem stopOp_refused (act : AckAct) (s : State) : (stopOp act s).refused = s.refused := rfl
@[simp] theorem stopOp_faulted (act : AckAct) (s : State) : (stopOp act s).faulted = s.faulted := rfl
@[simp] theorem stopOp_bulk (act : AckAct) (s : State) : (stopOp act s).bulk = s.bulk := rfl
@[simp] theorem stopOp_cfg (act : AckAct) (s : State) : (stopOp act s).cfg = s.cfg := rfl
@[simp] theorem stopOp_schedule (act : AckAct) (s : State) : (stopOp act s).schedule = s.schedule := rfl
@[simp] theorem stopOp_probe (act : AckAct) (s : State) : (stopOp act s).probe = s.probe := rfl
@[simp] theorem stopOp_draws (act : AckAct) (s : State) : (stopOp act s).draws = s.draws := rfl
@[simp] theorem stopOp_result (act : AckAct) (s : State) : (stopOp act s).result = s.result := rfl

/-! ### sdataWriteOp -/

@[simp] theorem sdataWriteOp_harg (b : Byte) (s : State) : (sdataWriteOp b s).harg = s.harg := rfl
@[simp] theorem sdataWriteOp_hres (b : Byte) (s : State) : (sdataWriteOp b s).hres = s.hres := rfl
@[simp] theorem sdataWriteOp_hbuf (b : Byte) (s : State) : (sdataWriteOp b s).hbuf = s.hbuf := rfl
@[simp] theorem sdataWriteOp_mctrla (b : Byte) (s : State) : (sdataWriteOp b s).mctrla = s.mctrla := rfl
@[simp] theorem sdataWriteOp_mctrlb (b : Byte) (s : State) : (sdataWriteOp b s).mctrlb = s.mctrlb := rfl
@[simp] theorem sdataWriteOp_mstatus (b : Byte) (s : State) : (sdataWriteOp b s).mstatus = s.mstatus := rfl
@[simp] theorem sdataWriteOp_mbaud (b : Byte) (s : State) : (sdataWriteOp b s).mbaud = s.mbaud := rfl
@[simp] theorem sdataWriteOp_maddr (b : Byte) (s : State) : (sdataWriteOp b s).maddr = s.maddr := rfl
@[simp] theorem sdataWriteOp_mdata (b : Byte) (s : State) : (sdataWriteOp b s).mdata = s.mdata := rfl
@[simp] theorem sdataWriteOp_sctrla (b : Byte) (s : State) : (sdataWriteOp b s).sctrla = s.sctrla := rfl
@[simp] theorem sdataWriteOp_sctrlb (b : Byte) (s : State) : (sdataWriteOp b s).sctrlb = s.sctrlb := rfl
@[simp] theorem sdataWriteOp_sstatus (b : Byte) (s : State) : (sdataWriteOp b s).sstatus = s.sstatus := rfl
@[simp] theorem sdataWriteOp_saddr (b : Byte) (s : State) : (sdataWriteOp b s).saddr = s.saddr := rfl
@[simp] theorem sdataWriteOp_sdata (b : Byte) (s : State) : (sdataWriteOp b s).sdata = b := rfl
@[simp] theorem sdataWriteOp_mstate (b : Byte) (s : State) : (sdataWriteOp b s).mstate = s.mstate := rfl
@[simp] theorem sdataWriteOp_txn (b : Byte) (s : State) : (sdataWriteOp b s).txn = s.txn := rfl
@[simp] theorem sdataWriteOp_mlast (b : Byte) (s : State) : (sdataWriteOp b s).mlast = s.mlast := rfl
@[simp] theorem sdataWriteOp_tx (b : Byte) (s : State) : (sdataWriteOp b s).tx = s.tx := rfl
@[simp] theorem sdataWriteOp_rx (b : Byte) (s : State) : (sdataWriteOp b s).rx = s.rx := rfl
@[simp] theorem sdataWriteOp_imask (b : Byte) (s : State) : (sdataWriteOp b s).imask = s.imask := rfl
@[simp] theorem sdataWriteOp_trace (b : Byte) (s : State) : (sdataWriteOp b s).trace = s.trace := rfl
@[simp] theorem sdataWriteOp_mreq (b : Byte) (s : State) : (sdataWriteOp b s).mreq = s.mreq := rfl
@[simp] theorem sdataWriteOp_sphase (b : Byte) (s : State) : (sdataWriteOp b s).sphase = s.sphase := rfl
@[simp] theorem sdataWriteOp_refused (b : Byte) (s : State) : (sdataWriteOp b s).refused = s.refused := rfl
@[simp] theorem sdataWriteOp_faulted (b : Byte) (s : State) : (sdataWriteOp b s).faulted = s.faulted := rfl
@[simp] theorem sdataWriteOp_bulk (b : Byte) (s : State) : (sdataWriteOp b s).bulk = s.bulk := rfl
@[simp] theorem sdataWriteOp_cfg (b : Byte) (s : State) : (sdataWriteOp b s).cfg = s.cfg := rfl
@[simp] theorem sdataWriteOp_schedule (b : Byte) (s : State) : (sdataWriteOp b s).schedule = s.schedule := rfl
@[simp] theorem sdataWriteOp_probe (b : Byte) (s : State) : (sdataWriteOp b s).probe = s.probe := rfl
@[simp] theorem sdataWriteOp_draws (b : Byte) (s : State) : (sdataWriteOp b s).draws = s.draws := rfl
@[simp] theorem sdataWriteOp_result (b : Byte) (s : State) : (sdataWriteOp b s).result = s.result := rfl

/-! ### compTransOp -/

@[simp] theorem compTransOp_harg (act : AckAct) (s : State) : (compTransOp act s).harg = s.harg := rfl
@[simp] theorem compTransOp_hres (act : AckAct) (s : State) : (compTransOp act s).hres = s.hres := rfl
@[simp] theorem compTransOp_hbuf (act : AckAct) (s : State) : (compTransOp act s).hbuf = s.hbuf := rfl
@[simp] theorem compTransOp_mctrla (act : AckAct) (s : State) : (compTransOp act s).mctrla = s.mctrla := rfl
@[simp] theorem compTransOp_mctrlb (act : AckAct) (s : State) : (compTransOp act s).mctrlb = s.mctrlb := rfl
@[simp] theorem compTransOp_mstatus (act : AckAct) (s : State) : (compTransOp act s).mstatus = s.mstatus := rfl
@[simp] theorem compTransOp_mbaud (act : AckAct) (s : State) : (compTransOp act s).mbaud = s.mbaud := rfl
@[simp] theorem compTransOp_maddr (act : AckAct) (s : State) : (compTransOp act s).maddr = s.maddr := rfl
@[simp] theorem compTransOp_mdata (act : AckAct) (s : State) : (compTransOp act s).mdata = s.mdata := rfl
@[simp] theorem compTransOp_sctrla (act : AckAct) (s : State) : (compTransOp act s).sctrla = s.sctrla := rfl
@[simp] theorem compTransOp_sctrlb (act : AckAct) (s : State) : (compTransOp act s).sctrlb = commandReadBack act := rfl
@[simp] theorem compTransOp_sstatus (act : AckAct) (s : State) : (compTransOp act s).sstatus = sClearPending s.sstatus := rfl
@[simp] theorem compTransOp_saddr (act : AckAct) (s : State) : (compTransOp act s).saddr = s.saddr := rfl
@[simp] theorem compTransOp_sdata (act : AckAct) (s : State) : (compTransOp act s).sdata = s.sdata := rfl
@[simp] theorem compTransOp_mstate (act : AckAct) (s : State) : (compTransOp act s).mstate = s.mstate := rfl
@[simp] theorem compTransOp_txn (act : AckAct) (s : State) : (compTransOp act s).txn = s.txn := rfl
@[simp] theorem compTransOp_mlast (act : AckAct) (s : State) : (compTransOp act s).mlast = s.mlast := rfl
@[simp] theorem compTransOp_tx (act : AckAct) (s : State) : (compTransOp act s).tx = s.tx := rfl
@[simp] theorem compTransOp_rx (act : AckAct) (s : State) : (compTransOp act s).rx = s.rx := rfl
@[simp] theorem compTransOp_imask (act : AckAct) (s : State) : (compTransOp act s).imask = s.imask := rfl
@[simp] theorem compTransOp_trace (act : AckAct) (s : State) : (compTransOp act s).trace = s.trace ++ [.sComplete act] := rfl
@[simp] theorem compTransOp_mreq (act : AckAct) (s : State) : (compTransOp act s).mreq = s.mreq := rfl
@[simp] theorem compTransOp_sphase (act : AckAct) (s : State) : (compTransOp act s).sphase = .idle := rfl
@[simp] theorem compTransOp_refused (act : AckAct) (s : State) : (compTransOp act s).refused = s.refused := rfl
@[simp] theorem compTransOp_faulted (act : AckAct) (s : State) : (compTransOp act s).faulted = s.faulted := rfl
@[simp] theorem compTransOp_bulk (act : AckAct) (s : State) : (compTransOp act s).bulk = s.bulk := rfl
@[simp] theorem compTransOp_cfg (act : AckAct) (s : State) : (compTransOp act s).cfg = s.cfg := rfl
@[simp] theorem compTransOp_schedule (act : AckAct) (s : State) : (compTransOp act s).schedule = s.schedule := rfl
@[simp] theorem compTransOp_probe (act : AckAct) (s : State) : (compTransOp act s).probe = s.probe := rfl
@[simp] theorem compTransOp_draws (act : AckAct) (s : State) : (compTransOp act s).draws = s.draws := rfl
@[simp] theorem compTransOp_result (act : AckAct) (s : State) : (compTransOp act s).result = s.result := rfl

/-! ### accept -/

@[simp] theorem accept_harg (s : State) : (accept s).harg = s.harg := rfl
@[simp] theorem accept_hres (s : State) : (accept s).hres = hresAccepted s.hres := rfl
@[simp] theorem accept_hbuf (s : State) : (accept s).hbuf = s.hbuf := rfl
@[simp] theorem accept_mctrla (s : State) : (accept s).mctrla = s.mctrla := rfl
@[simp] theorem accept_mctrlb (s : State) : (accept s).mctrlb = s.mctrlb := rfl
@[simp] theorem accept_mstatus (s : State) : (accept s).mstatus = s.mstatus := rfl
@[simp] theorem accept_mbaud (s : State) : (accept s).mbaud = s.mbaud := rfl
@[simp] theorem accept_maddr (s : State) : (accept s).maddr = s.maddr := rfl
@[simp] theorem accept_mdata (s : State) : (accept s).mdata = s.mdata := rfl
@[simp] theorem accept_sctrla (s : State) : (accept s).sctrla = s.sctrla := rfl
@[simp] theorem accept_sctrlb (s : State) : (accept s).sctrlb = s.sctrlb := rfl
@[simp] theorem accept_sstatus (s : State) : (accept s).sstatus = s.sstatus := rfl
@[simp] theorem accept_saddr (s : State) : (accept s).saddr = s.saddr := rfl
@[simp] theorem accept_sdata (s : State) : (accept s).sdata = s.sdata := rfl
@[simp] theorem accept_mstate (s : State) : (accept s).mstate = s.mstate := rfl
@[simp] theorem accept_txn (s : State) : (accept s).txn = s.txn := rfl
@[simp] theorem accept_mlast (s : State) : (accept s).mlast = s.mlast := rfl
@[simp] theorem accept_tx (s : State) : (accept s).tx = s.tx := rfl
@[simp] theorem accept_rx (s : State) : (accept s).rx = s.rx := rfl
@[simp] theorem accept_imask (s : State) : (accept s).imask = s.imask := rfl
@[simp] theorem accept_trace (s : State) : (accept s).trace = s.trace := rfl
@[simp] theorem accept_mreq (s : State) : (accept s).mreq = s.mreq := rfl
@[simp] theorem accept_sphase (s : State) : (accept s).sphase = s.sphase := rfl
@[simp] theorem accept_refused (s : State) : (accept s).refused = s.refused := rfl
@[simp] theorem accept_faulted (s : State) : (accept s).faulted = s.faulted := rfl
@[simp] theorem accept_bulk (s : State) : (accept s).bulk = s.bulk := rfl
@[simp] theorem accept_cfg (s : State) : (accept s).cfg = s.cfg := rfl
@[simp] theorem accept_schedule (s : State) : (accept s).schedule = s.schedule := rfl
@[simp] theorem accept_probe (s : State) : (accept s).probe = s.probe := rfl
@[simp] theorem accept_draws (s : State) : (accept s).draws = s.draws := rfl
@[simp] theorem accept_result (s : State) : (accept s).result = s.result := rfl

/-! ### retire -/

@[simp] theorem retire_harg (res : OpResult) (s : State) : (retire res s).harg = s.harg := rfl
@[simp] theorem retire_hres (res : OpResult) (s : State) : (retire res s).hres = hresRetired res.status res.count := rfl
@[simp] theorem retire_hbuf (res : OpResult) (s : State) : (retire res s).hbuf = s.hbuf := rfl
@[simp] theorem retire_mctrla (res : OpResult) (s : State) : (retire res s).mctrla = s.mctrla := rfl
@[simp] theorem retire_mctrlb (res : OpResult) (s : State) : (retire res s).mctrlb = s.mctrlb := rfl
@[simp] theorem retire_mstatus (res : OpResult) (s : State) : (retire res s).mstatus = s.mstatus := rfl
@[simp] theorem retire_mbaud (res : OpResult) (s : State) : (retire res s).mbaud = s.mbaud := rfl
@[simp] theorem retire_maddr (res : OpResult) (s : State) : (retire res s).maddr = s.maddr := rfl
@[simp] theorem retire_mdata (res : OpResult) (s : State) : (retire res s).mdata = s.mdata := rfl
@[simp] theorem retire_sctrla (res : OpResult) (s : State) : (retire res s).sctrla = s.sctrla := rfl
@[simp] theorem retire_sctrlb (res : OpResult) (s : State) : (retire res s).sctrlb = s.sctrlb := rfl
@[simp] theorem retire_sstatus (res : OpResult) (s : State) : (retire res s).sstatus = s.sstatus := rfl
@[simp] theorem retire_saddr (res : OpResult) (s : State) : (retire res s).saddr = s.saddr := rfl
@[simp] theorem retire_sdata (res : OpResult) (s : State) : (retire res s).sdata = s.sdata := rfl
@[simp] theorem retire_mstate (res : OpResult) (s : State) : (retire res s).mstate = s.mstate := rfl
@[simp] theorem retire_txn (res : OpResult) (s : State) : (retire res s).txn = s.txn := rfl
@[simp] theorem retire_mlast (res : OpResult) (s : State) : (retire res s).mlast = s.mlast := rfl
@[simp] theorem retire_tx (res : OpResult) (s : State) : (retire res s).tx = s.tx := rfl
@[simp] theorem retire_rx (res : OpResult) (s : State) : (retire res s).rx = s.rx := rfl
@[simp] theorem retire_imask (res : OpResult) (s : State) : (retire res s).imask = s.imask := rfl
@[simp] theorem retire_trace (res : OpResult) (s : State) : (retire res s).trace = s.trace := rfl
@[simp] theorem retire_mreq (res : OpResult) (s : State) : (retire res s).mreq = s.mreq := rfl
@[simp] theorem retire_sphase (res : OpResult) (s : State) : (retire res s).sphase = s.sphase := rfl
@[simp] theorem retire_refused (res : OpResult) (s : State) : (retire res s).refused = s.refused := rfl
@[simp] theorem retire_faulted (res : OpResult) (s : State) : (retire res s).faulted = s.faulted := rfl
@[simp] theorem retire_bulk (res : OpResult) (s : State) : (retire res s).bulk = s.bulk := rfl
@[simp] theorem retire_cfg (res : OpResult) (s : State) : (retire res s).cfg = s.cfg := rfl
@[simp] theorem retire_schedule (res : OpResult) (s : State) : (retire res s).schedule = s.schedule := rfl
@[simp] theorem retire_probe (res : OpResult) (s : State) : (retire res s).probe = s.probe := rfl
@[simp] theorem retire_draws (res : OpResult) (s : State) : (retire res s).draws = s.draws := rfl
@[simp] theorem retire_result (res : OpResult) (s : State) : (retire res s).result = s.result := rfl

/-! ### retireMaster -/

@[simp] theorem retireMaster_harg (t : Terminal) (s : State) : (retireMaster t s).harg = s.harg := rfl
@[simp] theorem retireMaster_hres (t : Terminal) (s : State) : (retireMaster t s).hres = hresRetired t.result.status t.result.count := rfl
@[simp] theorem retireMaster_hbuf (t : Terminal) (s : State) : (retireMaster t s).hbuf = s.hbuf := rfl
@[simp] theorem retireMaster_mctrla (t : Terminal) (s : State) : (retireMaster t s).mctrla = s.mctrla := rfl
@[simp] theorem retireMaster_mctrlb (t : Terminal) (s : State) : (retireMaster t s).mctrlb = s.mctrlb := rfl
@[simp] theorem retireMaster_mstatus (t : Terminal) (s : State) : (retireMaster t s).mstatus = s.mstatus := rfl
@[simp] theorem retireMaster_mbaud (t : Terminal) (s : State) : (retireMaster t s).mbaud = s.mbaud := rfl
@[simp] theorem retireMaster_maddr (t : Terminal) (s : State) : (retireMaster t s).maddr = s.maddr := rfl
@[simp] theorem retireMaster_mdata (t : Terminal) (s : State) : (retireMaster t s).mdata = s.mdata := rfl
@[simp] theorem retireMaster_sctrla (t : Terminal) (s : State) : (retireMaster t s).sctrla = s.sctrla := rfl
@[simp] theorem retireMaster_sctrlb (t : Terminal) (s : State) : (retireMaster t s).sctrlb = s.sctrlb := rfl
@[simp] theorem retireMaster_sstatus (t : Terminal) (s : State) : (retireMaster t s).sstatus = s.sstatus := rfl
@[simp] theorem retireMaster_saddr (t : Terminal) (s : State) : (retireMaster t s).saddr = s.saddr := rfl
@[simp] theorem retireMaster_sdata (t : Terminal) (s : State) : (retireMaster t s).sdata = s.sdata := rfl
@[simp] theorem retireMaster_mstate (t : Terminal) (s : State) : (retireMaster t s).mstate = .idle := rfl
@[simp] theorem retireMaster_txn (t : Terminal) (s : State) : (retireMaster t s).txn = none := rfl
@[simp] theorem retireMaster_mlast (t : Terminal) (s : State) : (retireMaster t s).mlast = some t := rfl
@[simp] theorem retireMaster_tx (t : Terminal) (s : State) : (retireMaster t s).tx = s.tx := rfl
@[simp] theorem retireMaster_rx (t : Terminal) (s : State) : (retireMaster t s).rx = s.rx := rfl
@[simp] theorem retireMaster_imask (t : Terminal) (s : State) : (retireMaster t s).imask = s.imask := rfl
@[simp] theorem retireMaster_trace (t : Terminal) (s : State) : (retireMaster t s).trace = s.trace := rfl
@[simp] theorem retireMaster_mreq (t : Terminal) (s : State) : (retireMaster t s).mreq = s.mreq := rfl
@[simp] theorem retireMaster_sphase (t : Terminal) (s : State) : (retireMaster t s).sphase = s.sphase := rfl
@[simp] theorem retireMaster_refused (t : Terminal) (s : State) : (retireMaster t s).refused = s.refused := rfl
@[simp] theorem retireMaster_faulted (t : Terminal) (s : State) : (retireMaster t s).faulted = s.faulted := rfl
@[simp] theorem retireMaster_bulk (t : Terminal) (s : State) : (retireMaster t s).bulk = s.bulk := rfl
@[simp] theorem retireMaster_cfg (t : Terminal) (s : State) : (retireMaster t s).cfg = s.cfg := rfl
@[simp] theorem retireMaster_schedule (t : Terminal) (s : State) : (retireMaster t s).schedule = s.schedule := rfl
@[simp] theorem retireMaster_probe (t : Terminal) (s : State) : (retireMaster t s).probe = s.probe := rfl
@[simp] theorem retireMaster_draws (t : Terminal) (s : State) : (retireMaster t s).draws = s.draws := rfl
@[simp] theorem retireMaster_result (t : Terminal) (s : State) : (retireMaster t s).result = s.result := rfl

/-! ### enterData -/

@[simp] theorem enterData_harg (i : Nat) (s : State) : (enterData i s).harg = s.harg := rfl
@[simp] theorem enterData_hres (i : Nat) (s : State) : (enterData i s).hres = s.hres := rfl
@[simp] theorem enterData_hbuf (i : Nat) (s : State) : (enterData i s).hbuf = s.hbuf := rfl
@[simp] theorem enterData_mctrla (i : Nat) (s : State) : (enterData i s).mctrla = s.mctrla := rfl
@[simp] theorem enterData_mctrlb (i : Nat) (s : State) : (enterData i s).mctrlb = s.mctrlb := rfl
@[simp] theorem enterData_mstatus (i : Nat) (s : State) : (enterData i s).mstatus = s.mstatus := rfl
@[simp] theorem enterData_mbaud (i : Nat) (s : State) : (enterData i s).mbaud = s.mbaud := rfl
@[simp] theorem enterData_maddr (i : Nat) (s : State) : (enterData i s).maddr = s.maddr := rfl
@[simp] theorem enterData_mdata (i : Nat) (s : State) : (enterData i s).mdata = s.mdata := rfl
@[simp] theorem enterData_sctrla (i : Nat) (s : State) : (enterData i s).sctrla = s.sctrla := rfl
@[simp] theorem enterData_sctrlb (i : Nat) (s : State) : (enterData i s).sctrlb = s.sctrlb := rfl
@[simp] theorem enterData_sstatus (i : Nat) (s : State) : (enterData i s).sstatus = s.sstatus := rfl
@[simp] theorem enterData_saddr (i : Nat) (s : State) : (enterData i s).saddr = s.saddr := rfl
@[simp] theorem enterData_sdata (i : Nat) (s : State) : (enterData i s).sdata = s.sdata := rfl
@[simp] theorem enterData_mstate (i : Nat) (s : State) : (enterData i s).mstate = .dataPhase i := rfl
@[simp] theorem enterData_txn (i : Nat) (s : State) : (enterData i s).txn = s.txn := rfl
@[simp] theorem enterData_mlast (i : Nat) (s : State) : (enterData i s).mlast = s.mlast := rfl
@[simp] theorem enterData_tx (i : Nat) (s : State) : (enterData i s).tx = s.tx := rfl
@[simp] theorem enterData_rx (i : Nat) (s : State) : (enterData i s).rx = s.rx := rfl
@[simp] theorem enterData_imask (i : Nat) (s : State) : (enterData i s).imask = s.imask := rfl
@[simp] theorem enterData_trace (i : Nat) (s : State) : (enterData i s).trace = s.trace := rfl
@[simp] theorem enterData_mreq (i : Nat) (s : State) : (enterData i s).mreq = s.mreq := rfl
@[simp] theorem enterData_sphase (i : Nat) (s : State) : (enterData i s).sphase = s.sphase := rfl
@[simp] theorem enterData_refused (i : Nat) (s : State) : (enterData i s).refused = s.refused := rfl
@[simp] theorem enterData_faulted (i : Nat) (s : State) : (enterData i s).faulted = s.faulted := rfl
@[simp] theorem enterData_bulk (i : Nat) (s : State) : (enterData i s).bulk = s.bulk := rfl
@[simp] theorem enterData_cfg (i : Nat) (s : State) : (enterData i s).cfg = s.cfg := rfl
@[simp] theorem enterData_schedule (i : Nat) (s : State) : (enterData i s).schedule = s.schedule := rfl
@[simp] theorem enterData_probe (i : Nat) (s : State) : (enterData i s).probe = s.probe := rfl
@[simp] theorem enterData_draws (i : Nat) (s : State) : (enterData i s).draws = s.draws := rfl
@[simp] theorem enterData_result (i : Nat) (s : State) : (enterData i s).result = s.result := rfl

/-! ### initMasterRegisters -/

@[simp] theorem initMasterRegisters_harg (mode : BusMode) (s : State) : (initMasterRegisters mode s).harg = s.harg := rfl
@[simp] theorem initMasterRegisters_hres (mode : BusMode) (s : State) : (initMasterRegisters mode s).hres = s.hres := rfl
@[simp] theorem initMasterRegisters_hbuf (mode : BusMode) (s : State) : (initMasterRegisters mode s).hbuf = s.hbuf := rfl
@[simp] theorem initMasterRegisters_mctrla (mode : BusMode) (s : State) : (initMasterRegisters mode s).mctrla = mctrlaOf mode := rfl
@[simp] theorem initMasterRegisters_mctrlb (mode : BusMode) (s : State) : (initMasterRegisters mode s).mctrlb = 0x00#8 := rfl
@[simp] theorem initMasterRegisters_mstatus (mode : BusMode) (s : State) : (initMasterRegisters mode s).mstatus = 0x00#8 := rfl
@[simp] theorem initMasterRegisters_mbaud (mode : BusMode) (s : State) : (initMasterRegisters mode s).mbaud = computeBaud s.harg.toNat mode s.cfg.busClockHz := rfl
@[simp] theorem initMasterRegisters_maddr (mode : BusMode) (s : State) : (initMasterRegisters mode s).maddr = s.maddr := rfl
@[simp] theorem initMasterRegisters_mdata (mode : BusMode) (s : State) : (initMasterRegisters mode s).mdata = s.mdata := rfl
@[simp] theorem initMasterRegisters_sctrla (mode : BusMode) (s : State) : (initMasterRegisters mode s).sctrla = s.sctrla := rfl
@[simp] theorem initMasterRegisters_sctrlb (mode : BusMode) (s : State) : (initMasterRegisters mode s).sctrlb = s.sctrlb := rfl
@[simp] theorem initMasterRegisters_sstatus (mode : BusMode) (s : State) : (initMasterRegisters mode s).sstatus = s.sstatus := rfl
@[simp] theorem initMasterRegisters_saddr (mode : BusMode) (s : State) : (initMasterRegisters mode s).saddr = s.saddr := rfl
@[simp] theorem initMasterRegisters_sdata (mode : BusMode) (s : State) : (initMasterRegisters mode s).sdata = s.sdata := rfl
@[simp] theorem initMasterRegisters_mstate (mode : BusMode) (s : State) : (initMasterRegisters mode s).mstate = s.mstate := rfl
@[simp] theorem initMasterRegisters_txn (mode : BusMode) (s : State) : (initMasterRegisters mode s).txn = s.txn := rfl
@[simp] theorem initMasterRegisters_mlast (mode : BusMode) (s : State) : (initMasterRegisters mode s).mlast = s.mlast := rfl
@[simp] theorem initMasterRegisters_tx (mode : BusMode) (s : State) : (initMasterRegisters mode s).tx = s.tx := rfl
@[simp] theorem initMasterRegisters_rx (mode : BusMode) (s : State) : (initMasterRegisters mode s).rx = s.rx := rfl
@[simp] theorem initMasterRegisters_imask (mode : BusMode) (s : State) : (initMasterRegisters mode s).imask = s.imask := rfl
@[simp] theorem initMasterRegisters_trace (mode : BusMode) (s : State) : (initMasterRegisters mode s).trace = s.trace := rfl
@[simp] theorem initMasterRegisters_mreq (mode : BusMode) (s : State) : (initMasterRegisters mode s).mreq = s.mreq := rfl
@[simp] theorem initMasterRegisters_sphase (mode : BusMode) (s : State) : (initMasterRegisters mode s).sphase = s.sphase := rfl
@[simp] theorem initMasterRegisters_refused (mode : BusMode) (s : State) : (initMasterRegisters mode s).refused = s.refused := rfl
@[simp] theorem initMasterRegisters_faulted (mode : BusMode) (s : State) : (initMasterRegisters mode s).faulted = s.faulted := rfl
@[simp] theorem initMasterRegisters_bulk (mode : BusMode) (s : State) : (initMasterRegisters mode s).bulk = s.bulk := rfl
@[simp] theorem initMasterRegisters_cfg (mode : BusMode) (s : State) : (initMasterRegisters mode s).cfg = s.cfg := rfl
@[simp] theorem initMasterRegisters_schedule (mode : BusMode) (s : State) : (initMasterRegisters mode s).schedule = s.schedule := rfl
@[simp] theorem initMasterRegisters_probe (mode : BusMode) (s : State) : (initMasterRegisters mode s).probe = s.probe := rfl
@[simp] theorem initMasterRegisters_draws (mode : BusMode) (s : State) : (initMasterRegisters mode s).draws = s.draws := rfl
@[simp] theorem initMasterRegisters_result (mode : BusMode) (s : State) : (initMasterRegisters mode s).result = s.result := rfl

/-! ### initSlaveRegisters -/

@[simp] theorem initSlaveRegisters_harg (addr : BitVec 7) (s : State) : (initSlaveRegisters addr s).harg = s.harg := rfl
@[simp] theorem initSlaveRegisters_hres (addr : BitVec 7) (s : State) : (initSlaveRegisters addr s).hres = s.hres := rfl
@[simp] theorem initSlaveRegisters_hbuf (addr : BitVec 7) (s : State) : (initSlaveRegisters addr s).hbuf = s.hbuf := rfl
@[simp] theorem initSlaveRegisters_mctrla (addr : BitVec 7) (s : State) : (initSlaveRegisters addr s).mctrla = s.mctrla := rfl
@[simp] theorem initSlaveRegisters_mctrlb (addr : BitVec 7) (s : State) : (initSlaveRegisters addr s).mctrlb = s.mctrlb := rfl
@[simp] theorem initSlaveRegisters_mstatus (addr : BitVec 7) (s : State) : (initSlaveRegisters addr s).mstatus = s.mstatus := rfl
@[simp] theorem initSlaveRegisters_mbaud (addr : BitVec 7) (s : State) : (initSlaveRegisters addr s).mbaud = s.mbaud := rfl
@[simp] theorem initSlaveRegisters_maddr (addr : BitVec 7) (s : State) : (initSlaveRegisters addr s).maddr = s.maddr := rfl
@[simp] theorem initSlaveRegisters_mdata (addr : BitVec 7) (s : State) : (initSlaveRegisters addr s).mdata = s.mdata := rfl
@[simp] theorem initSlaveRegisters_sctrla (addr : BitVec 7) (s : State) : (initSlaveRegisters addr s).sctrla = sctrlaInit := rfl
@[simp] theorem initSlaveRegisters_sctrlb (addr : BitVec 7) (s : State) : (initSlaveRegisters addr s).sctrlb = s.sctrlb := rfl
@[simp] theorem initSlaveRegisters_sstatus (addr : BitVec 7) (s : State) : (initSlaveRegisters addr s).sstatus = s.sstatus := rfl
@[simp] theorem initSlaveRegisters_saddr (addr : BitVec 7) (s : State) : (initSlaveRegisters addr s).saddr = slaveAddressByte addr := rfl
@[simp] theorem initSlaveRegisters_sdata (addr : BitVec 7) (s : State) : (initSlaveRegisters addr s).sdata = s.sdata := rfl
@[simp] theorem initSlaveRegisters_mstate (addr : BitVec 7) (s : State) : (initSlaveRegisters addr s).mstate = s.mstate := rfl
@[simp] theorem initSlaveRegisters_txn (addr : BitVec 7) (s : State) : (initSlaveRegisters addr s).txn = s.txn := rfl
@[simp] theorem initSlaveRegisters_mlast (addr : BitVec 7) (s : State) : (initSlaveRegisters addr s).mlast = s.mlast := rfl
@[simp] theorem initSlaveRegisters_tx (addr : BitVec 7) (s : State) : (initSlaveRegisters addr s).tx = s.tx := rfl
@[simp] theorem initSlaveRegisters_rx (addr : BitVec 7) (s : State) : (initSlaveRegisters addr s).rx = s.rx := rfl
@[simp] theorem initSlaveRegisters_imask (addr : BitVec 7) (s : State) : (initSlaveRegisters addr s).imask = s.imask := rfl
@[simp] theorem initSlaveRegisters_trace (addr : BitVec 7) (s : State) : (initSlaveRegisters addr s).trace = s.trace := rfl
@[simp] theorem initSlaveRegisters_mreq (addr : BitVec 7) (s : State) : (initSlaveRegisters addr s).mreq = s.mreq := rfl
@[simp] theorem initSlaveRegisters_sphase (addr : BitVec 7) (s : State) : (initSlaveRegisters addr s).sphase = s.sphase := rfl
@[simp] theorem initSlaveRegisters_refused (addr : BitVec 7) (s : State) : (initSlaveRegisters addr s).refused = s.refused := rfl
@[simp] theorem initSlaveRegisters_faulted (addr : BitVec 7) (s : State) : (initSlaveRegisters addr s).faulted = s.faulted := rfl
@[simp] theorem initSlaveRegisters_bulk (addr : BitVec 7) (s : State) : (initSlaveRegisters addr s).bulk = s.bulk := rfl
@[simp] theorem initSlaveRegisters_cfg (addr : BitVec 7) (s : State) : (initSlaveRegisters addr s).cfg = s.cfg := rfl
@[simp] theorem initSlaveRegisters_schedule (addr : BitVec 7) (s : State) : (initSlaveRegisters addr s).schedule = s.schedule := rfl
@[simp] theorem initSlaveRegisters_probe (addr : BitVec 7) (s : State) : (initSlaveRegisters addr s).probe = s.probe := rfl
@[simp] theorem initSlaveRegisters_draws (addr : BitVec 7) (s : State) : (initSlaveRegisters addr s).draws = s.draws := rfl
@[simp] theorem initSlaveRegisters_result (addr : BitVec 7) (s : State) : (initSlaveRegisters addr s).result = s.result := rfl

/-! ### setSlaveAddress -/

@[simp] theorem setSlaveAddress_harg (addr : BitVec 7) (s : State) : (setSlaveAddress addr s).harg = s.harg := rfl
@[simp] theorem setSlaveAddress_hres (addr : BitVec 7) (s : State) : (setSlaveAddress addr s).hres = s.hres := rfl
@[simp] theorem setSlaveAddress_hbuf (addr : BitVec 7) (s : State) : (setSlaveAddress addr s).hbuf = s.hbuf := rfl
@[simp] theorem setSlaveAddress_mctrla (addr : BitVec 7) (s : State) : (setSlaveAddress addr s).mctrla = s.mctrla := rfl
@[simp] theorem setSlaveAddress_mctrlb (addr : BitVec 7) (s : State) : (setSlaveAddress addr s).mctrlb = s.mctrlb := rfl
@[simp] theorem setSlaveAddress_mstatus (addr : BitVec 7) (s : State) : (setSlaveAddress addr s).mstatus = s.mstatus := rfl
@[simp] theorem setSlaveAddress_mbaud (addr : BitVec 7) (s : State) : (setSlaveAddress addr s).mbaud = s.mbaud := rfl
@[simp] theorem setSlaveAddress_maddr (addr : BitVec 7) (s : State) : (setSlaveAddress addr s).maddr = s.maddr := rfl
@[simp] theorem setSlaveAddress_mdata (addr : BitVec 7) (s : State) : (setSlaveAddress addr s).mdata = s.mdata := rfl
@[simp] theorem setSlaveAddress_sctrla (addr : BitVec 7) (s : State) : (setSlaveAddress addr s).sctrla = s.sctrla := rfl
@[simp] theorem setSlaveAddress_sctrlb (addr : BitVec 7) (s : State) : (setSlaveAddress addr s).sctrlb = s.sctrlb := rfl
@[simp] theorem setSlaveAddress_sstatus (addr : BitVec 7) (s : State) : (setSlaveAddress addr s).sstatus = s.sstatus := rfl
@[simp] theorem setSlaveAddress_saddr (addr : BitVec 7) (s : State) : (setSlaveAddress addr s).saddr = slaveAddressByte addr := rfl
@[simp] theorem setSlaveAddress_sdata (addr : BitVec 7) (s : State) : (setSlaveAddress addr s).sdata = s.sdata := rfl
@[simp] theorem setSlaveAddress_mstate (addr : BitVec 7) (s : State) : (setSlaveAddress addr s).mstate = s.mstate := rfl
@[simp] theorem setSlaveAddress_txn (addr : BitVec 7) (s : State) : (setSlaveAddress addr s).txn = s.txn := rfl
@[simp] theorem setSlaveAddress_mlast (addr : BitVec 7) (s : State) : (setSlaveAddress addr s).mlast = s.mlast := rfl
@[simp] theorem setSlaveAddress_tx (addr : BitVec 7) (s : State) : (setSlaveAddress addr s).tx = s.tx := rfl
@[simp] theorem setSlaveAddress_rx (addr : BitVec 7) (s : State) : (setSlaveAddress addr s).rx = s.rx := rfl
@[simp] theorem setSlaveAddress_imask (addr : BitVec 7) (s : State) : (setSlaveAddress addr s).imask = s.imask := rfl
@[simp] theorem setSlaveAddress_trace (addr : BitVec 7) (s : State) : (setSlaveAddress addr s).trace = s.trace := rfl
@[simp] theorem setSlaveAddress_mreq (addr : BitVec 7) (s : State) : (setSlaveAddress addr s).mreq = s.mreq := rfl
@[simp] theorem setSlaveAddress_sphase (addr : BitVec 7) (s : State) : (setSlaveAddress addr s).sphase = s.sphase := rfl
@[simp] theorem setSlaveAddress_refused (addr : BitVec 7) (s : State) : (setSlaveAddress addr s).refused = s.refused := rfl
@[simp] theorem setSlaveAddress_faulted (addr : BitVec 7) (s : State) : (setSlaveAddress addr s).faulted = s.faulted := rfl
@[simp] theorem setSlaveAddress_bulk (addr : BitVec 7) (s : State) : (setSlaveAddress addr s).bulk = s.bulk := rfl
@[simp] theorem setSlaveAddress_cfg (addr : BitVec 7) (s : State) : (setSlaveAddress addr s).cfg = s.cfg := rfl
@[simp] theorem setSlaveAddress_schedule (addr : BitVec 7) (s : State) : (setSlaveAddress addr s).schedule = s.schedule := rfl
@[simp] theorem setSlaveAddress_probe (addr : BitVec 7) (s : State) : (setSlaveAddress addr s).probe = s.probe := rfl
@[simp] theorem setSlaveAddress_draws (addr : BitVec 7) (s : State) : (setSlaveAddress addr s).draws = s.draws := rfl
@[simp] theorem setSlaveAddress_result (addr : BitVec 7) (s : State) : (setSlaveAddress addr s).result = s.result := rfl

/-! ### setSchedule -/

@[simp] theorem setSchedule_harg (l : List Turn) (s : State) : (setSchedule l s).harg = s.harg := rfl
@[simp] theorem setSchedule_hres (l : List Turn) (s : State) : (setSchedule l s).hres = s.hres := rfl
@[simp] theorem setSchedule_hbuf (l : List Turn) (s : State) : (setSchedule l s).hbuf = s.hbuf := rfl
@[simp] theorem setSchedule_mctrla (l : List Turn) (s : State) : (setSchedule l s).mctrla = s.mctrla := rfl
@[simp] theorem setSchedule_mctrlb (l : List Turn) (s : State) : (setSchedule l s).mctrlb = s.mctrlb := rfl
@[simp] theorem setSchedule_mstatus (l : List Turn) (s : State) : (setSchedule l s).mstatus = s.mstatus := rfl
@[simp] theorem setSchedule_mbaud (l : List Turn) (s : State) : (setSchedule l s).mbaud = s.mbaud := rfl
@[simp] theorem setSchedule_maddr (l : List Turn) (s : State) : (setSchedule l s).maddr = s.maddr := rfl
@[simp] theorem setSchedule_mdata (l : List Turn) (s : State) : (setSchedule l s).mdata = s.mdata := rfl
@[simp] theorem setSchedule_sctrla (l : List Turn) (s : State) : (setSchedule l s).sctrla = s.sctrla := rfl
@[simp] theorem setSchedule_sctrlb (l : List Turn) (s : State) : (setSchedule l s).sctrlb = s.sctrlb := rfl
@[simp] theorem setSchedule_sstatus (l : List Turn) (s : State) : (setSchedule l s).sstatus = s.sstatus := rfl
@[simp] theorem setSchedule_saddr (l : List Turn) (s : State) : (setSchedule l s).saddr = s.saddr := rfl
@[simp] theorem setSchedule_sdata (l : List Turn) (s : State) : (setSchedule l s).sdata = s.sdata := rfl
@[simp] theorem setSchedule_mstate (l : List Turn) (s : State) : (setSchedule l s).mstate = s.mstate := rfl
@[simp] theorem setSchedule_txn (l : List Turn) (s : State) : (setSchedule l s).txn = s.txn := rfl
@[simp] theorem setSchedule_mlast (l : List Turn) (s : State) : (setSchedule l s).mlast = s.mlast := rfl
@[simp] theorem setSchedule_tx (l : List Turn) (s : State) : (setSchedule l s).tx = s.tx := rfl
@[simp] theorem setSchedule_rx (l : List Turn) (s : State) : (setSchedule l s).rx = s.rx := rfl
@[simp] theorem setSchedule_imask (l : List Turn) (s : State) : (setSchedule l s).imask = s.imask := rfl
@[simp] theorem setSchedule_trace (l : List Turn) (s : State) : (setSchedule l s).trace = s.trace := rfl
@[simp] theorem setSchedule_mreq (l : List Turn) (s : State) : (setSchedule l s).mreq = s.mreq := rfl
@[simp] theorem setSchedule_sphase (l : List Turn) (s : State) : (setSchedule l s).sphase = s.sphase := rfl
@[simp] theorem setSchedule_refused (l : List Turn) (s : State) : (setSchedule l s).refused = s.refused := rfl
@[simp] theorem setSchedule_faulted (l : List Turn) (s : State) : (setSchedule l s).faulted = s.faulted := rfl
@[simp] theorem setSchedule_bulk (l : List Turn) (s : State) : (setSchedule l s).bulk = s.bulk := rfl
@[simp] theorem setSchedule_cfg (l : List Turn) (s : State) : (setSchedule l s).cfg = s.cfg := rfl
@[simp] theorem setSchedule_schedule (l : List Turn) (s : State) : (setSchedule l s).schedule = l := rfl
@[simp] theorem setSchedule_probe (l : List Turn) (s : State) : (setSchedule l s).probe = s.probe := rfl
@[simp] theorem setSchedule_draws (l : List Turn) (s : State) : (setSchedule l s).draws = s.draws := rfl
@[simp] theorem setSchedule_result (l : List Turn) (s : State) : (setSchedule l s).result = s.result := rfl

/-! ### countDraw -/

@[simp] theorem countDraw_harg (s : State) : (countDraw s).harg = s.harg := rfl
@[simp] theorem countDraw_hres (s : State) : (countDraw s).hres = s.hres := rfl
@[simp] theorem countDraw_hbuf (s : State) : (countDraw s).hbuf = s.hbuf := rfl
@[simp] theorem countDraw_mctrla (s : State) : (countDraw s).mctrla = s.mctrla := rfl
@[simp] theorem countDraw_mctrlb (s : State) : (countDraw s).mctrlb = s.mctrlb := rfl
@[simp] theorem countDraw_mstatus (s : State) : (countDraw s).mstatus = s.mstatus := rfl
@[simp] theorem countDraw_mbaud (s : State) : (countDraw s).mbaud = s.mbaud := rfl
@[simp] theorem countDraw_maddr (s : State) : (countDraw s).maddr = s.maddr := rfl
@[simp] theorem countDraw_mdata (s : State) : (countDraw s).mdata = s.mdata := rfl
@[simp] theorem countDraw_sctrla (s : State) : (countDraw s).sctrla = s.sctrla := rfl
@[simp] theorem countDraw_sctrlb (s : State) : (countDraw s).sctrlb = s.sctrlb := rfl
@[simp] theorem countDraw_sstatus (s : State) : (countDraw s).sstatus = s.sstatus := rfl
@[simp] theorem countDraw_saddr (s : State) : (countDraw s).saddr = s.saddr := rfl
@[simp] theorem countDraw_sdata (s : State) : (countDraw s).sdata = s.sdata := rfl
@[simp] theorem countDraw_mstate (s : State) : (countDraw s).mstate = s.mstate := rfl
@[simp] theorem countDraw_txn (s : State) : (countDraw s).txn = s.txn := rfl
@[simp] theorem countDraw_mlast (s : State) : (countDraw s).mlast = s.mlast := rfl
@[simp] theorem countDraw_tx (s : State) : (countDraw s).tx = s.tx := rfl
@[simp] theorem countDraw_rx (s : State) : (countDraw s).rx = s.rx := rfl
@[simp] theorem countDraw_imask (s : State) : (countDraw s).imask = s.imask := rfl
@[simp] theorem countDraw_trace (s : State) : (countDraw s).trace = s.trace := rfl
@[simp] theorem countDraw_mreq (s : State) : (countDraw s).mreq = s.mreq := rfl
@[simp] theorem countDraw_sphase (s : State) : (countDraw s).sphase = s.sphase := rfl
@[simp] theorem countDraw_refused (s : State) : (countDraw s).refused = s.refused := rfl
@[simp] theorem countDraw_faulted (s : State) : (countDraw s).faulted = s.faulted := rfl
@[simp] theorem countDraw_bulk (s : State) : (countDraw s).bulk = s.bulk := rfl
@[simp] theorem countDraw_cfg (s : State) : (countDraw s).cfg = s.cfg := rfl
@[simp] theorem countDraw_schedule (s : State) : (countDraw s).schedule = s.schedule := rfl
@[simp] theorem countDraw_probe (s : State) : (countDraw s).probe = s.probe := rfl
@[simp] theorem countDraw_draws (s : State) : (countDraw s).draws = s.draws + 1 := rfl
@[simp] theorem countDraw_result (s : State) : (countDraw s).result = s.result := rfl

/-! ### clearProbe -/

@[simp] theorem clearProbe_harg (s : State) : (clearProbe s).harg = s.harg := rfl
@[simp] theorem clearProbe_hres (s : State) : (clearProbe s).hres = s.hres := rfl
@[simp] theorem clearProbe_hbuf (s : State) : (clearProbe s).hbuf = s.hbuf := rfl
@[simp] theorem clearProbe_mctrla (s : State) : (clearProbe s).mctrla = s.mctrla := rfl
@[simp] theorem clearProbe_mctrlb (s : State) : (clearProbe s).mctrlb = s.mctrlb := rfl
@[simp] theorem clearProbe_mstatus (s : State) : (clearProbe s).mstatus = s.mstatus := rfl
@[simp] theorem clearProbe_mbaud (s : State) : (clearProbe s).mbaud = s.mbaud := rfl
@[simp] theorem clearProbe_maddr (s : State) : (clearProbe s).maddr = s.maddr := rfl
@[simp] theorem clearProbe_mdata (s : State) : (clearProbe s).mdata = s.mdata := rfl
@[simp] theorem clearProbe_sctrla (s : State) : (clearProbe s).sctrla = s.sctrla := rfl
@[simp] theorem clearProbe_sctrlb (s : State) : (clearProbe s).sctrlb = s.sctrlb := rfl
@[simp] theorem clearProbe_sstatus (s : State) : (clearProbe s).sstatus = s.sstatus := rfl
@[simp] theorem clearProbe_saddr (s : State) : (clearProbe s).saddr = s.saddr := rfl
@[simp] theorem clearProbe_sdata (s : State) : (clearProbe s).sdata = s.sdata := rfl
@[simp] theorem clearProbe_mstate (s : State) : (clearProbe s).mstate = s.mstate := rfl
@[simp] theorem clearProbe_txn (s : State) : (clearProbe s).txn = s.txn := rfl
@[simp] theorem clearProbe_mlast (s : State) : (clearProbe s).mlast = s.mlast := rfl
@[simp] theorem clearProbe_tx (s : State) : (clearProbe s).tx = s.tx := rfl
@[simp] theorem clearProbe_rx (s : State) : (clearProbe s).rx = s.rx := rfl
@[simp] theorem clearProbe_imask (s : State) : (clearProbe s).imask = s.imask := rfl
@[simp] theorem clearProbe_trace (s : State) : (clearProbe s).trace = s.trace := rfl
@[simp] theorem clearProbe_mreq (s : State) : (clearProbe s).mreq = s.mreq := rfl
@[simp] theorem clearProbe_sphase (s : State) : (clearProbe s).sphase = s.sphase := rfl
@[simp] theorem clearProbe_refused (s : State) : (clearProbe s).refused = s.refused := rfl
@[simp] theorem clearProbe_faulted (s : State) : (clearProbe s).faulted = s.faulted := rfl
@[simp] theorem clearProbe_bulk (s : State) : (clearProbe s).bulk = s.bulk := rfl
@[simp] theorem clearProbe_cfg (s : State) : (clearProbe s).cfg = s.cfg := rfl
@[simp] theorem clearProbe_schedule (s : State) : (clearProbe s).schedule = s.schedule := rfl
@[simp] theorem clearProbe_probe (s : State) : (clearProbe s).probe = none := rfl
@[simp] theorem clearProbe_draws (s : State) : (clearProbe s).draws = s.draws := rfl
@[simp] theorem clearProbe_result (s : State) : (clearProbe s).result = s.result := rfl

/-! ### markRefused -/

@[simp] theorem markRefused_harg (r : Refusal) (s : State) : (markRefused r s).harg = s.harg := rfl
@[simp] theorem markRefused_hres (r : Refusal) (s : State) : (markRefused r s).hres = s.hres := rfl
@[simp] theorem markRefused_hbuf (r : Refusal) (s : State) : (markRefused r s).hbuf = s.hbuf := rfl
@[simp] theorem markRefused_mctrla (r : Refusal) (s : State) : (markRefused r s).mctrla = s.mctrla := rfl
@[simp] theorem markRefused_mctrlb (r : Refusal) (s : State) : (markRefused r s).mctrlb = s.mctrlb := rfl
@[simp] theorem markRefused_mstatus (r : Refusal) (s : State) : (markRefused r s).mstatus = s.mstatus := rfl
@[simp] theorem markRefused_mbaud (r : Refusal) (s : State) : (markRefused r s).mbaud = s.mbaud := rfl
@[simp] theorem markRefused_maddr (r : Refusal) (s : State) : (markRefused r s).maddr = s.maddr := rfl
@[simp] theorem markRefused_mdata (r : Refusal) (s : State) : (markRefused r s).mdata = s.mdata := rfl
@[simp] theorem markRefused_sctrla (r : Refusal) (s : State) : (markRefused r s).sctrla = s.sctrla := rfl
@[simp] theorem markRefused_sctrlb (r : Refusal) (s : State) : (markRefused r s).sctrlb = s.sctrlb := rfl
@[simp] theorem markRefused_sstatus (r : Refusal) (s : State) : (markRefused r s).sstatus = s.sstatus := rfl
@[simp] theorem markRefused_saddr (r : Refusal) (s : State) : (markRefused r s).saddr = s.saddr := rfl
@[simp] theorem markRefused_sdata (r : Refusal) (s : State) : (markRefused r s).sdata = s.sdata := rfl
@[simp] theorem markRefused_mstate (r : Refusal) (s : State) : (markRefused r s).mstate = s.mstate := rfl
@[simp] theorem markRefused_txn (r : Refusal) (s : State) : (markRefused r s).txn = s.txn := rfl
@[simp] theorem markRefused_mlast (r : Refusal) (s : State) : (markRefused r s).mlast = s.mlast := rfl
@[simp] theorem markRefused_tx (r : Refusal) (s : State) : (markRefused r s).tx = s.tx := rfl
@[simp] theorem markRefused_rx (r : Refusal) (s : State) : (markRefused r s).rx = s.rx := rfl
@[simp] theorem markRefused_imask (r : Refusal) (s : State) : (markRefused r s).imask = s.imask := rfl
@[simp] theorem markRefused_trace (r : Refusal) (s : State) : (markRefused r s).trace = s.trace := rfl
@[simp] theorem markRefused_mreq (r : Refusal) (s : State) : (markRefused r s).mreq = s.mreq := rfl
@[simp] theorem markRefused_sphase (r : Refusal) (s : State) : (markRefused r s).sphase = s.sphase := rfl
@[simp] theorem markRefused_refused (r : Refusal) (s : State) : (markRefused r s).refused = match s.refused with | some q => some q | none => some r := rfl
@[simp] theorem markRefused_faulted (r : Refusal) (s : State) : (markRefused r s).faulted = s.faulted := rfl
@[simp] theorem markRefused_bulk (r : Refusal) (s : State) : (markRefused r s).bulk = s.bulk := rfl
@[simp] theorem markRefused_cfg (r : Refusal) (s : State) : (markRefused r s).cfg = s.cfg := rfl
@[simp] theorem markRefused_schedule (r : Refusal) (s : State) : (markRefused r s).schedule = s.schedule := rfl
@[simp] theorem markRefused_probe (r : Refusal) (s : State) : (markRefused r s).probe = s.probe := rfl
@[simp] theorem markRefused_draws (r : Refusal) (s : State) : (markRefused r s).draws = s.draws := rfl
@[simp] theorem markRefused_result (r : Refusal) (s : State) : (markRefused r s).result = s.result := rfl

/-! ### markFault -/

@[simp] theorem markFault_harg (f : Fault) (s : State) : (markFault f s).harg = s.harg := rfl
@[simp] theorem markFault_hres (f : Fault) (s : State) : (markFault f s).hres = s.hres := rfl
@[simp] theorem markFault_hbuf (f : Fault) (s : State) : (markFault f s).hbuf = s.hbuf := rfl
@[simp] theorem markFault_mctrla (f : Fault) (s : State) : (markFault f s).mctrla = s.mctrla := rfl
@[simp] theorem markFault_mctrlb (f : Fault) (s : State) : (markFault f s).mctrlb = s.mctrlb := rfl
@[simp] theorem markFault_mstatus (f : Fault) (s : State) : (markFault f s).mstatus = s.mstatus := rfl
@[simp] theorem markFault_mbaud (f : Fault) (s : State) : (markFault f s).mbaud = s.mbaud := rfl
@[simp] theorem markFault_maddr (f : Fault) (s : State) : (markFault f s).maddr = s.maddr := rfl
@[simp] theorem markFault_mdata (f : Fault) (s : State) : (markFault f s).mdata = s.mdata := rfl
@[simp] theorem markFault_sctrla (f : Fault) (s : State) : (markFault f s).sctrla = s.sctrla := rfl
@[simp] theorem markFault_sctrlb (f : Fault) (s : State) : (markFault f s).sctrlb = s.sctrlb := rfl
@[simp] theorem markFault_sstatus (f : Fault) (s : State) : (markFault f s).sstatus = s.sstatus := rfl
@[simp] theorem markFault_saddr (f : Fault) (s : State) : (markFault f s).saddr = s.saddr := rfl
@[simp] theorem markFault_sdata (f : Fault) (s : State) : (markFault f s).sdata = s.sdata := rfl
@[simp] theorem markFault_mstate (f : Fault) (s : State) : (markFault f s).mstate = s.mstate := rfl
@[simp] theorem markFault_txn (f : Fault) (s : State) : (markFault f s).txn = s.txn := rfl
@[simp] theorem markFault_mlast (f : Fault) (s : State) : (markFault f s).mlast = s.mlast := rfl
@[simp] theorem markFault_tx (f : Fault) (s : State) : (markFault f s).tx = s.tx := rfl
@[simp] theorem markFault_rx (f : Fault) (s : State) : (markFault f s).rx = s.rx := rfl
@[simp] theorem markFault_imask (f : Fault) (s : State) : (markFault f s).imask = s.imask := rfl
@[simp] theorem markFault_trace (f : Fault) (s : State) : (markFault f s).trace = s.trace := rfl
@[simp] theorem markFault_mreq (f : Fault) (s : State) : (markFault f s).mreq = s.mreq := rfl
@[simp] theorem markFault_sphase (f : Fault) (s : State) : (markFault f s).sphase = s.sphase := rfl
@[simp] theorem markFault_refused (f : Fault) (s : State) : (markFault f s).refused = s.refused := rfl
@[simp] theorem markFault_faulted (f : Fault) (s : State) : (markFault f s).faulted = some f := rfl
@[simp] theorem markFault_bulk (f : Fault) (s : State) : (markFault f s).bulk = s.bulk := rfl
@[simp] theorem markFault_cfg (f : Fault) (s : State) : (markFault f s).cfg = s.cfg := rfl
@[simp] theorem markFault_schedule (f : Fault) (s : State) : (markFault f s).schedule = s.schedule := rfl
@[simp] theorem markFault_probe (f : Fault) (s : State) : (markFault f s).probe = s.probe := rfl
@[simp] theorem markFault_draws (f : Fault) (s : State) : (markFault f s).draws = s.draws := rfl
@[simp] theorem markFault_result (f : Fault) (s : State) : (markFault f s).result = s.result := rfl

/-! ### setImask -/

@[simp] theorem setImask_harg (v : Bool) (s : State) : (setImask v s).harg = s.harg := rfl
@[simp] theorem setImask_hres (v : Bool) (s : State) : (setImask v s).hres = s.hres := rfl
@[simp] theorem setImask_hbuf (v : Bool) (s : State) : (setImask v s).hbuf = s.hbuf := rfl
@[simp] theorem setImask_mctrla (v : Bool) (s : State) : (setImask v s).mctrla = s.mctrla := rfl
@[simp] theorem setImask_mctrlb (v : Bool) (s : State) : (setImask v s).mctrlb = s.mctrlb := rfl
@[simp] theorem setImask_mstatus (v : Bool) (s : State) : (setImask v s).mstatus = s.mstatus := rfl
@[simp] theorem setImask_mbaud (v : Bool) (s : State) : (setImask v s).mbaud = s.mbaud := rfl
@[simp] theorem setImask_maddr (v : Bool) (s : State) : (setImask v s).maddr = s.maddr := rfl
@[simp] theorem setImask_mdata (v : Bool) (s : State) : (setImask v s).mdata = s.mdata := rfl
@[simp] theorem setImask_sctrla (v : Bool) (s : State) : (setImask v s).sctrla = s.sctrla := rfl
@[simp] theorem setImask_sctrlb (v : Bool) (s : State) : (setImask v s).sctrlb = s.sctrlb := rfl
@[simp] theorem setImask_sstatus (v : Bool) (s : State) : (setImask v s).sstatus = s.sstatus := rfl
@[simp] theorem setImask_saddr (v : Bool) (s : State) : (setImask v s).saddr = s.saddr := rfl
@[simp] theorem setImask_sdata (v : Bool) (s : State) : (setImask v s).sdata = s.sdata := rfl
@[simp] theorem setImask_mstate (v : Bool) (s : State) : (setImask v s).mstate = s.mstate := rfl
@[simp] theorem setImask_txn (v : Bool) (s : State) : (setImask v s).txn = s.txn := rfl
@[simp] theorem setImask_mlast (v : Bool) (s : State) : (setImask v s).mlast = s.mlast := rfl
@[simp] theorem setImask_tx (v : Bool) (s : State) : (setImask v s).tx = s.tx := rfl
@[simp] theorem setImask_rx (v : Bool) (s : State) : (setImask v s).rx = s.rx := rfl
@[simp] theorem setImask_imask (v : Bool) (s : State) : (setImask v s).imask = v := rfl
@[simp] theorem setImask_trace (v : Bool) (s : State) : (setImask v s).trace = s.trace := rfl
@[simp] theorem setImask_mreq (v : Bool) (s : State) : (setImask v s).mreq = s.mreq := rfl
@[simp] theorem setImask_sphase (v : Bool) (s : State) : (setImask v s).sphase = s.sphase := rfl
@[simp] theorem setImask_refused (v : Bool) (s : State) : (setImask v s).refused = s.refused := rfl
@[simp] theorem setImask_faulted (v : Bool) (s : State) : (setImask v s).faulted = s.faulted := rfl
@[simp] theorem setImask_bulk (v : Bool) (s : State) : (setImask v s).bulk = s.bulk := rfl
@[simp] theorem setImask_cfg (v : Bool) (s : State) : (setImask v s).cfg = s.cfg := rfl
@[simp] theorem setImask_schedule (v : Bool) (s : State) : (setImask v s).schedule = s.schedule := rfl
@[simp] theorem setImask_probe (v : Bool) (s : State) : (setImask v s).probe = s.probe := rfl
@[simp] theorem setImask_draws (v : Bool) (s : State) : (setImask v s).draws = s.draws := rfl
@[simp] theorem setImask_result (v : Bool) (s : State) : (setImask v s).result = s.result := rfl

/-! ### startTransaction -/

@[simp] theorem startTransaction_harg (a : BitVec 7) (d : Dir) (n : Nat) (s : State) : (startTransaction a d n s).harg = s.harg := rfl
@[simp] theorem startTransaction_hres (a : BitVec 7) (d : Dir) (n : Nat) (s : State) : (startTransaction a d n s).hres = s.hres := rfl
@[simp] theorem startTransaction_hbuf (a : BitVec 7) (d : Dir) (n : Nat) (s : State) : (startTransaction a d n s).hbuf = s.hbuf := rfl
@[simp] theorem startTransaction_mctrla (a : BitVec 7) (d : Dir) (n : Nat) (s : State) : (startTransaction a d n s).mctrla = s.mctrla := rfl
@[simp] theorem startTransaction_mctrlb (a : BitVec 7) (d : Dir) (n : Nat) (s : State) : (startTransaction a d n s).mctrlb = s.mctrlb := rfl
@[simp] theorem startTransaction_mstatus (a : BitVec 7) (d : Dir) (n : Nat) (s : State) : (startTransaction a d n s).mstatus = mClearAll s.mstatus := rfl
@[simp] theorem startTransaction_mbaud (a : BitVec 7) (d : Dir) (n : Nat) (s : State) : (startTransaction a d n s).mbaud = s.mbaud := rfl
@[simp] theorem startTransaction_maddr (a : BitVec 7) (d : Dir) (n : Nat) (s : State) : (startTransaction a d n s).maddr = addressByte a d := rfl
@[simp] theorem startTransaction_mdata (a : BitVec 7) (d : Dir) (n : Nat) (s : State) : (startTransaction a d n s).mdata = s.mdata := rfl
@[simp] theorem startTransaction_sctrla (a : BitVec 7) (d : Dir) (n : Nat) (s : State) : (startTransaction a d n s).sctrla = s.sctrla := rfl
@[simp] theorem startTransaction_sctrlb (a : BitVec 7) (d : Dir) (n : Nat) (s : State) : (startTransaction a d n s).sctrlb = s.sctrlb := rfl
@[simp] theorem startTransaction_sstatus (a : BitVec 7) (d : Dir) (n : Nat) (s : State) : (startTransaction a d n s).sstatus = s.sstatus := rfl
@[simp] theorem startTransaction_saddr (a : BitVec 7) (d : Dir) (n : Nat) (s : State) : (startTransaction a d n s).saddr = s.saddr := rfl
@[simp] theorem startTransaction_sdata (a : BitVec 7) (d : Dir) (n : Nat) (s : State) : (startTransaction a d n s).sdata = s.sdata := rfl
@[simp] theorem startTransaction_mstate (a : BitVec 7) (d : Dir) (n : Nat) (s : State) : (startTransaction a d n s).mstate = .addressPhase := rfl
@[simp] theorem startTransaction_txn (a : BitVec 7) (d : Dir) (n : Nat) (s : State) : (startTransaction a d n s).txn = some { addr7 := a, dir := d, n := n } := rfl
@[simp] theorem startTransaction_mlast (a : BitVec 7) (d : Dir) (n : Nat) (s : State) : (startTransaction a d n s).mlast = s.mlast := rfl
@[simp] theorem startTransaction_tx (a : BitVec 7) (d : Dir) (n : Nat) (s : State) : (startTransaction a d n s).tx = s.tx := rfl
@[simp] theorem startTransaction_rx (a : BitVec 7) (d : Dir) (n : Nat) (s : State) : (startTransaction a d n s).rx = s.rx := rfl
@[simp] theorem startTransaction_imask (a : BitVec 7) (d : Dir) (n : Nat) (s : State) : (startTransaction a d n s).imask = s.imask := rfl
@[simp] theorem startTransaction_trace (a : BitVec 7) (d : Dir) (n : Nat) (s : State) : (startTransaction a d n s).trace = s.trace ++ [.mStart a d] := rfl
@[simp] theorem startTransaction_mreq (a : BitVec 7) (d : Dir) (n : Nat) (s : State) : (startTransaction a d n s).mreq = .addr d := rfl
@[simp] theorem startTransaction_sphase (a : BitVec 7) (d : Dir) (n : Nat) (s : State) : (startTransaction a d n s).sphase = s.sphase := rfl
@[simp] theorem startTransaction_refused (a : BitVec 7) (d : Dir) (n : Nat) (s : State) : (startTransaction a d n s).refused = s.refused := rfl
@[simp] theorem startTransaction_faulted (a : BitVec 7) (d : Dir) (n : Nat) (s : State) : (startTransaction a d n s).faulted = s.faulted := rfl
@[simp] theorem startTransaction_bulk (a : BitVec 7) (d : Dir) (n : Nat) (s : State) : (startTransaction a d n s).bulk = s.bulk := rfl
@[simp] theorem startTransaction_cfg (a : BitVec 7) (d : Dir) (n : Nat) (s : State) : (startTransaction a d n s).cfg = s.cfg := rfl
@[simp] theorem startTransaction_schedule (a : BitVec 7) (d : Dir) (n : Nat) (s : State) : (startTransaction a d n s).schedule = s.schedule := rfl
@[simp] theorem startTransaction_probe (a : BitVec 7) (d : Dir) (n : Nat) (s : State) : (startTransaction a d n s).probe = s.probe := rfl
@[simp] theorem startTransaction_draws (a : BitVec 7) (d : Dir) (n : Nat) (s : State) : (startTransaction a d n s).draws = s.draws := rfl
@[simp] theorem startTransaction_result (a : BitVec 7) (d : Dir) (n : Nat) (s : State) : (startTransaction a d n s).result = s.result := rfl

end Sys2Proof.Machine
end

