-- ==== Sys2Proof/Laws/Ops.lean ====
section
/-! SUPPORT. One lemma per shared operation, saying everything it can do; later proofs cite these and do not unfold the
operations. -/

namespace Sys2Proof.Machine

/-! ### Outcomes -/

/-- An operation's outcome is a next state exactly when it answers that state. -/
@[simp] theorem finish_next {x : Except Stop State} {t : State} : finish x = .next t ↔ x = .ok t := by
  rcases x with (⟨f⟩ | ⟨r⟩) | s <;> simp [finish]

@[simp] theorem finish_ok (t : State) : finish (.ok t) = .next t := rfl

@[simp] theorem finish_fault (f : Fault) : finish (.error (.fault f)) = .fault f := rfl

@[simp] theorem finish_refuse (r : Refusal) : finish (.error (.refuse r)) = .refused r := rfl

/-- A host command gives a next state only while the block is not busy, and then the command's own. -/
theorem whenIdle_next {s t : State} {run : State → Except Stop State} :
    whenIdle s run = .next t ↔ busy s = false ∧ run s = .ok t := by
  cases h : busy s <;> simp [whenIdle, h]

/-- While not busy, a host command is its own run. -/
theorem whenIdle_idle {s : State} (h : busy s = false) (run : State → Except Stop State) :
    whenIdle s run = finish (run s) := by simp [whenIdle, h]

/-- A counting command runs exactly when its count is at most the capacity. -/
theorem countChecked_ok {n : Byte} {s t : State} {run : State → Except Stop State} :
    countChecked n s run = .ok t ↔ n.toNat ≤ s.cfg.capacity ∧ run s = .ok t := by
  by_cases h : n.toNat ≤ s.cfg.capacity <;> simp [countChecked, h]

/-! ### HBUF -/

/-- HBUF[i] is read exactly when it is listed. -/
theorem hbufRead_ok {s : State} {i : Nat} {b : Byte} :
    hbufRead s i = .ok b ↔ Memory.read hbufBlank s.hbuf i = some b := by
  unfold hbufRead
  cases Memory.read hbufBlank s.hbuf i <;> simp

/-- A read of HBUF[i] that gives no byte is the fault UnwrittenRead(HBUF[i]). -/
theorem hbufRead_error {s : State} {i : Nat} {e : Stop} (h : hbufRead s i = .error e) :
    e = .fault (.unwrittenRead i) := by
  unfold hbufRead at h
  cases hr : Memory.read hbufBlank s.hbuf i <;> simp [hr] at h
  exact h.symm

/-- The fresh draws of R168 change HBUF and the counter only. -/
theorem hbufUnspecified_frame (n i : Nat) (s : State) :
    hbufUnspecified n i s =
      { s with hbuf := (hbufUnspecified n i s).hbuf, draws := s.draws + n } := by
  induction n generalizing i s with
  | zero => rfl
  | succ n ih =>
    rw [hbufUnspecified, ih]
    simp [Nat.add_assoc, Nat.add_comm 1 n]

/-- The fresh draws keep HBUF canonical. -/
theorem hbufUnspecified_wf (n i : Nat) (s : State) (h : Memory.wf hbufBlank s.hbuf = true) :
    Memory.wf hbufBlank (hbufUnspecified n i s).hbuf = true := by
  induction n generalizing i s with
  | zero => exact h
  | succ n ih => exact ih _ _ (Memory.wf_write _ _ h)

/-- Each entry the fresh draws cover reads as its own free value, and every other entry as before. -/
theorem hbufUnspecified_read (n i : Nat) (s : State) (h : Memory.wf hbufBlank s.hbuf = true) (a : Nat) :
    Memory.read hbufBlank (hbufUnspecified n i s).hbuf a =
      if i ≤ a ∧ a < i + n then some (Config.freeByte (s.draws + (a - i)))
      else Memory.read hbufBlank s.hbuf a := by
  induction n generalizing i s with
  | zero =>
    have h0 : ¬ (i ≤ a ∧ a < i + 0) := by omega
    rw [if_neg h0, hbufUnspecified]
  | succ n ih =>
    rw [hbufUnspecified, ih (i + 1) _ (Memory.wf_write i (Config.freeByte s.draws) h)]
    by_cases h1 : a = i
    · subst h1
      simp [Memory.read_write_same a _ h]
    · by_cases h2 : i ≤ a ∧ a < i + (n + 1)
      · have h3 : i + 1 ≤ a ∧ a < i + 1 + n := by omega
        have h4 : s.draws + 1 + (a - (i + 1)) = s.draws + (a - i) := by omega
        simp [h2, h3, h4]
      · have h3 : ¬ (i + 1 ≤ a ∧ a < i + 1 + n) := by omega
        simp only [h2, h3, if_false]
        exact Memory.read_write_other _ h h1

/-! ### Ring buffers -/

/-- RB_WRITE succeeds exactly when the ring is not full (R100). -/
theorem Ring.write_ok {c : Nat} {r q : Ring} {b : Byte} :
    r.write c b = .ok q ↔ r.length ≠ c ∧
      q = { r with store := Memory.write ringBlank r.store ((r.head + r.length) % c) b, length := r.length + 1 } := by
  by_cases h : r.length = c <;> simp [Ring.write, h, eq_comm]

/-- RB_READ succeeds exactly when the ring is not empty (R101). -/
theorem Ring.read_ok {c : Nat} {r q : Ring} {b : Byte} :
    r.read c = .ok (b, q) ↔ r.length ≠ 0 ∧ b = ringCell r.store r.head ∧
      q = { r with head := (r.head + 1) % c, length := r.length - 1 } := by
  by_cases h : r.length = 0 <;> simp [Ring.read, h, eq_comm]

/-- A full ring answers NoMemory, and that is its only error. -/
theorem Ring.write_error {c : Nat} {r : Ring} {b : Byte} {e : ErrorCode} :
    r.write c b = .error e ↔ r.length = c ∧ e = .noMemory := by
  by_cases h : r.length = c <;> simp [Ring.write, h, eq_comm]

/-- An empty ring answers NoData, and that is its only error. -/
theorem Ring.read_error {c : Nat} {r : Ring} {e : ErrorCode} :
    r.read c = .error e ↔ r.length = 0 ∧ e = .noData := by
  by_cases h : r.length = 0 <;> simp [Ring.read, h, eq_comm]

/-- A write keeps a ring in range. -/
theorem Ring.bounded_write {c : Nat} {r q : Ring} {b : Byte} (h : r.head < c ∧ r.length ≤ c)
    (hw : r.write c b = .ok q) : q.head < c ∧ q.length ≤ c := by
  obtain ⟨hne, rfl⟩ := Ring.write_ok.mp hw
  exact ⟨h.1, by have := h.2; simp only; omega⟩

/-- A read keeps a ring in range. -/
theorem Ring.bounded_read {c : Nat} {r q : Ring} {b : Byte} (h : r.head < c ∧ r.length ≤ c)
    (hr : r.read c = .ok (b, q)) : q.head < c ∧ q.length ≤ c := by
  obtain ⟨-, -, rfl⟩ := Ring.read_ok.mp hr
  exact ⟨Nat.mod_lt _ (by omega), by have := h.2; simp only; omega⟩

/-- A write keeps a ring's store canonical. -/
theorem Ring.wf_write {c : Nat} {r q : Ring} {b : Byte} (h : Memory.wf ringBlank r.store = true)
    (hw : r.write c b = .ok q) : Memory.wf ringBlank q.store = true := by
  obtain ⟨-, rfl⟩ := Ring.write_ok.mp hw
  exact Memory.wf_write _ _ h

/-- What an RB_WRITE by an agent can be: the write, an error of the ring, or a refusal. -/
theorem rbWrite_cases {who : Agent} {id : RingId} {b : Byte} {s : State} {x : Except ErrorCode State}
    (h : rbWrite who id b s = .ok x) :
    who = ringWriter id ∧
      ((∃ q, (ring s id).write s.cfg.capacity b = .ok q ∧ x = .ok (setRing id q s)) ∨
       (∃ e, (ring s id).write s.cfg.capacity b = .error e ∧ x = .error e)) := by
  unfold rbWrite at h
  split at h
  · rename_i hw
    refine ⟨hw, ?_⟩
    cases hq : (ring s id).write s.cfg.capacity b with
    | error e => simp [hq] at h; exact .inr ⟨e, rfl, h.symm⟩
    | ok q => simp [hq] at h; exact .inl ⟨q, rfl, h.symm⟩
  · simp at h

/-- What an RB_READ by an agent can be: the read, an error of the ring, or a refusal. -/
theorem rbRead_cases {who : Agent} {id : RingId} {s : State} {x : Except ErrorCode (Byte × State)}
    (h : rbRead who id s = .ok x) :
    who = ringReader id ∧
      ((∃ b q, (ring s id).read s.cfg.capacity = .ok (b, q) ∧ x = .ok (b, setRing id q s)) ∨
       (∃ e, (ring s id).read s.cfg.capacity = .error e ∧ x = .error e)) := by
  unfold rbRead at h
  split at h
  · rename_i hw
    refine ⟨hw, ?_⟩
    cases hq : (ring s id).read s.cfg.capacity with
    | error e => simp [hq] at h; exact .inr ⟨e, rfl, h.symm⟩
    | ok q => obtain ⟨b, q⟩ := q; simp [hq] at h; exact .inl ⟨b, q, rfl, h.symm⟩
  · simp at h

/-! ### The bulk loops -/

/-- The enqueue loop changes TX only. -/
theorem enqueueLoop_frame {m k k' : Nat} {s t : State} (h : enqueueLoop m k s = .ok (k', t)) :
    t = { s with tx := t.tx } := by
  induction m generalizing k s with
  | zero => simp [enqueueLoop] at h; rw [← h.2]
  | succ m ih =>
    rw [enqueueLoop] at h
    split at h
    · cases hb : hbufRead s k with
      | error e => simp [hb] at h
      | ok b =>
        simp only [hb] at h
        cases hw : rbWrite .fg .tx b s with
        | error e => simp [hw] at h
        | ok x =>
          obtain ⟨-, ⟨q, -, rfl⟩ | ⟨e, -, rfl⟩⟩ := rbWrite_cases hw
          · simp only [hw] at h
            have := ih h
            rw [this]
            simp [setRing]
          · simp only [hw] at h
            cases h
            rfl
    · cases h
      rfl

/-- The drain loop changes RX and HBUF only. -/
theorem drainLoop_frame {m k k' : Nat} {s t : State} (h : drainLoop m k s = .ok (k', t)) :
    t = { s with rx := t.rx, hbuf := t.hbuf } := by
  induction m generalizing k s with
  | zero => simp [drainLoop] at h; rw [← h.2]
  | succ m ih =>
    rw [drainLoop] at h
    cases hw : rbRead .fg .rx s with
    | error e => simp [hw] at h
    | ok x =>
      obtain ⟨-, ⟨b, q, -, rfl⟩ | ⟨e, -, rfl⟩⟩ := rbRead_cases hw
      · simp only [hw] at h
        have := ih h
        rw [this]
        simp [setRing, hbufWrite]
      · simp only [hw] at h
        cases h
        rfl

/-- A property of TX that every write keeps is kept by the enqueue loop. -/
theorem enqueueLoop_keeps {P : Nat → Ring → Prop}
    (hP : ∀ c r q b, P c r → r.write c b = .ok q → P c q) {m k k' : Nat} {s t : State}
    (h : enqueueLoop m k s = .ok (k', t)) (hs : P s.cfg.capacity s.tx) : P s.cfg.capacity t.tx := by
  induction m generalizing k s with
  | zero => simp [enqueueLoop] at h; rw [← h.2]; exact hs
  | succ m ih =>
    rw [enqueueLoop] at h
    split at h
    · cases hb : hbufRead s k with
      | error e => simp [hb] at h
      | ok b =>
        simp only [hb] at h
        cases hw : rbWrite .fg .tx b s with
        | error e => simp [hw] at h
        | ok x =>
          obtain ⟨-, ⟨q, hq, rfl⟩ | ⟨e, -, rfl⟩⟩ := rbWrite_cases hw
          · simp only [hw] at h
            exact ih (s := setRing .tx q s) h (hP s.cfg.capacity s.tx q b hs hq)
          · simp only [hw] at h
            cases h
            exact hs
    · cases h
      exact hs

/-- Properties of RX and of HBUF that every read and every write keep are kept by the drain loop. -/
theorem drainLoop_keeps {P : Nat → Ring → Prop} {Q : Memory → Prop}
    (hP : ∀ c r q b, P c r → r.read c = .ok (b, q) → P c q)
    (hQ : ∀ m a b, Q m → Q (Memory.write hbufBlank m a b)) {m k k' : Nat} {s t : State}
    (h : drainLoop m k s = .ok (k', t)) (hs : P s.cfg.capacity s.rx) (hq : Q s.hbuf) :
    P s.cfg.capacity t.rx ∧ Q t.hbuf := by
  induction m generalizing k s with
  | zero => simp [drainLoop] at h; rw [← h.2]; exact ⟨hs, hq⟩
  | succ m ih =>
    rw [drainLoop] at h
    cases hw : rbRead .fg .rx s with
    | error e => simp [hw] at h
    | ok x =>
      obtain ⟨-, ⟨b, q, hr, rfl⟩ | ⟨e, -, rfl⟩⟩ := rbRead_cases hw
      · simp only [hw] at h
        exact ih (s := hbufWrite k b (setRing .rx q s)) h (hP s.cfg.capacity s.rx q b hs hr) (hQ _ _ _ hq)
      · simp only [hw] at h
        cases h
        exact ⟨hs, hq⟩

/-- A bracketed command's next state: the loop's, with IMASK as it was, retired with the loop's count (R216). -/
theorem bulkNow_ok {loop : State → Except Stop (Nat × State)} {s t : State} :
    bulkNow loop s = .ok t ↔ ∃ k u, loop (setImask true (accept s)) = .ok (k, u) ∧
      t = retire (.ok k) (setImask s.imask u) := by
  unfold bulkNow bracketed
  cases h : loop (setImask true (accept s)) with
  | error e => simp
  | ok x =>
    obtain ⟨k, u⟩ := x
    simp [accept, eq_comm]

/-- A retired result leaves HRES.BUSY 0 (R210). -/
theorem hresBusy_retired (a b : Byte) : hresBusy (hresRetired a b) = false := by
  simp only [hresBusy, hresRetired, BitVec.getLsbD_append]
  simp

/-- Retirement leaves the block not busy (R210). -/
@[simp] theorem busy_retire (r : OpResult) (s : State) : busy (retire r s) = false := hresBusy_retired _ _

/-- Acceptance leaves the block busy (R210). -/
@[simp] theorem busy_accept (s : State) : busy (accept s) = true := by
  simp only [busy, hresBusy, accept, hresAccepted, BitVec.getLsbD_or]
  simp

/-! ### Responses -/

/-- A RESPONSE gives a state exactly in Addressed and Active (R186). -/
theorem responseOp_ok {act : AckAct} {p : Option Byte} {s t : State} :
    responseOp act p s = .ok t ↔ ∃ q, respondedPhase act s.sphase = some q ∧
      t = { s with sctrlb := commandReadBack act, sstatus := sClearPending s.sstatus, sphase := q,
                   trace := s.trace ++ [.sResponse act p] } := by
  unfold responseOp
  cases h : respondedPhase act s.sphase <;> simp [emit, eq_comm]

end Sys2Proof.Machine
end

