-- ==== Sys2Proof/Laws/Engine.lean ====
section
/-! SUPPORT. Everything an engine step can do, said once per engine: the Master Engine's transitions, the harness's
micro-steps, the slave handler, the bus environment. -/

namespace Sys2Proof.Machine

/-- A Master Engine step that gives a state is one enabled transition of a present transaction, out of Idle. -/
theorem masterStep_cases {s t : State} (h : masterStep s = some (.ok t)) :
    s.mstate ≠ .idle ∧ ∃ x k, s.txn = some x ∧ enabledTrans s x = some k ∧ runTrans x s k = .ok t := by
  unfold masterStep at h
  cases hm : s.mstate with
  | idle => simp [hm] at h
  | addressPhase =>
    simp only [hm, readTxn] at h
    cases hx : s.txn with
    | none => simp [hx] at h
    | some x =>
      simp only [hx, Option.map_eq_some_iff] at h
      obtain ⟨k, hk, ht⟩ := h
      exact ⟨by simp, x, k, rfl, hk, ht⟩
  | dataPhase i =>
    simp only [hm, readTxn] at h
    cases hx : s.txn with
    | none => simp [hx] at h
    | some x =>
      simp only [hx, Option.map_eq_some_iff] at h
      obtain ⟨k, hk, ht⟩ := h
      exact ⟨by simp, x, k, rfl, hk, ht⟩

/-- With its transaction present, the Master Engine's step out of Idle is its one enabled transition. -/
theorem masterStep_eq {s : State} {x : Txn} (hm : s.mstate ≠ .idle) (hx : s.txn = some x) :
    masterStep s = (enabledTrans s x).map (runTrans x s) := by
  unfold masterStep readTxn
  rw [hx]
  cases h : s.mstate with
  | idle => exact absurd h hm
  | addressPhase => rfl
  | dataPhase i => rfl

/-- A transition that sends no byte always gives a state. -/
theorem runTrans_ok (x : Txn) (s : State) (k : Trans) (h4 : k ≠ .t4) (h8 : ∀ i, k ≠ .t8 i) :
    ∃ t, runTrans x s k = .ok t := by
  cases k with
  | t4 => exact absurd rfl h4
  | t8 i => exact absurd rfl (h8 i)
  | _ => exact ⟨_, rfl⟩

/-- "Acted on request" by its two flags (R29). -/
theorem mActed_iff (v : Byte) : mActed v = true ↔ v.getLsbD 7 = true ∨ v.getLsbD 6 = true := by
  simp only [mActed, mRif, mWif, Bool.or_eq_true]

/-- "Termination" by its two flags (R29). -/
theorem mLost_iff (v : Byte) : mLost v = true ↔ v.getLsbD 3 = true ∨ v.getLsbD 2 = true := by
  simp only [mLost, mArblost, mBuserr, Bool.or_eq_true]

/-- Sending a byte: HBUF[i] is read, and the MDATA write and the new state follow. -/
theorem sendByte_ok {i : Nat} {s t : State} :
    sendByte i s = .ok t ↔ ∃ b, hbufRead s i = .ok b ∧ t = enterData i (mdataWriteOp b s) := by
  unfold sendByte
  cases hbufRead s i <;> simp [eq_comm]

/-- A response by the handler keeps everything but SCTRLB, SSTATUS, SPHASE and TRACE. -/
theorem responseOp_frame {act : AckAct} {p : Option Byte} {s t : State} (h : responseOp act p s = .ok t) :
    t = { s with sctrlb := t.sctrlb, sstatus := t.sstatus, sphase := t.sphase, trace := t.trace } := by
  obtain ⟨q, -, rfl⟩ := responseOp_ok.mp h
  rfl

/-- What the transmit branch can be: a byte popped and presented, or NACK on an empty ring (R191). -/
theorem slaveTransmit_cases {s t : State} (h : slaveTransmit s = .ok t) :
    (∃ b q, s.tx.read s.cfg.capacity = .ok (b, q) ∧
      responseOp .ack (some b) { s with tx := q, sdata := b } = .ok t) ∨
    (s.tx.length = 0 ∧ responseOp .nack none s = .ok t) := by
  unfold slaveTransmit at h
  cases hw : rbRead .isr .tx s with
  | error e => simp [hw] at h
  | ok x =>
    obtain ⟨-, ⟨b, q, hq, rfl⟩ | ⟨e, he, rfl⟩⟩ := rbRead_cases hw
    · simp only [hw] at h
      exact .inl ⟨b, q, hq, h⟩
    · simp only [hw] at h
      exact .inr ⟨(Ring.read_error.mp he).1, h⟩

/-- What the receive branch can be: the byte pushed and ACKed, or NACK on a full ring (R192). -/
theorem slaveReceive_cases {s t : State} (h : slaveReceive s = .ok t) :
    (∃ q, s.rx.write s.cfg.capacity s.sdata = .ok q ∧ responseOp .ack none { s with rx := q } = .ok t) ∨
    (s.rx.length = s.cfg.capacity ∧ responseOp .nack none s = .ok t) := by
  unfold slaveReceive at h
  cases hw : rbWrite .isr .rx (pregRead s .sdata) s with
  | error e => simp [hw] at h
  | ok x =>
    obtain ⟨-, ⟨q, hq, rfl⟩ | ⟨e, he, rfl⟩⟩ := rbWrite_cases hw
    · simp only [hw] at h
      exact .inl ⟨q, hq, h⟩
    · simp only [hw] at h
      exact .inr ⟨(Ring.write_error.mp he).1, h⟩

/-- What one invocation of the handler can be (R185). -/
theorem slaveIsr_cases {s t : State} (h : slaveIsr s = .ok t) :
    (sDif s.sstatus = true ∧ sDir s.sstatus = true ∧ slaveTransmit s = .ok t) ∨
    (sDif s.sstatus = true ∧ sDir s.sstatus = false ∧ slaveReceive s = .ok t) ∨
    (sDif s.sstatus = false ∧ sApif s.sstatus = true ∧ sAp s.sstatus = true ∧ sColl s.sstatus = false ∧
      responseOp .ack none s = .ok t) ∨
    (sDif s.sstatus = false ∧ sApif s.sstatus = true ∧ (sAp s.sstatus && !sColl s.sstatus) = false ∧
      t = compTransOp .nack s) ∨
    (sDif s.sstatus = false ∧ sApif s.sstatus = false ∧ t = s) := by
  change handlerOn s.sstatus s = .ok t at h
  unfold handlerOn at h
  split at h
  · rename_i h1
    split at h
    · rename_i h2
      exact .inl ⟨h1, h2, h⟩
    · rename_i h2
      exact .inr (.inl ⟨h1, by simpa using h2, h⟩)
  · rename_i h1
    have h1 : sDif s.sstatus = false := by simpa using h1
    split at h
    · rename_i h3
      unfold slaveAddressStop at h
      split at h
      · rename_i h4
        have h4 : sAp s.sstatus = true ∧ sColl s.sstatus = false := by simpa using h4
        exact .inr (.inr (.inl ⟨h1, h3, h4.1, h4.2, h⟩))
      · rename_i h4
        cases h
        exact .inr (.inr (.inr (.inl ⟨h1, h3, by simpa only [Bool.not_eq_true] using h4, rfl⟩)))
    · rename_i h3
      cases h
      exact .inr (.inr (.inr (.inr ⟨h1, by simpa using h3, rfl⟩)))

/-- The handler writes the rings, SDATA, SCTRLB, SSTATUS, SPHASE and TRACE only. -/
theorem slaveIsr_frame {s t : State} (h : slaveIsr s = .ok t) :
    t = { s with tx := t.tx, rx := t.rx, sdata := t.sdata, sctrlb := t.sctrlb, sstatus := t.sstatus,
                 sphase := t.sphase, trace := t.trace } := by
  rcases slaveIsr_cases h with ⟨-, -, h⟩ | ⟨-, -, h⟩ | ⟨-, -, -, -, h⟩ | ⟨-, -, -, rfl⟩ | ⟨-, -, rfl⟩
  · rcases slaveTransmit_cases h with ⟨b, q, -, h⟩ | ⟨-, h⟩
    · rw [responseOp_frame h]
    · rw [responseOp_frame h]
  · rcases slaveReceive_cases h with ⟨q, -, h⟩ | ⟨-, h⟩
    · rw [responseOp_frame h]
    · rw [responseOp_frame h]
  · rw [responseOp_frame h]
  · rfl
  · rfl

/-- A micro-step of the harness writes TX, RX, HBUF, HRES and its own FG-local values only. -/
theorem microStep_frame {x : Bulk} {s t : State} (h : microStep x s = .ok t) :
    t = { s with tx := t.tx, rx := t.rx, hbuf := t.hbuf, hres := t.hres, bulk := t.bulk } := by
  obtain ⟨n, k, pos⟩ := x
  cases pos with
  | w1 =>
    simp only [microStep] at h
    split at h <;> cases h <;> rfl
  | w2 l => cases h; rfl
  | w3 l hd =>
    simp only [microStep] at h
    cases hb : hbufRead s k with
    | error e => simp [hb] at h
    | ok b => simp only [hb] at h; cases h; rfl
  | w4 l => cases h; rfl
  | r1 =>
    simp only [microStep] at h
    split at h <;> cases h <;> rfl
  | r2 l => cases h; rfl
  | r3 l hd => cases h; rfl
  | r4 l hd b => cases h; rfl
  | r5 l b => cases h; rfl
  | done => cases h; rfl

/-- A micro-step of the harness either goes on with the command, HRES unchanged, or is its last and retires it. -/
theorem microStep_cases {x : Bulk} {s t : State} (h : microStep x s = .ok t) :
    (x.pos ≠ .done ∧ t.bulk ≠ none ∧ t.hres = s.hres) ∨
    (x.pos = .done ∧ t = retire (.ok x.k) { s with bulk := none }) := by
  obtain ⟨n, k, pos⟩ := x
  cases pos with
  | w1 => simp only [microStep] at h; split at h <;> cases h <;> exact .inl ⟨by simp, by simp [atMicro], rfl⟩
  | w3 l hd =>
    simp only [microStep] at h
    split at h
    · cases h
    · cases h
      exact .inl ⟨by simp, by simp [atMicro], rfl⟩
  | r1 => simp only [microStep] at h; split at h <;> cases h <;> exact .inl ⟨by simp, by simp [atMicro], rfl⟩
  | done => cases h; exact .inr ⟨rfl, rfl⟩
  | _ => cases h; exact .inl ⟨by simp, by simp [atMicro, nextByte], rfl⟩

/-- A bus answer is admitted, and writes MSTATUS, MDATA and MREQ only (R150). -/
theorem busAnswer_cases {a : Answer} {s t : State} (h : busAnswer a s = some t) :
    answerAdmitted s.mreq a = true ∧ t = applyAnswer a { s with mreq := .none } := by
  unfold busAnswer at h
  split at h
  · exact ⟨by assumption, by simpa [eq_comm] using h⟩
  · simp at h

/-- A slave event is allowed, and writes SSTATUS, SDATA and SPHASE only (R181). -/
theorem busEvent_cases {e : SlaveEvent} {s t : State} (h : busEvent e s = some t) :
    eventAllowed s = true ∧ eventGuard e s = true ∧ t = applyEvent e s := by
  unfold busEvent at h
  split at h
  · rename_i hg
    simp only [Bool.and_eq_true] at hg
    exact ⟨hg.1, hg.2, by simpa [eq_comm] using h⟩
  · simp at h

/-- What an answer leaves alone. -/
theorem applyAnswer_frame (a : Answer) (s : State) :
    applyAnswer a s = { s with mstatus := (applyAnswer a s).mstatus, mdata := (applyAnswer a s).mdata } := by
  cases a <;> rfl

/-- What an event leaves alone. -/
theorem applyEvent_frame (e : SlaveEvent) (s : State) :
    applyEvent e s = { s with sstatus := (applyEvent e s).sstatus, sdata := (applyEvent e s).sdata,
                              sphase := (applyEvent e s).sphase } := by
  cases e <;> rfl

end Sys2Proof.Machine
end

