-- ==== Sys2Proof/Laws/Exec.lean ====
section
/-! SUPPORT. When each host command gives a next state, and which one: one equivalence per command. -/

namespace Sys2Proof.Machine

/-- INITM (R211). -/
theorem execInitm_next {m : BusMode} {s t : State} :
    execInitm m s = .next t ↔ busy s = false ∧ s.harg ≠ 0#32 ∧
      t = retire (.ok 0) (initMasterRegisters m (accept s)) := by
  rw [execInitm, whenIdle_next]
  refine and_congr_right fun _ => ?_
  split
  · simp_all
  · simp_all only [Except.ok.injEq, ne_eq, not_false_eq_true, true_and]
    exact eq_comm

/-- The start of a master command (R212, R213). -/
theorem startMaster_ok {a : BitVec 7} {d : Dir} {n : Byte} {s t : State} :
    startMaster a d n s = .ok t ↔ mEnable s.mctrla = true ∧ t = startTransaction a d n.toNat (accept s) := by
  unfold startMaster
  cases mEnable s.mctrla
  · simp
  · simp only [if_true, Except.ok.injEq, true_and]
    exact eq_comm

/-- MSEND (R212). -/
theorem execMsend_next {a : BitVec 7} {n : Byte} {s t : State} :
    execMsend a n s = .next t ↔ busy s = false ∧ n.toNat ≤ s.cfg.capacity ∧ mEnable s.mctrla = true ∧
      t = startTransaction a .w n.toNat (accept s) := by
  rw [execMsend, whenIdle_next, countChecked_ok, startMaster_ok]

/-- MRECV (R213). -/
theorem execMrecv_next {a : BitVec 7} {n : Byte} {s t : State} :
    execMrecv a n s = .next t ↔ busy s = false ∧ n.toNat ≤ s.cfg.capacity ∧ mEnable s.mctrla = true ∧
      t = startTransaction a .r n.toNat (accept s) := by
  rw [execMrecv, whenIdle_next, countChecked_ok, startMaster_ok]

/-- INITS (R214). -/
theorem execInits_next {a : BitVec 7} {s t : State} :
    execInits a s = .next t ↔ busy s = false ∧ t = retire (.ok 0) (initSlaveRegisters a (accept s)) := by
  rw [execInits, whenIdle_next, Except.ok.injEq]
  exact and_congr_right fun _ => eq_comm

/-- SETSA (R215). -/
theorem execSetsa_next {a : BitVec 7} {s t : State} :
    execSetsa a s = .next t ↔ busy s = false ∧ t = retire (.ok 0) (setSlaveAddress a (accept s)) := by
  rw [execSetsa, whenIdle_next, Except.ok.injEq]
  exact and_congr_right fun _ => eq_comm

/-- SENQ, bracketed (R217) or not (R219). -/
theorem execSenq_next {n : Byte} {s t : State} :
    execSenq n s = .next t ↔ busy s = false ∧ n.toNat ≤ s.cfg.capacity ∧
      ((s.cfg.bracket = true ∧ bulkNow (enqueueLoop n.toNat 0) s = .ok t) ∨
       (s.cfg.bracket = false ∧ t = bulkLater n.toNat .w1 s)) := by
  rw [execSenq, whenIdle_next, countChecked_ok]
  refine and_congr_right fun _ => and_congr_right fun _ => ?_
  cases s.cfg.bracket
  · simp only [Bool.false_eq_true, if_false, false_and, Except.ok.injEq, true_and, false_or]
    exact eq_comm
  · simp

/-- SDRAIN, bracketed (R218) or not (R219). -/
theorem execSdrain_next {n : Byte} {s t : State} :
    execSdrain n s = .next t ↔ busy s = false ∧ n.toNat ≤ s.cfg.capacity ∧
      ((s.cfg.bracket = true ∧ bulkNow (drainLoop n.toNat 0) s = .ok t) ∨
       (s.cfg.bracket = false ∧ t = bulkLater n.toNat .r1 s)) := by
  rw [execSdrain, whenIdle_next, countChecked_ok]
  refine and_congr_right fun _ => and_congr_right fun _ => ?_
  cases s.cfg.bracket
  · simp only [Bool.false_eq_true, if_false, false_and, Except.ok.injEq, true_and, false_or]
    exact eq_comm
  · simp

/-- A bracketed enqueue's next state changes TX and HRES only, and TX by ring writes alone. -/
theorem bulkNow_enqueue {m : Nat} {s t : State} (h : bulkNow (enqueueLoop m 0) s = .ok t) :
    ∃ k, t = { s with tx := t.tx, hres := hresRetired 0#8 (BitVec.ofNat 8 k) } := by
  obtain ⟨k, u, hu, rfl⟩ := bulkNow_ok.mp h
  refine ⟨k, ?_⟩
  rw [enqueueLoop_frame hu]
  rfl

/-- A bracketed drain's next state changes RX, HBUF and HRES only. -/
theorem bulkNow_drain {m : Nat} {s t : State} (h : bulkNow (drainLoop m 0) s = .ok t) :
    ∃ k, t = { s with rx := t.rx, hbuf := t.hbuf, hres := hresRetired 0#8 (BitVec.ofNat 8 k) } := by
  obtain ⟨k, u, hu, rfl⟩ := bulkNow_ok.mp h
  refine ⟨k, ?_⟩
  rw [drainLoop_frame hu]
  rfl

/-- A property of TX that every write keeps is kept by a bracketed enqueue. -/
theorem bulkNow_enqueue_keeps {P : Nat → Ring → Prop} (hP : ∀ c r q b, P c r → r.write c b = .ok q → P c q)
    {m : Nat} {s t : State} (h : bulkNow (enqueueLoop m 0) s = .ok t) (hs : P s.cfg.capacity s.tx) :
    P s.cfg.capacity t.tx := by
  obtain ⟨k, u, hu, rfl⟩ := bulkNow_ok.mp h
  exact enqueueLoop_keeps (s := setImask true (accept s)) (t := u) hP hu hs

/-- Properties of RX and HBUF that every read and write keep are kept by a bracketed drain. -/
theorem bulkNow_drain_keeps {P : Nat → Ring → Prop} {Q : Memory → Prop}
    (hP : ∀ c r q b, P c r → r.read c = .ok (b, q) → P c q)
    (hQ : ∀ m a b, Q m → Q (Memory.write hbufBlank m a b)) {m : Nat} {s t : State}
    (h : bulkNow (drainLoop m 0) s = .ok t) (hs : P s.cfg.capacity s.rx) (hq : Q s.hbuf) :
    P s.cfg.capacity t.rx ∧ Q t.hbuf := by
  obtain ⟨k, u, hu, rfl⟩ := bulkNow_ok.mp h
  exact drainLoop_keeps (s := setImask true (accept s)) (t := u) hP hQ hu hs hq

/-- What a host command that gives a state can be. -/
theorem exec_command_cases {i : Instr} {s t : State} (hf : formatOf i = .hcmd) (h : exec i s = .next t) :
    (s.harg ≠ 0#32 ∧ ∃ m, t = retire (.ok 0) (initMasterRegisters m (accept s))) ∨
    (∃ a d n, n ≤ s.cfg.capacity ∧ mEnable s.mctrla = true ∧ t = startTransaction a d n (accept s)) ∨
    (∃ a, t = retire (.ok 0) (initSlaveRegisters a (accept s))) ∨
    (∃ a, t = retire (.ok 0) (setSlaveAddress a (accept s))) ∨
    (∃ m, s.cfg.bracket = true ∧ bulkNow (enqueueLoop m 0) s = .ok t) ∨
    (∃ m, s.cfg.bracket = true ∧ bulkNow (drainLoop m 0) s = .ok t) ∨
    (∃ m, m ≤ s.cfg.capacity ∧ s.cfg.bracket = false ∧ (t = bulkLater m .w1 s ∨ t = bulkLater m .r1 s)) := by
  cases i with
  | initm m => obtain ⟨-, hh, ht⟩ := execInitm_next.mp h; exact .inl ⟨hh, m, ht⟩
  | msend a n =>
    obtain ⟨-, hn, he, ht⟩ := execMsend_next.mp h
    exact .inr (.inl ⟨a, .w, n.toNat, hn, he, ht⟩)
  | mrecv a n =>
    obtain ⟨-, hn, he, ht⟩ := execMrecv_next.mp h
    exact .inr (.inl ⟨a, .r, n.toNat, hn, he, ht⟩)
  | inits a => exact .inr (.inr (.inl ⟨a, (execInits_next.mp h).2⟩))
  | setsa a => exact .inr (.inr (.inr (.inl ⟨a, (execSetsa_next.mp h).2⟩)))
  | senq n =>
    obtain ⟨-, hn, ⟨hb, ht⟩ | ⟨hb, ht⟩⟩ := execSenq_next.mp h
    · exact .inr (.inr (.inr (.inr (.inl ⟨n.toNat, hb, ht⟩))))
    · exact .inr (.inr (.inr (.inr (.inr (.inr ⟨n.toNat, hn, hb, .inl ht⟩)))))
  | sdrain n =>
    obtain ⟨-, hn, ⟨hb, ht⟩ | ⟨hb, ht⟩⟩ := execSdrain_next.mp h
    · exact .inr (.inr (.inr (.inr (.inr (.inl ⟨n.toNat, hb, ht⟩)))))
    · exact .inr (.inr (.inr (.inr (.inr (.inr ⟨n.toNat, hn, hb, .inr ht⟩)))))
  | mctrlbRecvtrans act => cases hf
  | mctrlbStop act => cases hf
  | sctrlbComptrans act => cases hf
  | sctrlbResponse act p => cases hf
  | mstatusRead => cases hf
  | maddrWrite a d => cases hf
  | mdataWrite b => cases hf
  | mdataRead => cases hf
  | sstatusRead => cases hf
  | sdataWrite b => cases hf
  | sdataRead => cases hf

/-- A host command word decodes only to a host command. -/
theorem decodeHcmd_format {c : Nat} {w : Word} {i : Instr} (h : decode c .hcmd w = .ok i) : formatOf i = .hcmd := by
  simp only [decode, decodeHcmd] at h
  split at h
  · cases h
  · rename_i r _
    have count : ∀ {n : Byte} {j : Instr}, formatOf j = .hcmd → checkCount c n j = .ok i → formatOf i = .hcmd := by
      intro n j hj hc
      unfold checkCount at hc
      split at hc
      · cases hc; exact hj
      · cases hc
    cases hop : r.op with
    | initm =>
      simp only [hop, decodeRow] at h
      split at h
      · cases h
      · cases h; rfl
    | msend => simp only [hop, decodeRow] at h; exact count (by rfl) h
    | mrecv => simp only [hop, decodeRow] at h; exact count (by rfl) h
    | inits => simp only [hop, decodeRow] at h; cases h; rfl
    | setsa => simp only [hop, decodeRow] at h; cases h; rfl
    | senq => simp only [hop, decodeRow] at h; exact count (by rfl) h
    | sdrain => simp only [hop, decodeRow] at h; exact count (by rfl) h

end Sys2Proof.Machine
end

