-- ==== Sys2Proof/Laws/PerInstr.lean ====
section
/-! SUPPORT. Per instruction: its encoding agrees with its row of spec/opcode_table.json. Each row gives a match and a
mask; the record `encode` makes, under the mask, is the match (spec/30_encoding.md R82, R86, R88). -/

namespace Sys2Proof.Laws.TableRow

/-- The row's match, as a record. -/
def rowMatch : Instr → Word
  | .initm _ => 0x00000001#32
  | .msend _ _ => 0x00000002#32
  | .mrecv _ _ => 0x00000003#32
  | .inits _ => 0x00000004#32
  | .setsa _ => 0x00000005#32
  | .senq _ => 0x00000006#32
  | .sdrain _ => 0x00000007#32
  | .mctrlbRecvtrans _ => 0x02#32
  | .mctrlbStop _ => 0x03#32
  | .sctrlbComptrans _ => 0x02#32
  | .sctrlbResponse _ _ => 0x03#32
  | .mstatusRead => 0x02#32
  | .maddrWrite _ _ => 0x84#32
  | .mdataWrite _ => 0x85#32
  | .mdataRead => 0x05#32
  | .sstatusRead => 0x0A#32
  | .sdataWrite _ => 0x8C#32
  | .sdataRead => 0x0C#32

/-- The row's mask; the 8-bit formats mask the first byte only. -/
def rowMask : Instr → Word
  | .initm _ => 0xFFFCFFFF#32
  | .msend _ _ => 0x00FF80FF#32
  | .mrecv _ _ => 0x00FF80FF#32
  | .inits _ => 0xFFFF80FF#32
  | .setsa _ => 0xFFFF80FF#32
  | .senq _ => 0x00FFFFFF#32
  | .sdrain _ => 0x00FFFFFF#32
  | .mctrlbRecvtrans _ => 0xFB#32
  | .mctrlbStop _ => 0xFB#32
  | .sctrlbComptrans _ => 0xFB#32
  | .sctrlbResponse _ _ => 0xFB#32
  | .mstatusRead => 0xFF#32
  | .maddrWrite _ _ => 0xFF#32
  | .mdataWrite _ => 0xFF#32
  | .mdataRead => 0xFF#32
  | .sstatusRead => 0xFF#32
  | .sdataWrite _ => 0xFF#32
  | .sdataRead => 0xFF#32

/-- The record of an instruction is one its row of the table matches. -/
def Statement (i : Instr) : Prop := encode i &&& rowMask i = rowMatch i

/-- A masked word compared bit by bit. -/
theorem and_eq_iff (x m v : BitVec 32) :
    x &&& m = v ↔ ∀ i : Fin 32, (x.getLsbD i && m.getLsbD i) = v.getLsbD i := by
  constructor
  · rintro rfl i
    simp
  · intro h
    apply BitVec.eq_of_getLsbD_eq
    intro i hi
    simpa using h ⟨i, hi⟩

theorem initm (mode : BusMode) : Statement (.initm mode) := by
  cases mode <;> (unfold Statement; decide)

theorem msend (addr : BitVec 7) (count : Byte) : Statement (.msend addr count) := by
  rw [Statement, and_eq_iff]
  intro i
  fin_cases i <;> simp [encode, hcmdWord, rowMask, rowMatch]

theorem mrecv (addr : BitVec 7) (count : Byte) : Statement (.mrecv addr count) := by
  rw [Statement, and_eq_iff]
  intro i
  fin_cases i <;> simp [encode, hcmdWord, rowMask, rowMatch]

theorem inits (addr : BitVec 7) : Statement (.inits addr) := by
  rw [Statement, and_eq_iff]
  intro i
  fin_cases i <;> simp [encode, hcmdWord, rowMask, rowMatch]

theorem setsa (addr : BitVec 7) : Statement (.setsa addr) := by
  rw [Statement, and_eq_iff]
  intro i
  fin_cases i <;> simp [encode, hcmdWord, rowMask, rowMatch]

theorem senq (count : Byte) : Statement (.senq count) := by
  rw [Statement, and_eq_iff]
  intro i
  fin_cases i <;> simp [encode, hcmdWord, rowMask, rowMatch]

theorem sdrain (count : Byte) : Statement (.sdrain count) := by
  rw [Statement, and_eq_iff]
  intro i
  fin_cases i <;> simp [encode, hcmdWord, rowMask, rowMatch]

theorem mctrlbRecvtrans (act : AckAct) : Statement (.mctrlbRecvtrans act) := by
  cases act <;> (unfold Statement; decide)

theorem mctrlbStop (act : AckAct) : Statement (.mctrlbStop act) := by
  cases act <;> (unfold Statement; decide)

theorem sctrlbComptrans (act : AckAct) : Statement (.sctrlbComptrans act) := by
  cases act <;> (unfold Statement; decide)

theorem sctrlbResponse (act : AckAct) (presented : Option Byte) : Statement (.sctrlbResponse act presented) := by
  cases presented with
  | none => cases act <;> (unfold Statement; decide)
  | some b =>
    rw [Statement, and_eq_iff]
    intro i
    cases act <;> fin_cases i <;>
      simp [encode, record3, rowMask, rowMatch, Machine.commandByte, Machine.cmdThree, AckAct.bit]

theorem mstatusRead : Statement .mstatusRead := by unfold Statement; decide

theorem maddrWrite (addr7 : BitVec 7) (dir : Dir) : Statement (.maddrWrite addr7 dir) := by
  rw [Statement, and_eq_iff]
  intro i
  fin_cases i <;> simp [encode, record2, rowMask, rowMatch, Machine.paccByte, PReg.number]

theorem mdataWrite (b : Byte) : Statement (.mdataWrite b) := by
  rw [Statement, and_eq_iff]
  intro i
  fin_cases i <;> simp [encode, record2, rowMask, rowMatch, Machine.paccByte, PReg.number]

theorem mdataRead : Statement .mdataRead := by unfold Statement; decide

theorem sstatusRead : Statement .sstatusRead := by unfold Statement; decide

theorem sdataWrite (b : Byte) : Statement (.sdataWrite b) := by
  rw [Statement, and_eq_iff]
  intro i
  fin_cases i <;> simp [encode, record2, rowMask, rowMatch, Machine.paccByte, PReg.number]

theorem sdataRead : Statement .sdataRead := by unfold Statement; decide

end Sys2Proof.Laws.TableRow
end

