-- ==== Sys2Proof/Laws/Step.lean ====
section
/-! SUPPORT. What one step of the block can be, said once, and the induction over it packaged: an invariant kept by each
kind of move is kept by every step. -/

namespace Sys2Proof.Machine

/-- A recorded outcome that is a next state: the step's own, or a mark (R234, R235). -/
theorem recorded_cases {s t : State} {o : Host.Outcome State Fault Refusal} (h : recorded s o = .next t) :
    o = .next t ∨ (∃ r, o = .refused r ∧ t = markRefused r s) ∨ (∃ f, o = .fault f ∧ t = markFault f s) := by
  cases o with
  | next u => exact .inl h
  | fault f => right; right; exact ⟨f, rfl, by simpa [recorded, eq_comm] using h⟩
  | refused r => right; left; exact ⟨r, rfl, by simpa [recorded, eq_comm] using h⟩

/-- A recorded outcome is always a next state. -/
theorem recorded_next (s : State) (o : Host.Outcome State Fault Refusal) : ∃ t, recorded s o = .next t := by
  cases o with
  | next u => exact ⟨u, rfl⟩
  | fault f => exact ⟨_, rfl⟩
  | refused r => exact ⟨_, rfl⟩

/-- An offset that is HBUF[i]'s names an entry below the capacity (R21). -/
theorem hostReg_hbuf {c off i : Nat} (h : hostReg? c off = some (.hbuf i)) : i < c := by
  unfold hostReg? hbufOffset windowSize at h
  split_ifs at h <;> simp only [Option.some.injEq, reduceCtorEq, HostReg.hbuf.injEq] at h
  omega

/-- What a host access that gives a state can be: a read handed back, a store to HARG or HBUF, an ignored write, or a
command. -/
theorem hostAccess_cases {a : HostAccess} {s t : State} (h : hostAccess a s = .next t) :
    busy s = false ∧
      (t = s ∨ (∃ v, t = handBack v s) ∨ (∃ v, t = { s with harg := v }) ∨
       (∃ i b, i < s.cfg.capacity ∧ t = hbufWrite i b s) ∨
       (∃ i w, decode s.cfg.capacity .hcmd w = .ok i ∧ exec i s = .next t)) := by
  unfold hostAccess at h
  cases hb : busy s with
  | true => simp [hb] at h
  | false =>
    refine ⟨rfl, ?_⟩
    simp only [hb, Bool.false_eq_true, if_false] at h
    have small : ∀ off wd i, hostTarget s.cfg.capacity off wd = some (.hbuf i) → i < s.cfg.capacity := by
      intro off wd i hi
      unfold hostTarget at hi
      cases hr : hostReg? s.cfg.capacity off with
      | none => simp [hr] at hi
      | some q =>
        simp only [hr] at hi
        split at hi
        · simp only [Option.some.injEq] at hi
          subst hi
          exact hostReg_hbuf hr
        · simp at hi
    cases a with
    | read off wd =>
      simp only [hostAccessIdle] at h
      cases hr : hostTarget s.cfg.capacity off wd with
      | none => simp [hr] at h
      | some q =>
        simp only [hr] at h
        cases q with
        | hbuf i =>
          simp only [hostRead] at h
          cases hh : hbufRead s i with
          | error e => simp [hh] at h
          | ok b => simp only [hh] at h; cases h; exact .inr (.inl ⟨_, rfl⟩)
        | _ => cases h; exact .inr (.inl ⟨_, rfl⟩)
    | write off wd v =>
      simp only [hostAccessIdle] at h
      cases hr : hostTarget s.cfg.capacity off wd with
      | none => simp [hr] at h
      | some q =>
        simp only [hr] at h
        cases q with
        | hcmd =>
          simp only [hostWrite, issue] at h
          cases hd : decode s.cfg.capacity .hcmd v with
          | error e => simp [hd] at h
          | ok i => simp only [hd] at h; exact .inr (.inr (.inr (.inr ⟨i, v, hd, h⟩)))
        | harg => cases h; exact .inr (.inr (.inl ⟨_, rfl⟩))
        | hbuf i => cases h; exact .inr (.inr (.inr (.inl ⟨i, _, small _ _ _ hr, rfl⟩)))
        | hres => cases h; exact .inl rfl
        | reservedWord => cases h; exact .inl rfl
        | reservedByte => cases h; exact .inl rfl

/-- What a turn can leave: its agent's step, a mark, or nothing. -/
theorem takeTurn_cases {k : Turn} {s t : State} (h : takeTurn k s = .next t) :
    t = s ∨ (∃ r, t = markRefused r s) ∨ (∃ f, t = markFault f s) ∨ turnStep k s = some (.next t) := by
  unfold takeTurn at h
  cases ho : turnStep k s with
  | none => simp only [ho] at h; cases h; exact .inl rfl
  | some o =>
    simp only [ho] at h
    rcases recorded_cases h with rfl | ⟨r, -, rfl⟩ | ⟨f, -, rfl⟩
    · exact .inr (.inr (.inr rfl))
    · exact .inr (.inl ⟨r, rfl⟩)
    · exact .inr (.inr (.inl ⟨f, rfl⟩))

/-- A drawn turn is the turn taken, but for a host turn while BUSY = 1, which is no move (R26). -/
theorem takeDrawn_eq (k : Turn) (s : State) :
    ((∃ a, k = .host a) ∧ busy s = true ∧ takeDrawn k s = .next s) ∨ takeDrawn k s = takeTurn k s := by
  cases k with
  | host a =>
    cases hb : busy s with
    | true => exact .inl ⟨⟨a, rfl⟩, rfl, by simp only [takeDrawn, hb, if_true]⟩
    | false => exact .inr (by simp only [takeDrawn, hb, Bool.false_eq_true, if_false])
  | engine => exact .inr rfl
  | isr => exact .inr rfl
  | answer a => exact .inr rfl
  | event e => exact .inr rfl

/-- What a drawn turn can leave: what the turn taken leaves, or nothing changed. -/
theorem takeDrawn_cases {k : Turn} {s t : State} (h : takeDrawn k s = .next t) :
    t = s ∨ takeTurn k s = .next t := by
  rcases takeDrawn_eq k s with ⟨-, -, he⟩ | he
  · rw [he] at h
    cases h
    exact .inl rfl
  · rw [he] at h
    exact .inr h

/-- With no fault recorded and no lone access waiting, a step is the next turn. -/
theorem step_eq_nextTurn {s : State} (hf : s.faulted = none) (hp : s.probe = none) : step s = nextTurn s := by
  simp only [step, blockStep, hf, hp]

/-- With a turn listed, a step takes it on the state with the rest of the schedule. -/
theorem step_of_schedule {s : State} {k : Turn} {rest : List Turn} (hf : s.faulted = none) (hp : s.probe = none)
    (hs : s.schedule = k :: rest) : step s = takeTurn k (setSchedule rest s) := by
  rw [step_eq_nextTurn hf hp]
  simp only [nextTurn, hs]

/-- With no turn listed, a step takes the drawn turn, one more free value used (log 1). -/
theorem step_of_empty_schedule {s : State} (hf : s.faulted = none) (hp : s.probe = none) (hs : s.schedule = []) :
    step s = takeDrawn (Config.freeTurn s.draws) (countDraw s) := by
  rw [step_eq_nextTurn hf hp]
  simp only [nextTurn, hs]

/-- The turn a step takes, listed or drawn: it is taken on the state with the schedule or the counter moved on, or it is
a drawn host turn while BUSY = 1, which is no move (R26). -/
theorem step_of_turnTaken {s : State} {k : Turn} (hf : s.faulted = none) (hk : turnTaken s = some k) :
    ∃ u, ((∃ l, u = setSchedule l s) ∨ u = countDraw s) ∧
      (step s = takeTurn k u ∨ (∃ a, k = .host a) ∧ busy s = true ∧ step s = .next u) := by
  unfold turnTaken at hk
  cases hp : s.probe with
  | some x => simp [hp] at hk
  | none =>
    cases hs : s.schedule with
    | cons j rest =>
      simp only [hp, hs, Option.some.injEq] at hk
      subst hk
      exact ⟨_, .inl ⟨rest, rfl⟩, .inl (step_of_schedule hf hp hs)⟩
    | nil =>
      simp only [hp, hs, Option.some.injEq] at hk
      subst hk
      refine ⟨_, .inr rfl, ?_⟩
      rw [step_of_empty_schedule hf hp hs]
      rcases takeDrawn_eq (Config.freeTurn s.draws) (countDraw s) with ⟨ha, hb, h⟩ | h
      · exact .inr ⟨ha, hb, h⟩
      · exact .inl h

/-- A host write of HCMD while the block is not busy issues the word (R22, R210). -/
theorem hostAccess_command {s : State} (w : Word) (hb : busy s = false) :
    hostAccess (.write 0x00 32 w) s = issue .hcmd w s := by
  simp only [hostAccess, hb, Bool.false_eq_true, if_false]
  rfl

/-- A word that decodes is run. -/
theorem issue_ok {f : Format} {w : Word} {s : State} {i : Instr} (h : decode s.cfg.capacity f w = .ok i) :
    issue f w s = exec i s := by
  simp only [issue, h]

/-- A word the decoder refuses is refused for its reason (R83, R234). -/
theorem issue_error {f : Format} {w : Word} {s : State} {e : DecodeRefusal} (h : decode s.cfg.capacity f w = .error e) :
    issue f w s = .refused (Refusal.ofDecode e) := by
  simp only [issue, h]

/-- A turn whose step is enabled is that step, its mark recorded. -/
theorem takeTurn_of_some {k : Turn} {s : State} {o : Host.Outcome State Fault Refusal} (h : turnStep k s = some o) :
    takeTurn k s = recorded s o := by
  simp only [takeTurn, h]

/-- A turn whose step is not enabled changes nothing (R236). -/
theorem takeTurn_of_none {k : Turn} {s : State} (h : turnStep k s = none) : takeTurn k s = .next s := by
  simp only [takeTurn, h]

/-- Outside the harness, the engine's turn is the Master Engine's step. -/
theorem turnStep_engine {s : State} (hb : s.bulk = none) : turnStep .engine s = (masterStep s).map finish := by
  simp only [turnStep, fgStep, hb]

/-- The handler's turn, when it is enabled. -/
theorem turnStep_isr {s : State} (h : isrEnabled s = true) : turnStep .isr s = some (finish (slaveIsr s)) := by
  simp only [turnStep, h, if_true]

/-- A recorded fault stops every step (R235). -/
theorem step_of_faulted {s : State} {f : Fault} (hf : s.faulted = some f) : step s = .fault f := by
  simp only [step, blockStep, hf]

/-- A state that steps has no fault recorded. -/
theorem not_faulted_of_step {s t : State} (h : step s = .next t) : s.faulted = none := by
  cases hf : s.faulted with
  | none => rfl
  | some f => rw [step_of_faulted hf] at h; cases h

/-- What one step can be. With no lone access waiting it is a turn taken on the state with its schedule or its counter
moved on, or a drawn turn that is no move. -/
theorem step_cases {s t : State} (hp : s.probe = none) (h : step s = .next t) :
    ∃ u, ((∃ l, u = setSchedule l s) ∨ u = countDraw s) ∧ (t = u ∨ ∃ k, takeTurn k u = .next t) := by
  rw [step_eq_nextTurn (not_faulted_of_step h) hp] at h
  unfold nextTurn at h
  split at h
  · rename_i k rest _
    exact ⟨_, .inl ⟨rest, rfl⟩, .inr ⟨k, h⟩⟩
  · rcases takeDrawn_cases h with rfl | h
    · exact ⟨_, .inr rfl, .inl rfl⟩
    · exact ⟨_, .inr rfl, .inr ⟨_, h⟩⟩

/-- An invariant that does not look at the model's bookkeeping and is kept by every agent's move is kept by every step
that runs no lone access. -/
theorem step_keeps {I : State → Prop}
    (sched : ∀ s l, I s → I (setSchedule l s))
    (draw : ∀ s, I s → I (countDraw s))
    (mark : ∀ s r, I s → I (markRefused r s))
    (fault : ∀ s f, I s → I (markFault f s))
    (back : ∀ s v, I s → I (handBack v s))
    (arg : ∀ s v, I s → I { s with harg := v })
    (buf : ∀ s i b, I s → i < s.cfg.capacity → I (hbufWrite i b s))
    (command : ∀ s t i w, I s → busy s = false → decode s.cfg.capacity .hcmd w = .ok i → exec i s = .next t → I t)
    (micro : ∀ s t x, I s → s.bulk = some x → microStep x s = .ok t → I t)
    (master : ∀ s t, I s → s.bulk = none → masterStep s = some (.ok t) → I t)
    (isr : ∀ s t, I s → isrEnabled s = true → slaveIsr s = .ok t → I t)
    (answer : ∀ s t a, I s → busAnswer a s = some t → I t)
    (event : ∀ s t e, I s → busEvent e s = some t → I t)
    {s t : State} (hI : I s) (hp : s.probe = none) (h : step s = .next t) : I t := by
  obtain ⟨u, hu, hk⟩ := step_cases hp h
  have hu : I u := by
    rcases hu with ⟨l, rfl⟩ | rfl
    · exact sched s l hI
    · exact draw s hI
  obtain rfl | ⟨k, hk⟩ := hk
  · exact hu
  rcases takeTurn_cases hk with rfl | ⟨r, rfl⟩ | ⟨f, rfl⟩ | hk
  · exact hu
  · exact mark u r hu
  · exact fault u f hu
  · cases k with
    | host a =>
      simp only [turnStep, Option.some.injEq] at hk
      obtain ⟨hb, rfl | ⟨v, rfl⟩ | ⟨v, rfl⟩ | ⟨i, b, hi, rfl⟩ | ⟨i, w, hd, he⟩⟩ := hostAccess_cases hk
      · exact hu
      · exact back u v hu
      · exact arg u v hu
      · exact buf u i b hu hi
      · exact command u t i w hu hb hd he
    | engine =>
      simp only [turnStep, fgStep, Option.map_eq_some_iff] at hk
      obtain ⟨x, hx, hk⟩ := hk
      rw [finish_next] at hk
      subst hk
      cases hbk : u.bulk with
      | some y => simp only [hbk, Option.some.injEq] at hx; exact micro u t y hu hbk hx
      | none => simp only [hbk] at hx; exact master u t hu hbk hx
    | isr =>
      simp only [turnStep] at hk
      split at hk
      · simp only [Option.some.injEq, finish_next] at hk
        exact isr u t hu (by assumption) hk
      · simp at hk
    | answer a =>
      simp only [turnStep, Option.map_eq_some_iff, Host.Outcome.next.injEq, exists_eq_right] at hk
      exact answer u t a hu hk
    | event e =>
      simp only [turnStep, Option.map_eq_some_iff, Host.Outcome.next.injEq, exists_eq_right] at hk
      exact event u t e hu hk

end Sys2Proof.Machine
end

