-- ==== Sys2Proof/Machine/Assembler.lean ====
section
/-! DEFINITION. The host assembly of spec/30_encoding.md R90 as host accesses, and the pseudo-instructions of R91 as
lists of them. -/

namespace Sys2Proof.Machine

/-- `WARG v` (R90). -/
def asmWarg (v : Word) : HostAccess := .write 0x04 32 v

/-- `WBUF i, b` (R90). -/
def asmWbuf (i : Nat) (b : Byte) : HostAccess := .write (0x10 + i) 8 (b.setWidth 32)

/-- `RRES` (R90). -/
def asmRres : HostAccess := .read 0x08 32

/-- `RBUF i` (R90). -/
def asmRbuf (i : Nat) : HostAccess := .read (0x10 + i) 8

/-- A command line: a host write of its word to HCMD (R90). -/
def asmCommand (i : Instr) : HostAccess := .write 0x00 32 (encode i)

/-- `WBUF k, b0 ; WBUF k+1, b1 ; …` (R91). -/
def asmWbufs : Nat → List Byte → List HostAccess
  | _, [] => []
  | k, b :: bs => asmWbuf k b :: asmWbufs (k + 1) bs

/-- `RBUF 0 ; … ; RBUF k-1` (R91). -/
def asmRbufs (k : Nat) : List HostAccess := (List.range k).map asmRbuf

/-- `init_master speed, MODE` (R91). -/
def asmInitMaster (speed : Word) (mode : BusMode) : List HostAccess := [asmWarg speed, asmCommand (.initm mode)]

/-- `master_send addr, [b0, …]` (R91). COUNT has 8 bits and R91 says nothing of a list longer than 255: the command's COUNT is
then the length modulo 256 (DESIGN CHOICE, log 19). -/
def asmMasterSend (addr : BitVec 7) (bs : List Byte) : List HostAccess :=
  asmWbufs 0 bs ++ [asmCommand (.msend addr (BitVec.ofNat 8 bs.length))]

/-- `master_recv addr, n`, with `k = HRES.COUNT` (R91). -/
def asmMasterRecv (addr : BitVec 7) (n : Byte) (k : Nat) : List HostAccess :=
  asmCommand (.mrecv addr n) :: asmRres :: asmRbufs k

/-- `init_slave addr` (R91). -/
def asmInitSlave (addr : BitVec 7) : List HostAccess := [asmCommand (.inits addr)]

/-- `set_slave_address addr` (R91). -/
def asmSetSlaveAddress (addr : BitVec 7) : List HostAccess := [asmCommand (.setsa addr)]

/-- `slave_enqueue [b0, …]` (R91). For a list longer than 255, COUNT is the length modulo 256 (DESIGN CHOICE, log 19). -/
def asmSlaveEnqueue (bs : List Byte) : List HostAccess :=
  asmWbufs 0 bs ++ [asmCommand (.senq (BitVec.ofNat 8 bs.length)), asmRres]

/-- `slave_drain n`, with `k = HRES.COUNT` (R91). -/
def asmSlaveDrain (n : Byte) (k : Nat) : List HostAccess :=
  asmCommand (.sdrain n) :: asmRres :: asmRbufs k

end Sys2Proof.Machine
end

