-- ==== Sys2Proof/Tests/Slice0.lean ====
section
/-! SUPPORT. Small tests of one step each, and for every statement with hypotheses a state that meets them. Expected
values come from spec/95_test_vectors.md (its V-numbers) or are worked out by hand from the rule named. -/

namespace Sys2Proof.Tests

open Sys2Proof Sys2Proof.Machine

/-! ### Helpers -/

/-- C = 4 and a clock of 4 MHz, bracketed. -/
def cfg4 : Config.Params := { capacity := 4, busClockHz := 4000000, hostBase := 0x1000, bracket := true }

/-- Reset values under `cfg4`. -/
def base : State := { State.reset with cfg := cfg4 }

/-- `base` in the hazard harness. -/
def harness : State := { base with cfg := { cfg4 with bracket := false } }

/-- A field of a next state. -/
def value {α : Type} (f : State → α) : Host.Outcome State Fault Refusal → Option α
  | .next s => some (f s)
  | .fault _ => none
  | .refused _ => none

/-- The reason of a refusal. -/
def refusal : Host.Outcome State Fault Refusal → Option Refusal
  | .next _ => none
  | .fault _ => none
  | .refused r => some r

/-- The master enabled and HBUF holding 1, 2, 3, 4. -/
def ready : State := { base with mctrla := 0x01#8, hbuf := [(0, 1#8), (1, 2#8), (2, 3#8), (3, 4#8)] }

/-- A transaction of `n` bytes at `m`, with MSTATUS `v`. -/
def inTxn (d : Dir) (n : Nat) (m : MState) (v : Byte) : State :=
  { ready with hres := 0x80000000#32, txn := some { addr7 := 0x48#7, dir := d, n := n }, mstate := m, mstatus := v }

/-- The slave enabled at 0x21, with SSTATUS `v` in phase `p`, TX and RX each holding two bytes from index 3. -/
def slave (v : Byte) (p : SlavePhase) : State :=
  { base with
    sctrla := 0x0F#8, saddr := 0x42#8, sstatus := v, sphase := p
    tx := { store := [(0, 0x22#8), (3, 0x11#8)], head := 3, length := 2 }
    rx := { store := [(0, 0x22#8), (3, 0x11#8)], head := 3, length := 2 } }

/-! ### Well-formedness, decoding, encoding -/

/-- An ill-formed counting command for each of the four checks, refused; each is legal at its own count. -/
theorem test_wellformed :
    (Instr.msend 0x48#7 101#8).wf 100 = false ∧ (Instr.mrecv 0x48#7 101#8).wf 100 = false ∧
    (Instr.senq 101#8).wf 100 = false ∧ (Instr.sdrain 255#8).wf 254 = false ∧
    (Instr.msend 0x48#7 100#8).wf 100 = true ∧ (Instr.sdrain 255#8).wf 255 = true := by decide

/-- V-E1 to V-E13: host words, at C = 100. -/
theorem test_decode_hcmd_1 :
    decode 100 .hcmd 0x00000001#32 = .ok (.initm .standard) ∧
    decode 100 .hcmd 0x00010001#32 = .ok (.initm .fast) ∧
    decode 100 .hcmd 0x00000101#32 = .error .reservedEncoding ∧
    decode 100 .hcmd 0x02004802#32 = .ok (.msend 0x48#7 2#8) ∧
    decode 100 .hcmd 0x65004802#32 = .error .countAboveCapacity ∧
    decode 100 .hcmd 0xFF000007#32 = .error .countAboveCapacity ∧
    decode 100 .hcmd 0x00040002#32 = .error .reservedEncoding := by decide

/-- V-E14 to V-E24. -/
theorem test_decode_hcmd_2 :
    decode 100 .hcmd 0x00010002#32 = .error .reservedEncoding ∧
    decode 100 .hcmd 0x02005003#32 = .ok (.mrecv 0x50#7 2#8) ∧
    decode 100 .hcmd 0x01002104#32 = .error .reservedEncoding ∧
    decode 100 .hcmd 0x04002106#32 = .error .reservedEncoding ∧
    decode 100 .hcmd 0x0A000007#32 = .ok (.sdrain 10#8) ∧
    decode 100 .hcmd 0x00000000#32 = .error .reservedEncoding ∧
    decode 100 .hcmd 0x00000008#32 = .error .reservedEncoding ∧
    decode 100 .hcmd 0x000000FF#32 = .error .reservedEncoding := by decide

/-- R86, R88: one word of each engine access, written out bit by bit: `{00000, act, cmd}` and `{W, 00, register}`. -/
theorem test_decode_engine :
    decode 4 .mctrlb 0b00000010#32 = .ok (.mctrlbRecvtrans .ack) ∧
    decode 4 .mctrlb 0b00000111#32 = .ok (.mctrlbStop .nack) ∧
    decode 4 .sctrlb 0b00000110#32 = .ok (.sctrlbComptrans .nack) ∧
    decode 4 .sctrlb 0b00000111#32 = .ok (.sctrlbResponse .nack none) ∧
    decode 4 .pacc 0b00000010#32 = .ok .mstatusRead ∧
    decode 4 .pacc 0b1001000110000100#32 = .ok (.maddrWrite 0x48#7 .r) ∧
    decode 4 .pacc 0b0101010110000101#32 = .ok (.mdataWrite 0x55#8) ∧
    decode 4 .pacc 0b00000101#32 = .ok .mdataRead ∧
    decode 4 .pacc 0b00001010#32 = .ok .sstatusRead ∧
    decode 4 .pacc 0b0101010110001100#32 = .ok (.sdataWrite 0x55#8) ∧
    decode 4 .pacc 0b00001100#32 = .ok .sdataRead := by decide

/-- R86, R88: reserved peripheral words are refused: NOACT, a reserved command, bit 3, an access no agent makes. -/
theorem test_decode_reserved :
    decode 4 .mctrlb 0x00#32 = .error .reservedPeripheralCommand ∧
    decode 4 .mctrlb 0x01#32 = .error .reservedPeripheralCommand ∧
    decode 4 .sctrlb 0x0B#32 = .error .reservedPeripheralCommand ∧
    decode 4 .pacc 0x00#32 = .error .reservedPeripheralCommand ∧
    decode 4 .pacc 0x82#32 = .error .reservedPeripheralCommand := by decide

/-- R87's examples of address bytes. -/
theorem test_address_bytes :
    addressByte 0x48#7 .w = 0x90#8 ∧ addressByte 0x48#7 .r = 0x91#8 ∧ addressByte 0x7F#7 .r = 0xFF#8 := by decide

/-- The host's table words reach the decoder and the step: SENQ 0 right after reset. -/
theorem test_table_word :
    decodeTableWord 32 0x00000006 = some (.senq 0#8) ∧ decodeTableWord 8 0x84 = some (.maddrWrite 0#7 .w) ∧
    value (fun s => s.hres) (step (State.reset.withFetchWord 32 0x00000006)) = some 0#32 ∧
    value (fun s => s.trace) (step (State.reset.withFetchWord 8 0x07)) = some [.mStop .nack] := by decide

/-- R90: `WARG 100000` and `MSEND 0x48, 2` as host writes. -/
theorem test_assembly :
    asmWarg 100000#32 = .write 0x04 32 0x000186A0#32 ∧ asmCommand (.msend 0x48#7 2#8) = .write 0x00 32 0x02004802#32 := by
  decide

/-- R61: the window's offsets. -/
theorem test_host_offset :
    hostOffset cfg4 0x1008 = some 0x08 ∧ hostOffset cfg4 0x11FF = some 0x1FF ∧ hostOffset cfg4 0x1200 = none ∧
    hostOffset cfg4 0x0FFF = none := by decide

/-! ### Instructions -/

/-- V-F2: INITM FASTPLUS with HARG = 400000. -/
theorem test_initm :
    value (fun s => (s.mbaud, s.mctrla, s.hres)) (exec (.initm .fastPlus) { base with harg := 400000#32, mstatus := 0xFC#8 })
      = some (0x00#8, 0x05#8, 0#32) := by decide

/-- V-F3: INITM with HARG = 0. -/
theorem test_initm_zero : refusal (exec (.initm .standard) base) = some .zeroFrequency := by decide

/-- P1: MSEND's first step. -/
theorem test_msend :
    value (fun s => (s.hres, s.maddr, s.mstatus, s.mreq)) (exec (.msend 0x48#7 2#8) { ready with mstatus := 0x54#8 })
      = some (0x80000000#32, 0x90#8, 0x00#8, .addr .w) := by decide

/-- V-F4: MSEND with the master disabled. -/
theorem test_msend_disabled : refusal (exec (.msend 0x48#7 1#8) base) = some .masterDisabled := by decide

/-- V-M3: MRECV's first step. -/
theorem test_mrecv :
    value (fun s => (s.maddr, s.mreq, s.trace)) (exec (.mrecv 0x3C#7 2#8) ready)
      = some (0x79#8, .addr .r, [.mStart 0x3C#7 .r]) := by decide

/-- V-F5. -/
theorem test_inits :
    value (fun s => (s.saddr, s.sctrla, s.hres)) (exec (.inits 0x21#7) base) = some (0x42#8, 0x0F#8, 0#32) := by decide

/-- V-F6. -/
theorem test_setsa :
    value (fun s => (s.saddr, s.sctrla)) (exec (.setsa 0x30#7) (slave 0x00#8 .idle)) = some (0x60#8, 0x0F#8) := by decide

/-- V-F7 at C = 4: a ring with room for two takes two of three, across the wrap. -/
theorem test_senq :
    value (fun s => (s.hres, s.tx.bytes 4)) (exec (.senq 3#8) { slave 0#8 .idle with hbuf := ready.hbuf })
      = some (0x00000200#32, [0x11#8, 0x22#8, 1#8, 2#8]) := by decide

/-- V-F8: a full ring reads no HBUF entry. -/
theorem test_senq_full :
    value (fun s => (s.hres, s.tx.length)) (exec (.senq 3#8) { base with tx := { store := [], head := 0, length := 4 } })
      = some (0x00000000#32, 4) := by decide

/-- V-F10 at C = 4: SDRAIN takes what there is. -/
theorem test_sdrain :
    value (fun s => (s.hres, s.hbuf, s.rx.head, s.rx.length)) (exec (.sdrain 4#8) (slave 0#8 .idle))
      = some (0x00000200#32, [(0, 0x11#8), (1, 0x22#8)], 1, 0) := by decide

/-- V-F11: SDRAIN takes no more than asked. -/
theorem test_sdrain_one :
    value (fun s => (s.hres, s.rx.length)) (exec (.sdrain 1#8) (slave 0#8 .idle)) = some (0x00000100#32, 1) := by decide

/-- R146. -/
theorem test_recvtrans :
    value (fun s => (s.mctrlb, s.mstatus, s.mreq)) (exec (.mctrlbRecvtrans .ack) { base with mstatus := 0xB8#8 })
      = some (0x00#8, 0x18#8, .recvNext) ∧
    refusal (exec (.mctrlbRecvtrans .nack) base) = some .reservedPeripheralCommand := by decide

/-- V-M3, step 3. -/
theorem test_stop :
    value (fun s => (s.mctrlb, s.mstatus, s.mreq)) (exec (.mctrlbStop .nack) { base with mstatus := 0x50#8 })
      = some (0x04#8, 0x10#8, .none) := by decide

/-- V-S5. -/
theorem test_comptrans :
    value (fun s => (s.sstatus, s.sphase, s.sctrlb)) (exec (.sctrlbComptrans .nack) (slave 0x48#8 .idle))
      = some (0x08#8, .idle, 0x04#8) := by decide

/-- P2, steps 2 and 5. -/
theorem test_response :
    value (fun s => (s.sstatus, s.sphase)) (exec (.sctrlbResponse .ack none) (slave 0x63#8 (.addressed .r)))
      = some (0x03#8, .active .r) ∧
    value (fun s => (s.sstatus, s.sphase)) (exec (.sctrlbResponse .nack none) (slave 0xA3#8 (.active .r)))
      = some (0x03#8, .ending) := by decide

/-- R186: RESPONSE in Idle. -/
theorem test_response_idle :
    refusal (exec (.sctrlbResponse .ack none) (slave 0x40#8 .idle)) = some .reservedPeripheralCommand := by decide

/-- R145, R148, R189, R190: reads hand the register back. -/
theorem test_reads :
    value (fun s => s.result) (exec .mstatusRead { base with mstatus := 0x54#8 }) = some 0x54#32 ∧
    value (fun s => s.result) (exec .mdataRead { base with mdata := 0x99#8 }) = some 0x99#32 ∧
    value (fun s => s.result) (exec .sstatusRead { base with sstatus := 0x63#8 }) = some 0x63#32 ∧
    value (fun s => s.result) (exec .sdataRead { base with sdata := 0x5A#8 }) = some 0x5A#32 := by decide

/-- R143: the six flags are cleared, the stale RXACK among them (P4). -/
theorem test_maddr_write :
    value (fun s => (s.maddr, s.mstatus, s.mreq)) (exec (.maddrWrite 0x48#7 .w) { base with mstatus := 0x10#8 })
      = some (0x90#8, 0x00#8, .addr .w) := by decide

/-- R144: RXACK and the error flags stay. -/
theorem test_mdata_write :
    value (fun s => (s.mdata, s.mstatus, s.mreq, s.trace)) (exec (.mdataWrite 0x80#8) { base with mstatus := 0xFC#8 })
      = some (0x80#8, 0x1C#8, .tx, [.mTx 0x80#8]) := by decide

/-- R188. -/
theorem test_sdata_write : value (fun s => s.sdata) (exec (.sdataWrite 0x40#8) base) = some 0x40#8 := by decide

/-! ### The agents -/

/-- V-M6: an error flag is tested first; no stop. -/
theorem test_t1 :
    value (fun s => (s.hres, s.mstatus, s.trace)) (step { inTxn .w 2 .addressPhase 0x54#8 with schedule := [.engine] })
      = some (0x00000002#32, 0x54#8, []) := by decide

/-- V-M12: a read of zero bytes stops without storing. -/
theorem test_t3 :
    value (fun s => (s.hres, s.trace)) (step { inTxn .r 0 .addressPhase 0xA0#8 with schedule := [.engine] })
      = some (0x00000000#32, [.mStop .nack]) := by decide

/-- V-M8: the second byte of three. -/
theorem test_t11 :
    value (fun s => (Memory.read hbufBlank s.hbuf 1, s.mstate, s.mstatus))
      (step { inTxn .r 3 (.dataPhase 1) 0xA0#8 with schedule := [.engine], mdata := 0x34#8 })
      = some (some 0x34#8, .dataPhase 2, 0x00#8) := by decide

/-- V-M9: IOError, no stop, the old bytes gone. -/
theorem test_t10 :
    value (fun s => (s.hres, s.trace, s.draws)) (step { inTxn .r 3 (.dataPhase 2) 0x44#8 with schedule := [.engine] })
      = some (0x00000003#32, [], 3) := by rfl

/-- V-M14: T8 reads an entry that holds no value. -/
theorem test_unwritten :
    value (fun s => s.faulted)
      (step { inTxn .w 2 (.dataPhase 0) 0x40#8 with schedule := [.engine], hbuf := [(0, 1#8)] })
      = some (some (.unwrittenRead 1)) := by decide

/-- V-M13: FG holds, and its turn changes nothing. -/
theorem test_hold :
    value (fun s => (s.mstate, s.hres)) (step { inTxn .w 1 .addressPhase 0x00#8 with schedule := [.engine] })
      = some (.addressPhase, 0x80000000#32) := by decide

/-- V-M7: Lost(ARBLOST) with RXACK drawn as 0. -/
theorem test_lost :
    value (fun s => (s.mstatus, s.mreq)) (step { base with mreq := .tx, schedule := [.answer (.lostArb false)] })
      = some (0x48#8, .none) := by decide

/-- V-S7: an address byte for another device is no event. -/
theorem test_unmatched :
    value (fun s => (s.sstatus, s.sphase)) (step { slave 0x00#8 .idle with schedule := [.event (.addressByte 0x22#7 .w)] })
      = some (0x00#8, .idle) := by decide

/-- V-S6: a repeated start in Active(0). -/
theorem test_repeated_start :
    value (fun s => (s.sstatus, s.sphase))
      (step { slave 0x01#8 (.active .w) with schedule := [.event (.addressByte 0x21#7 .r)] })
      = some (0x63#8, .addressed .r) := by decide

/-- V-S3: a full ring answers NACK and drops the byte. -/
theorem test_overflow :
    value (fun s => (s.rx.length, s.sphase, s.trace))
      (step { slave 0xA1#8 (.active .w) with schedule := [.isr], rx := { store := [], head := 0, length := 4 } })
      = some (4, .ending, [.sResponse .nack none]) := by decide

/-- V-S8: a slave that is not enabled sees no event. -/
theorem test_slave_disabled : (turnStep (.event .stop) base).isNone = true := by decide

/-- V-F14, V-F16, R26: the host port. -/
theorem test_host_port :
    refusal (hostAccess (.read 0x08 8) base) = some .badHostAccess ∧
    value (fun s => s.result) (hostAccess (.read 0x0C 32) base) = some 0#32 ∧
    refusal (hostAccess (.read 0x08 32) { base with hres := 0x80000000#32 }) = some .hostWhileBusy := by decide

/-- V-B1, V-B5, V-B7, V-B9, V-B13, V-B17. -/
theorem test_baud :
    baudTrace 100000 .standard 4000000 = { base1 := 30, lowScaled := 87, corrected := false } ∧
    computeBaud 400000 .standard 4000000 = 13#8 ∧ computeBaud 1000000 .fastPlus 4000000 = 253#8 ∧
    computeBaud 10000 .standard 4000000 = 134#8 ∧ computeBaud 1000000 .fastPlus 10000000 = 0#8 ∧
    computeBaud 1 .standard 1 = 251#8 := by decide

/-- V-R6, V-R7. -/
theorem test_ring :
    (slave 0#8 .idle).tx.read 4 = .ok (0x11#8, { (slave 0#8 .idle).tx with head := 0, length := 1 }) ∧
    (slave 0#8 .idle).tx.write 4 0x5A#8 =
      .ok { store := [(0, 0x22#8), (1, 0x5A#8), (3, 0x11#8)], head := 3, length := 3 } := by decide

/-- V-H2's last two micro-steps: w4 writes the stale length. -/
theorem test_harness :
    value (fun s => s.tx.length)
      (step { harness with schedule := [.engine], bulk := some { n := 1, k := 0, pos := .w4 1 } }) = some 2 := by decide

/-! ### Witnesses: for each statement with hypotheses, states and operands that meet them, clause by clause -/

/-- DecodeOfEncode, at the counts' boundaries and for a command without a count. -/
theorem witness_decodeOfEncode :
    (Instr.msend 0x7F#7 255#8).wf 255 = true ∧ (Instr.senq 0#8).wf 0 = true ∧ (Instr.initm .fastPlus).wf 0 = true ∧
    (Instr.sctrlbResponse .nack (some 0xFF#8)).wf 0 = true := by decide

/-- EncodeOfDecode. -/
theorem witness_encodeOfDecode :
    decode 255 .hcmd 0xFF007F02#32 = .ok (.msend 0x7F#7 255#8) ∧
    decode 1 .sctrlb 0x00FF0103#32 = .ok (.sctrlbResponse .ack (some 0xFF#8)) := by decide

/-- HostDecodeProcedure: a word with no row, mode 3, a count just above and just at C. -/
theorem witness_hostDecodeProcedure :
    (∀ r ∈ opcodeMap, 0x00000008#32 &&& r.mask ≠ r.bits) ∧
    (∃ r ∈ opcodeMap, 0x00030001#32 &&& r.mask = r.bits ∧ r.op = .initm ∧ (0x00030001#32).extractLsb' 16 2 = 3#2) ∧
    (∃ r ∈ opcodeMap, 0x65004802#32 &&& r.mask = r.bits ∧ r.op ∈ [HostOp.msend, .mrecv, .senq, .sdrain] ∧
      100 < ((0x65004802#32).extractLsb' 24 8).toNat) ∧
    (∃ r ∈ opcodeMap, 0x64004802#32 &&& r.mask = r.bits ∧ ¬ r.op = .initm ∧
      ¬ 100 < ((0x64004802#32).extractLsb' 24 8).toNat) := by decide

/-- StepRunsHostCommand: a command word next in the schedule. -/
def hostNext (w : Word) : State := { base with schedule := [.host (.write 0x00 32 w)] }

/-- SENQ 0; and, with HARG = 0 and the master disabled, a reserved opcode, INITM with mode 3, MSEND with COUNT = C + 1. -/
theorem witness_stepRunsHostCommand :
    (∀ w, (hostNext w).faulted = none ∧ (hostNext w).probe = none ∧
      (hostNext w).schedule = .host (.write 0x00 32 w) :: [] ∧ busy (hostNext w) = false) ∧
    decode base.cfg.capacity .hcmd 0x00000006#32 = .ok (.senq 0#8) ∧
    decode base.cfg.capacity .hcmd 0x00000008#32 = .error .reservedEncoding ∧
    decode base.cfg.capacity .hcmd 0x00030001#32 = .error .reservedMode ∧
    decode base.cfg.capacity .hcmd 0x05004802#32 = .error .countAboveCapacity :=
  ⟨fun _ => ⟨rfl, rfl, rfl, (by decide : busy base = false)⟩, by decide, by decide, by decide, by decide⟩

/-- StepRunsLoneAccess: an MCTRLB write waiting. -/
def loneNext : State := { base with probe := some (.mctrlb, 0x07#32) }

/-- See `loneNext`. -/
theorem witness_stepRunsLoneAccess :
    loneNext.faulted = none ∧ loneNext.probe = some (.mctrlb, 0x07#32) ∧
    decode loneNext.cfg.capacity .mctrlb 0x07#32 = .ok (.mctrlbStop .nack) := by decide

/-- TurnsRefusedFaultedOrIdle: a turn with a next state, a refused one, a faulting one, one with no step, no turn listed with
BUSY 0 and 1, and a faulted state. -/
theorem witness_turnsRefusedFaultedOrIdle :
    base.faulted = none ∧ base.probe = none ∧ base.schedule = [] ∧ busy base = false ∧
    ({ base with hres := 0x80000000#32 } : State).schedule = [] ∧
    busy { base with hres := 0x80000000#32 } = true ∧
    turnStep (.host (.write 0x04 32 7#32)) base = some (.next { base with harg := 7#32 }) ∧
    turnStep (.host (.read 0x08 8)) base = some (.refused .badHostAccess) ∧
    turnStep (.host (.read 0x10 8)) base = some (.fault (.unwrittenRead 0)) ∧
    turnStep .engine base = none ∧
    ({ base with faulted := some (.unwrittenRead 3) } : State).faulted = some (.unwrittenRead 3) :=
  ⟨rfl, rfl, rfl, rfl, rfl, rfl, rfl, rfl, rfl, rfl, rfl⟩

/-- HostReadsEachRegister, HostWritesEachRegister: the first and last HBUF entries, written and not, and the first and last
reserved bytes. -/
theorem witness_hostRegisters :
    busy ready = false ∧ storageCanonical ready = true ∧
    0 < ready.cfg.capacity ∧ Memory.read hbufBlank ready.hbuf 0 = some 1#8 ∧
    3 < ready.cfg.capacity ∧ Memory.read hbufBlank ready.hbuf 3 = some 4#8 ∧
    Memory.read hbufBlank base.hbuf 3 = none ∧
    0x10 + ready.cfg.capacity ≤ 0x14 ∧ 0x14 < 0x200 ∧ 0x10 + ready.cfg.capacity ≤ 0x1FF ∧ 0x1FF < 0x200 := by decide

/-- OtherHostAccessesRefused: a byte access below HBUF, a word access at the last HBUF unit, and one above the window. -/
theorem witness_otherHostAccesses :
    busy base = false ∧ base.cfg.valid = true ∧
    (¬ (8 = 32 ∧ (0x0F = 0x00 ∨ 0x0F = 0x04 ∨ 0x0F = 0x08 ∨ 0x0F = 0x0C)) ∧ ¬ (8 = 8 ∧ 0x10 ≤ 0x0F ∧ 0x0F < 0x200)) ∧
    (¬ (32 = 32 ∧ (0x10 = 0x00 ∨ 0x10 = 0x04 ∨ 0x10 = 0x08 ∨ 0x10 = 0x0C)) ∧ ¬ (32 = 8 ∧ 0x10 ≤ 0x10 ∧ 0x10 < 0x200)) ∧
    (¬ (8 = 32 ∧ (0x200 = 0x00 ∨ 0x200 = 0x04 ∨ 0x200 = 0x08 ∨ 0x200 = 0x0C)) ∧
      ¬ (8 = 8 ∧ 0x10 ≤ 0x200 ∧ 0x200 < 0x200)) := by decide

/-- BusyRefusesTheHost. -/
theorem witness_busyRefusesTheHost :
    (0x80000000#32).getLsbD 31 = true ∧ formatOf (.senq 0#8) = .hcmd := by decide

/-- InitmWritesMasterRegisters: HARG at its least nonzero value, and 0. -/
theorem witness_initm :
    base.hres.getLsbD 31 = false ∧ ({ base with harg := 1#32 } : State).harg ≠ 0#32 ∧ base.harg = 0#32 := by decide

/-- MasterCommandsStartTheEngine, SlaveAddressCommands: a count of C and of 0. -/
theorem witness_masterCommands :
    ready.hres.getLsbD 31 = false ∧ (4#8).toNat ≤ ready.cfg.capacity ∧ (0#8).toNat ≤ ready.cfg.capacity ∧
    ready.mctrla.getLsbD 0 = true ∧ ready.bulk = none ∧ ∃ t, exec (.msend 0x48#7 4#8) ready = .next t :=
  ⟨by decide, by decide, by decide, by decide, by decide, ⟨_, rfl⟩⟩

/-- CountingCommandsRefused: one above C, and C with the master disabled. -/
theorem witness_countingCommandsRefused :
    base.hres.getLsbD 31 = false ∧ base.cfg.capacity < (5#8).toNat ∧ (4#8).toNat ≤ base.cfg.capacity ∧
    base.mctrla.getLsbD 0 = false := by decide

/-- SenqAppendsToTx: two bytes already held, HBUF full, three asked for and room for two. -/
def enqueueing : State := { slave 0#8 .idle with hbuf := ready.hbuf }

/-- See `enqueueing`. -/
theorem witness_senq :
    enqueueing.hres.getLsbD 31 = false ∧ enqueueing.cfg.bracket = true ∧ (3#8).toNat ≤ enqueueing.cfg.capacity ∧
    enqueueing.tx.head < enqueueing.cfg.capacity ∧ enqueueing.tx.length ≤ enqueueing.cfg.capacity ∧
    Memory.wf ringBlank enqueueing.tx.store = true ∧
    (∀ i, i < min (3#8).toNat (enqueueing.cfg.capacity - enqueueing.tx.length) →
      Memory.read hbufBlank enqueueing.hbuf i ≠ none) := by decide

/-- SenqFaultsOnUnwrittenEntry: entry 1 holds no value. -/
def enqueueingUnwritten : State := { base with hbuf := [(0, 1#8), (2, 3#8)] }

/-- See `enqueueingUnwritten`. -/
theorem witness_senqFaults :
    enqueueingUnwritten.hres.getLsbD 31 = false ∧ enqueueingUnwritten.cfg.bracket = true ∧
    (4#8).toNat ≤ enqueueingUnwritten.cfg.capacity ∧
    enqueueingUnwritten.tx.length ≤ enqueueingUnwritten.cfg.capacity ∧
    1 < min (4#8).toNat (enqueueingUnwritten.cfg.capacity - enqueueingUnwritten.tx.length) ∧
    (∀ i, i < 1 → Memory.read hbufBlank enqueueingUnwritten.hbuf i ≠ none) ∧
    Memory.read hbufBlank enqueueingUnwritten.hbuf 1 = none := by decide

/-- SdrainTakesFromRx. -/
theorem witness_sdrain :
    enqueueing.hres.getLsbD 31 = false ∧ enqueueing.cfg.bracket = true ∧ (4#8).toNat ≤ enqueueing.cfg.capacity ∧
    enqueueing.rx.head < enqueueing.cfg.capacity ∧ enqueueing.rx.length ≤ enqueueing.cfg.capacity ∧
    Memory.wf hbufBlank enqueueing.hbuf = true := by decide

/-- UnbracketedBulkIsAccepted: counts 0 and C. -/
theorem witness_unbracketed :
    harness.hres.getLsbD 31 = false ∧ harness.cfg.bracket = false ∧ (0#8).toNat ≤ harness.cfg.capacity ∧
    (4#8).toNat ≤ harness.cfg.capacity := by decide

/-- SlavePrimitiveEffects: each phase. -/
theorem witness_slavePrimitives :
    (slave 0x63#8 (.addressed .r)).sphase = .addressed .r ∧ (slave 0xA1#8 (.active .w)).sphase = .active .w ∧
    (slave 0x40#8 .idle).sphase = .idle ∧ (slave 0x01#8 .ending).sphase = .ending := by decide

/-- EngineHoldsUntilAnswered: each waiting state. -/
theorem witness_engineHolds :
    (inTxn .w 2 .addressPhase 0x00#8).bulk = none ∧
    (inTxn .w 2 .addressPhase 0x00#8).txn = some { addr7 := 0x48#7, dir := .w, n := 2 } ∧
    (inTxn .w 2 .addressPhase 0x00#8).mstate = .addressPhase ∧
    (inTxn .w 2 (.dataPhase 1) 0x00#8).mstate = .dataPhase 1 ∧
    (inTxn .r 2 (.dataPhase 1) 0x00#8).txn = some { addr7 := 0x48#7, dir := .r, n := 2 } := by decide

/-- AddressPhaseOutcomes: its clauses by MSTATUS, count and direction. -/
theorem witness_addressPhase :
    (inTxn .w 2 .addressPhase 0x48#8).bulk = none ∧ (inTxn .w 2 .addressPhase 0x48#8).mstate = .addressPhase ∧
    ((0x48#8).getLsbD 6 = true ∧ (0x48#8).getLsbD 3 = true) ∧
    ((0x50#8).getLsbD 6 = true ∧ (0x50#8).getLsbD 4 = true ∧ (0x50#8).getLsbD 3 = false ∧ (0x50#8).getLsbD 2 = false) ∧
    ((0x40#8).getLsbD 6 = true ∧ (0x40#8).getLsbD 4 = false ∧ (0x40#8).getLsbD 3 = false ∧ (0x40#8).getLsbD 2 = false) ∧
    ((0xA0#8).getLsbD 7 = true ∧ (0xA0#8).getLsbD 4 = false) ∧
    (inTxn .w 0 .addressPhase 0x40#8).txn = some { addr7 := 0x48#7, dir := .w, n := 0 } ∧
    Memory.read hbufBlank (inTxn .w 1 .addressPhase 0x40#8).hbuf 0 = some 1#8 ∧
    Memory.read hbufBlank base.hbuf 0 = none := by decide

/-- WriteDataOutcomes: a byte that is not the last, and the last. -/
theorem witness_writeData :
    (inTxn .w 2 (.dataPhase 0) 0x40#8).bulk = none ∧ (inTxn .w 2 (.dataPhase 0) 0x40#8).mstate = .dataPhase 0 ∧
    (inTxn .w 2 (.dataPhase 0) 0x40#8).mstatus.getLsbD 6 = true ∧
    (inTxn .w 2 (.dataPhase 0) 0x40#8).mstatus.getLsbD 4 = false ∧
    (inTxn .w 2 (.dataPhase 0) 0x54#8).mstatus.getLsbD 2 = true ∧
    (inTxn .w 2 (.dataPhase 0) 0x50#8).mstatus.getLsbD 4 = true ∧
    0 + 1 < 2 ∧ 1 + 1 = 2 ∧
    Memory.read hbufBlank (inTxn .w 2 (.dataPhase 0) 0x40#8).hbuf (0 + 1) = some 2#8 ∧
    Memory.read hbufBlank base.hbuf (0 + 1) = none := by decide

/-- ReadDataOutcomes, ReadTerminationGivesIoError: a byte that is not the last, the last, and a termination. -/
theorem witness_readData :
    (inTxn .r 2 (.dataPhase 0) 0xA0#8).bulk = none ∧ (inTxn .r 2 (.dataPhase 0) 0xA0#8).mstate = .dataPhase 0 ∧
    Memory.wf hbufBlank (inTxn .r 2 (.dataPhase 0) 0xA0#8).hbuf = true ∧
    (0xA0#8).getLsbD 5 = true ∧ (0xA0#8).getLsbD 3 = false ∧ (0xA0#8).getLsbD 2 = false ∧
    0 + 1 < 2 ∧ 1 + 1 = 2 ∧ (0x48#8).getLsbD 3 = true ∧ (0x44#8).getLsbD 2 = true := by decide

/-- StopOnlyAtRetirement, EngineWriteSet: a step that retires, one that does not, and one that changes HBUF. -/
theorem witness_engineSteps :
    (∃ t, turnStep .engine (inTxn .w 1 (.dataPhase 0) 0x40#8) = some (.next t) ∧ t.mstate = .idle) ∧
    (∃ t, turnStep .engine (inTxn .w 2 (.dataPhase 0) 0x40#8) = some (.next t) ∧ t.mstate ≠ .idle) ∧
    (∃ t, turnStep .engine (inTxn .r 2 (.dataPhase 0) 0xA0#8) = some (.next t) ∧
      t.hbuf ≠ (inTxn .r 2 (.dataPhase 0) 0xA0#8).hbuf) ∧
    (inTxn .w 2 (.dataPhase 0) 0x40#8).bulk = none ∧ (inTxn .r 2 (.dataPhase 0) 0xA0#8).bulk = none :=
  ⟨⟨_, rfl, rfl⟩, ⟨_, rfl, by decide⟩, ⟨_, rfl, by decide⟩, rfl, rfl⟩

/-- AddressNackReturnsNoDevice. -/
def nackRun : State :=
  { ready with schedule := [.host (.write 0x00 32 (encode (.mrecv 0x3C#7 2#8))), .answer .nack, .engine] }

/-- See `nackRun`. -/
theorem witness_addressNack :
    nackRun.faulted = none ∧ nackRun.probe = none ∧ nackRun.bulk = none ∧ busy nackRun = false ∧
    nackRun.mctrla.getLsbD 0 = true ∧ (2#8).toNat ≤ nackRun.cfg.capacity ∧
    nackRun.schedule = .host (.write 0x00 32 (encode (.mrecv 0x3C#7 2#8))) :: .answer .nack :: .engine :: [] := by decide

/-- WriteTransactionSendsAllBytes with N = C. -/
def writeRun : State :=
  { ready with schedule := .host (.write 0x00 32 (encode (.msend 0x48#7 4#8))) :: .answer .ackW :: .engine ::
      (ackedRounds (4#8).toNat ++ [.isr]) }

/-- See `writeRun`. -/
theorem witness_writeTransaction :
    writeRun.faulted = none ∧ writeRun.probe = none ∧ writeRun.bulk = none ∧ busy writeRun = false ∧
    writeRun.mctrla.getLsbD 0 = true ∧ (4#8).toNat ≤ writeRun.cfg.capacity ∧
    [1#8, 2#8, 3#8, 4#8].length = (4#8).toNat ∧
    (∀ i (h : i < [1#8, 2#8, 3#8, 4#8].length), Memory.read hbufBlank writeRun.hbuf i = some [1#8, 2#8, 3#8, 4#8][i]) ∧
    writeRun.schedule = .host (.write 0x00 32 (encode (.msend 0x48#7 4#8))) :: .answer .ackW :: .engine ::
      (ackedRounds (4#8).toNat ++ [.isr]) := by decide

/-- PartialNackPlacesKBytes with k = N = 2. -/
def partialRun : State :=
  { ready with schedule := .host (.write 0x00 32 (encode (.msend 0x48#7 2#8))) :: .answer .ackW :: .engine ::
      (ackedRounds (2 - 1) ++ .answer .nack :: .engine :: []) }

/-- See `partialRun`. -/
theorem witness_partialNack :
    partialRun.faulted = none ∧ partialRun.probe = none ∧ partialRun.bulk = none ∧ busy partialRun = false ∧
    partialRun.mctrla.getLsbD 0 = true ∧ (2#8).toNat ≤ partialRun.cfg.capacity ∧
    1 ≤ [1#8, 2#8].length ∧ [1#8, 2#8].length ≤ (2#8).toNat ∧
    (∀ i (h : i < [1#8, 2#8].length), Memory.read hbufBlank partialRun.hbuf i = some [1#8, 2#8][i]) ∧
    partialRun.schedule = .host (.write 0x00 32 (encode (.msend 0x48#7 2#8))) :: .answer .ackW :: .engine ::
      (ackedRounds ([1#8, 2#8].length - 1) ++ .answer .nack :: .engine :: []) := by decide

/-- ReadTransactionStoresAllBytes with N = 2. -/
def readRun : State :=
  { ready with schedule := .host (.write 0x00 32 (encode (.mrecv 0x50#7 2#8))) :: .answer (.ackR 0x12#8) :: .engine ::
      .engine :: (byteRounds [0x34#8] ++ []) }

/-- See `readRun`. -/
theorem witness_readTransaction :
    readRun.faulted = none ∧ readRun.probe = none ∧ readRun.bulk = none ∧ busy readRun = false ∧
    readRun.mctrla.getLsbD 0 = true ∧ Memory.wf hbufBlank readRun.hbuf = true ∧
    (2#8).toNat ≤ readRun.cfg.capacity ∧ [0x12#8, 0x34#8].length = (2#8).toNat ∧
    readRun.schedule = .host (.write 0x00 32 (encode (.mrecv 0x50#7 2#8))) :: .answer (.ackR 0x12#8) :: .engine ::
      .engine :: (byteRounds [0x34#8] ++ []) := by decide

/-- OnlyAnAnswerLiftsTheHold: a host access while FG holds. -/
def holding : State := { inTxn .w 1 .addressPhase 0x00#8 with mreq := .addr .w, schedule := [.host (.read 0x08 32)] }

/-- See `holding`. -/
theorem witness_onlyAnAnswer :
    holding.faulted = none ∧ holding.probe = none ∧ holding.bulk = none ∧ busy holding = true ∧ holding.mstate ≠ .idle ∧
    (turnStep .engine holding).isNone = true ∧ turnTaken holding = some (.host (.read 0x08 32)) ∧
    (∀ a, Turn.host (.read 0x08 32) ≠ .answer a) := by
  refine ⟨by decide, by decide, by decide, by decide, by decide, by decide, by decide, ?_⟩
  intro a h
  cases h

/-- BusAnswersMaster: every request. -/
theorem witness_busAnswers :
    ({ base with mreq := .addr .w } : State).mreq = .addr .w ∧ ({ base with mreq := .addr .r } : State).mreq = .addr .r ∧
    ({ base with mreq := .tx } : State).mreq = .tx ∧ ({ base with mreq := .recvNext } : State).mreq = .recvNext ∧
    base.mreq = .none := by decide

/-- BusRaisesSlaveEvents: nothing pending in Idle, Active(0) and Active(1), and something pending. -/
theorem witness_slaveEvents :
    (slave 0x0B#8 .idle).sctrla.getLsbD 0 = true ∧ (slave 0x0B#8 .idle).sstatus.getLsbD 7 = false ∧
    (slave 0x0B#8 .idle).sstatus.getLsbD 6 = false ∧ (slave 0x0B#8 .idle).sstatus.getLsbD 5 = false ∧
    0x21#7 = (slave 0x0B#8 .idle).saddr.extractLsb' 1 7 ∧ 0x22#7 ≠ (slave 0x0B#8 .idle).saddr.extractLsb' 1 7 ∧
    (slave 0x01#8 (.active .w)).sphase = .active .w ∧ (slave 0x03#8 (.active .r)).sphase = .active .r ∧
    (slave 0x01#8 (.active .w)).sphase ≠ .idle ∧
    base.sctrla.getLsbD 0 = false ∧ (slave 0xA1#8 (.active .w)).sstatus.getLsbD 7 = true := by decide

/-- HandlerTransmits: a held byte, and an empty ring. -/
theorem witness_handlerTransmits :
    isrEnabled (slave 0xA3#8 (.active .r)) = true ∧ (slave 0xA3#8 (.active .r)).sstatus.getLsbD 7 = true ∧
    (slave 0xA3#8 (.active .r)).sstatus.getLsbD 1 = true ∧ (slave 0xA3#8 (.active .r)).sphase = .active .r ∧
    0 < (slave 0xA3#8 (.active .r)).tx.length ∧ Ring.empty.length = 0 := by decide

/-- HandlerReceives: room, and a full ring. -/
theorem witness_handlerReceives :
    isrEnabled (slave 0xA1#8 (.active .w)) = true ∧ (slave 0xA1#8 (.active .w)).sstatus.getLsbD 7 = true ∧
    (slave 0xA1#8 (.active .w)).sstatus.getLsbD 1 = false ∧ (slave 0xA1#8 (.active .w)).sphase = .active .w ∧
    Memory.wf ringBlank (slave 0xA1#8 (.active .w)).rx.store = true ∧
    (slave 0xA1#8 (.active .w)).rx.length ≠ (slave 0xA1#8 (.active .w)).cfg.capacity ∧
    ({ (slave 0xA1#8 (.active .w)).rx with length := 4 } : Ring).length = (slave 0xA1#8 (.active .w)).cfg.capacity := by
  decide

/-- HandlerAnswersAddressAndStop: a match, a stop, and a match beside COLL. -/
theorem witness_handlerAddressStop :
    isrEnabled (slave 0x61#8 (.addressed .w)) = true ∧ (slave 0x61#8 (.addressed .w)).sstatus.getLsbD 7 = false ∧
    (slave 0x61#8 (.addressed .w)).sstatus.getLsbD 6 = true ∧ (slave 0x61#8 (.addressed .w)).sstatus.getLsbD 0 = true ∧
    (slave 0x61#8 (.addressed .w)).sstatus.getLsbD 3 = false ∧ (slave 0x61#8 (.addressed .w)).sphase = .addressed .w ∧
    isrEnabled (slave 0x40#8 .idle) = true ∧ (slave 0x40#8 .idle).sstatus.getLsbD 0 = false ∧
    (slave 0x49#8 .idle).sstatus.getLsbD 3 = true := by decide

/-- HandlerWriteSet. -/
theorem witness_handlerWriteSet : ∃ t, turnStep .isr (slave 0xA3#8 (.active .r)) = some (.next t) := ⟨_, rfl⟩

/-- PendingConditionWaitsForTheHandler: a pending byte, and a bus event as the next turn. -/
def waiting : State := { slave 0xA1#8 (.active .w) with schedule := [.event .stop] }

/-- See `waiting`. -/
theorem witness_pendingConditionWaits :
    waiting.probe = none ∧ unmasked waiting = true ∧ waiting.sstatus.getLsbD 7 = true ∧
    turnTaken waiting ≠ some .isr ∧ ∃ t, step waiting = .next t :=
  ⟨by decide, by decide, by decide, by decide, ⟨_, rfl⟩⟩

/-- UnderflowShortensTheTransaction: two bytes held, asked for three. -/
def underflowRun : State :=
  { slave 0x00#8 .idle with
    schedule := (Turn.event (.addressByte 0x21#7 .r)) :: .isr :: (requestRounds (2 + 1) ++ []) }

/-- See `underflowRun`. -/
theorem witness_underflow :
    slaveReady underflowRun ∧ underflowRun.tx.head < underflowRun.cfg.capacity ∧
    underflowRun.tx.length ≤ underflowRun.cfg.capacity ∧
    underflowRun.schedule = .event (.addressByte (underflowRun.saddr.extractLsb' 1 7) .r) :: .isr ::
      (requestRounds (underflowRun.tx.length + 1) ++ []) := by
  refine ⟨?_, by decide, by decide, by decide⟩
  unfold slaveReady
  decide

/-- OverflowDropsTheByte: room for two, three written. -/
def overflowRun : State :=
  { slave 0x00#8 .idle with
    schedule := (Turn.event (.addressByte 0x21#7 .w)) :: .isr ::
      (deliverRounds ([0xE1#8, 0xE2#8] ++ [0xE3#8]) ++ []) }

/-- See `overflowRun`. -/
theorem witness_overflow :
    slaveReady overflowRun ∧ overflowRun.rx.head < overflowRun.cfg.capacity ∧
    overflowRun.rx.length + [0xE1#8, 0xE2#8].length = overflowRun.cfg.capacity ∧
    Memory.wf ringBlank overflowRun.rx.store = true ∧
    overflowRun.schedule = .event (.addressByte (overflowRun.saddr.extractLsb' 1 7) .w) :: .isr ::
      (deliverRounds ([0xE1#8, 0xE2#8] ++ [0xE3#8]) ++ []) := by
  refine ⟨?_, by decide, by decide, by decide, by decide⟩
  unfold slaveReady
  decide

/-- RingIsFifo: room, a full ring, a byte held, an empty ring. -/
theorem witness_ring :
    (slave 0#8 .idle).tx.head < 4 ∧ (slave 0#8 .idle).tx.length < 4 ∧ 0 < (slave 0#8 .idle).tx.length ∧
    Memory.wf ringBlank (slave 0#8 .idle).tx.store = true ∧
    ({ (slave 0#8 .idle).tx with length := 4 } : Ring).length = 4 ∧ Ring.empty.length = 0 ∧ Ring.empty.head < 4 := by decide

/-- BaudHasOneCorrectionPath, CorrectedEstimateIsBelowThreshold: either path (V-B13 and V-B2), and a clock whose product
SCALE divides or not. -/
theorem witness_baud :
    0 < 1000000 ∧ 0 < 10000000 ∧ (5 : Int) ≤ Int.tdiv ((Int.tdiv 10000000 1000000 - 10 + 5) * 10000000) 10000000 ∧
    Int.tdiv ((Int.tdiv 4000000 400000 - 10 + 5) * 10000000) 4000000 < (13 : Int) ∧
    ((10000000 : Int) ∣ (10000000 : Nat) * baudThreshold .fastPlus) ∧
    ¬ ((10000000 : Int) ∣ (4000000 : Nat) * baudThreshold .fast) := by decide

/-- The invariants' statements: a state that meets them all takes a step. -/
def invariantWitness : State :=
  { inTxn .w 2 (.dataPhase 0) 0x40#8 with
    sctrla := 0x0F#8, saddr := 0x42#8, sstatus := 0xA1#8, sphase := .active .w
    schedule := [.engine] }

/-- See `invariantWitness`. -/
theorem witness_invariants :
    noProbe invariantWitness = true ∧ ringsInRange invariantWitness = true ∧ storageCanonical invariantWitness = true ∧
    masterInvariant invariantWitness = true ∧ slaveInvariant invariantWitness = true ∧
    registersLegal invariantWitness = true ∧ unmasked invariantWitness = true ∧ enablesTogether invariantWitness = true ∧
    ∃ t, step invariantWitness = .next t :=
  ⟨by decide, by decide, by decide, by decide, by decide, by decide, by decide, by decide, ⟨_, rfl⟩⟩

/-- TraceAndMarksOnlyGrow: a step with a refusal recorded before it. -/
theorem witness_marks :
    ({ invariantWitness with refused := some .zeroFrequency } : State).refused = some .zeroFrequency ∧
    ∃ t, step { invariantWitness with refused := some .zeroFrequency } = .next t := ⟨rfl, ⟨_, rfl⟩⟩

/-- UnbracketedDrainLosesAByte (V-H1). -/
def lostByteRun : State :=
  { harness with
    sctrla := 0x0F#8, sstatus := 0xA1#8, sphase := .active .w, sdata := 0xBB#8
    rx := { store := [(0, 0xAA#8)], head := 0, length := 1 }
    bulk := some { n := 4, k := 0, pos := .r1 }
    schedule := [.engine, .engine, .engine, .isr, .engine, .engine] }

/-- See `lostByteRun`. -/
theorem witness_lostByte :
    lostByteRun.faulted = none ∧ lostByteRun.probe = none ∧ lostByteRun.imask = false ∧ lostByteRun.sctrla = 0x0F#8 ∧
    lostByteRun.sstatus.getLsbD 7 = true ∧ lostByteRun.sstatus.getLsbD 1 = false ∧ lostByteRun.sphase = .active .w ∧
    lostByteRun.bulk = some { n := 4, k := 0, pos := .r1 } ∧ lostByteRun.rx.length = 1 ∧ 0 < 1 ∧
    1 < lostByteRun.cfg.capacity ∧ Memory.wf ringBlank lostByteRun.rx.store = true ∧
    lostByteRun.schedule = .engine :: .engine :: .engine :: .isr :: .engine :: .engine :: [] := by decide

/-- UnbracketedEnqueueClaimsAPhantom (V-H2). -/
def phantomRun : State :=
  { harness with
    sctrla := 0x0F#8, sstatus := 0xA3#8, sphase := .active .r, hbuf := [(0, 0x22#8)]
    tx := { store := [(0, 0x11#8)], head := 0, length := 1 }
    bulk := some { n := 1, k := 0, pos := .w1 }
    schedule := [.engine, .engine, .isr, .engine, .engine] }

/-- See `phantomRun`. -/
theorem witness_phantom :
    phantomRun.faulted = none ∧ phantomRun.probe = none ∧ phantomRun.imask = false ∧ phantomRun.sctrla = 0x0F#8 ∧
    phantomRun.sstatus.getLsbD 7 = true ∧ phantomRun.sstatus.getLsbD 1 = true ∧ phantomRun.sphase = .active .r ∧
    phantomRun.bulk = some { n := 1, k := 0, pos := .w1 } ∧ phantomRun.tx.length = 1 ∧ 0 < 1 ∧
    1 < phantomRun.cfg.capacity ∧ Memory.wf ringBlank phantomRun.tx.store = true ∧
    Memory.read hbufBlank phantomRun.hbuf 0 = some 0x22#8 ∧
    phantomRun.schedule = .engine :: .engine :: .isr :: .engine :: .engine :: [] := by decide

/-- UndisturbedLoopMatchesBracketed: SENQ 2. -/
def undisturbed : State :=
  { harness with
    hbuf := ready.hbuf
    schedule := .host (.write 0x00 32 (encode (.senq 2#8))) :: (List.replicate (5 * (2#8).toNat + 2) .engine ++ []) }

/-- See `undisturbed`. -/
theorem witness_undisturbed :
    undisturbed.faulted = none ∧ undisturbed.probe = none ∧ undisturbed.bulk = none ∧ undisturbed.mstate = .idle ∧
    busy undisturbed = false ∧ undisturbed.cfg.bracket = false ∧ ringsInRange undisturbed = true ∧
    undisturbed.schedule =
      .host (.write 0x00 32 (encode (.senq 2#8))) :: (List.replicate (5 * (2#8).toNat + 2) .engine ++ []) ∧
    ∃ t, exec (.senq 2#8) { undisturbed with cfg := { undisturbed.cfg with bracket := true } } = .next t :=
  ⟨by decide, by decide, by decide, by decide, by decide, by decide, by decide, by decide, ⟨_, rfl⟩⟩

/-! ### A fair run for FairRunServesTheRequest

The drawn turns are free values, so the run below must be fair whatever they are: after its one request is served, FG holds
for ever and no event can raise the line again. -/

/-- The first state: a transmit request pending, TX empty, only DIEN set, FG holding with no request outstanding. -/
def fairStart : State :=
  { base with
    hres := 0x80000000#32, mstate := .addressPhase, txn := some { addr7 := 0#7, dir := .w, n := 0 }
    sctrla := 0x03#8, sstatus := 0xA2#8, sphase := .active .r, schedule := [.isr] }

/-- What holds from the second state on. -/
def Quiet (s : State) : Prop :=
  s.faulted = none ∧ s.probe = none ∧ s.imask = false ∧ busy s = true ∧ s.bulk = none ∧ s.mstate = .addressPhase ∧
  s.txn = some { addr7 := 0#7, dir := .w, n := 0 } ∧ s.mstatus = 0#8 ∧ s.mreq = .none ∧ s.sctrla = 0x03#8 ∧
  s.schedule = [] ∧ sDif s.sstatus = false ∧ s.sphase ≠ .active .w ∧ s.sphase ≠ .active .r

/-- With only DIEN set, the line follows DIF. -/
theorem sirq_dien : ∀ v : Byte, sDif v = false → sirq 0x03#8 v = false := by decide

/-- The events other than data ones leave DIF as it is. -/
theorem sDif_events : ∀ v : Byte, sDif v = false →
    sDif (sAddrMatch .w v) = false ∧ sDif (sAddrMatch .r v) = false ∧ sDif (sStop v) = false ∧
    sDif (sCollision v) = false := by decide

theorem Quiet_isr {s : State} (h : Quiet s) : isrEnabled s = false := by
  obtain ⟨-, -, -, -, -, -, -, -, -, hc, -, hd, -, -⟩ := h
  simp only [isrEnabled, hc, sirq_dien _ hd, Bool.and_false]

theorem Quiet_engine {s : State} (h : Quiet s) : fgStep s = none := by
  obtain ⟨-, -, -, -, hb, hm, hx, hv, -, -, -, -, -, -⟩ := h
  have hne : s.mstate ≠ .idle := by rw [hm]; decide
  simp only [fgStep, hb, masterStep_eq hne hx, enabledTrans, hm, hv]
  rfl

theorem Quiet_event {s t : State} {e : SlaveEvent} (h : Quiet s) (he : busEvent e s = some t) : Quiet t := by
  obtain ⟨-, hg, rfl⟩ := busEvent_cases he
  obtain ⟨h1, h2, h3, h4, h5, h6, h7, h8, h9, h10, h11, hd, hw, hr⟩ := h
  obtain ⟨e1, e2, e3, e4⟩ := sDif_events _ hd
  cases e with
  | addressByte a d =>
    cases d with
    | w => exact ⟨h1, h2, h3, h4, h5, h6, h7, h8, h9, h10, h11, e1, fun x => (by cases x), fun x => (by cases x)⟩
    | r => exact ⟨h1, h2, h3, h4, h5, h6, h7, h8, h9, h10, h11, e2, fun x => (by cases x), fun x => (by cases x)⟩
  | stop => exact ⟨h1, h2, h3, h4, h5, h6, h7, h8, h9, h10, h11, e3, fun x => (by cases x), fun x => (by cases x)⟩
  | collision => exact ⟨h1, h2, h3, h4, h5, h6, h7, h8, h9, h10, h11, e4, fun x => (by cases x), fun x => (by cases x)⟩
  | dataRx b => exact absurd (of_decide_eq_true hg) hw
  | dataTxReq => exact absurd (of_decide_eq_true hg) hr

theorem Quiet_step {s : State} (h : Quiet s) : ∃ t, step s = .next t ∧ Quiet t := by
  have hq : Quiet (countDraw s) := h
  obtain ⟨h1, h2, -, hb, -, -, -, -, h9, -, h11, -, -, -⟩ := id hq
  have hs : step s = takeDrawn (Config.freeTurn s.draws) (countDraw s) := by
    rw [step_eq_nextTurn (s := s) h1 h2]
    unfold nextTurn
    rw [show s.schedule = [] from h11]
  rw [hs]
  have stay : ∀ k, turnStep k (countDraw s) = none → ∃ t, takeTurn k (countDraw s) = .next t ∧ Quiet t :=
    fun k hk => ⟨_, takeTurn_of_none hk, hq⟩
  cases Config.freeTurn s.draws with
  | host a =>
    refine ⟨countDraw s, ?_, hq⟩
    simp only [takeDrawn, hb, if_true]
  | engine => exact stay _ (by simp only [turnStep, Quiet_engine hq, Option.map_none])
  | isr => exact stay _ (by simp only [turnStep, Quiet_isr hq, Bool.false_eq_true, if_false])
  | answer a =>
    refine stay _ ?_
    simp only [turnStep, busAnswer, h9, answerAdmitted, Bool.false_eq_true, if_false, Option.map_none]
  | event e =>
    cases he : busEvent e (countDraw s) with
    | none => exact stay _ (by simp only [turnStep, he, Option.map_none])
    | some t =>
      refine ⟨t, ?_, Quiet_event hq he⟩
      have ht : turnStep (.event e) (countDraw s) = some (.next t) := by simp only [turnStep, he, Option.map_some]
      exact takeTurn_of_some ht

/-- The next state, where there is one. -/
def nextOf (s : State) : State :=
  match step s with
  | .next t => t
  | .fault _ => s
  | .refused _ => s

/-- The run from `fairStart`. -/
def fairRun : Nat → State
  | 0 => fairStart
  | n + 1 => nextOf (fairRun n)

theorem fairRun_one : step fairStart = .next (fairRun 1) ∧ Quiet (fairRun 1) := by
  refine ⟨rfl, ?_⟩
  unfold Quiet
  decide

theorem fairRun_quiet (n : Nat) : Quiet (fairRun (n + 1)) := by
  induction n with
  | zero => exact fairRun_one.2
  | succ n ih =>
    obtain ⟨t, ht, hq⟩ := Quiet_step ih
    have e : fairRun (n + 2) = t := by
      change nextOf (fairRun (n + 1)) = t
      unfold nextOf
      rw [ht]
    rw [e]
    exact hq

/-- FairRunServesTheRequest's hypotheses, all together. -/
theorem witness_fairRun :
    IsRun fairRun ∧ WeaklyFair fairRun ∧ (∀ m, (fairRun m).probe = none ∧ unmasked (fairRun m) = true) ∧
    isrEnabled (fairRun 0) = true := by
  have quiet : ∀ m, 1 ≤ m → Quiet (fairRun m) := fun m hm => by
    obtain ⟨k, rfl⟩ : ∃ k, m = k + 1 := ⟨m - 1, by omega⟩
    exact fairRun_quiet k
  refine ⟨?_, ⟨?_, ?_⟩, ?_, by decide⟩
  · intro n
    cases n with
    | zero => exact fairRun_one.1
    | succ n =>
      obtain ⟨t, ht, -⟩ := Quiet_step (fairRun_quiet n)
      rw [ht]
      change _ = Host.Outcome.next (nextOf (fairRun (n + 1)))
      unfold nextOf
      rw [ht]
  · intro n h
    have := h (n + 1) (by omega)
    rw [Quiet_isr (fairRun_quiet n)] at this
    cases this
  · intro n h
    have := h (n + 1) (by omega)
    rw [engineEnabled, Quiet_engine (fairRun_quiet n)] at this
    cases this
  · intro m
    cases m with
    | zero => decide
    | succ m =>
      obtain ⟨-, h2, h3, -⟩ := fairRun_quiet m
      exact ⟨h2, by simp only [unmasked, h3, Bool.not_false]⟩

end Sys2Proof.Tests
end

