-- ==== Sys2Proof/Proofs/HostDecode.lean ====
section
/-! The decoder of the HCMD format, row by row: which row of the opcode map a word selects, and what R83's checks answer
for that row. -/

namespace Sys2Proof

/-! ### The row a word selects (R82) -/

/-- The opcode byte is in every mask, so a selected row fixes the word's opcode byte. -/
theorem opcode_of_row {r : OpcodeRow} {w : Word} (hr : r ∈ opcodeMap) (h : w &&& r.mask = r.bits) :
    w &&& 0xFF#32 = r.bits &&& 0xFF#32 := by
  have masked : ∀ r ∈ opcodeMap, r.mask &&& 0xFF#32 = 0xFF#32 := by decide
  rw [← h, BitVec.and_assoc, masked r hr]

/-- At most one row matches a word: the rows' opcode bytes differ. -/
theorem row_unique {r q : OpcodeRow} {w : Word} (hr : r ∈ opcodeMap) (hq : q ∈ opcodeMap)
    (hwr : w &&& r.mask = r.bits) (hwq : w &&& q.mask = q.bits) : r = q := by
  have opcodes_differ :
      ∀ r ∈ opcodeMap, ∀ q ∈ opcodeMap, r.bits &&& 0xFF#32 = q.bits &&& 0xFF#32 → r = q := by decide
  exact opcodes_differ r hr q hq ((opcode_of_row hr hwr).symm.trans (opcode_of_row hq hwq))

theorem OpcodeRow.selects_iff {r : OpcodeRow} {w : Word} : r.selects w = true ↔ w &&& r.mask = r.bits :=
  beq_iff_eq

/-- A word with no row is refused before any field is read (R83). -/
theorem decode_hcmd_of_no_row {w : Word} (c : Nat) (h : ∀ r ∈ opcodeMap, w &&& r.mask ≠ r.bits) :
    decode c .hcmd w = .error .reservedEncoding := by
  have none_found : opcodeMap.find? (fun r => r.selects w) = none :=
    List.find?_eq_none.mpr fun r hr hs => h r hr (OpcodeRow.selects_iff.mp hs)
  simp only [decode, decodeHcmd, none_found]

/-- A word with a row is decoded by that row, wherever it stands in the map. -/
theorem decode_hcmd_of_row {r : OpcodeRow} {w : Word} (c : Nat) (hr : r ∈ opcodeMap) (h : w &&& r.mask = r.bits) :
    decode c .hcmd w = decodeRow c w r.op := by
  cases hf : opcodeMap.find? (fun r => r.selects w) with
  | none => exact absurd (OpcodeRow.selects_iff.mpr h) (List.find?_eq_none.mp hf r hr)
  | some q =>
    have hs : q.selects w = true := List.find?_some (p := fun r : OpcodeRow => r.selects w) hf
    have hq : q = r := row_unique (List.mem_of_find?_eq_some hf) hr (OpcodeRow.selects_iff.mp hs) h
    simp only [decode, decodeHcmd, hf, hq]

/-! ### What a selected row answers (R83) -/

theorem checkCount_of_le {c : Nat} {n : Byte} (h : n.toNat ≤ c) (i : Instr) : checkCount c n i = .ok i :=
  if_pos h

theorem checkCount_of_lt {c : Nat} {n : Byte} (h : c < n.toNat) (i : Instr) :
    checkCount c n i = .error .countAboveCapacity :=
  if_neg (Nat.not_le.mpr h)

/-- The only reserved mode is 3 (R80). -/
theorem BusMode.ofNumber?_eq_none_iff : ∀ m : BitVec 2, BusMode.ofNumber? m = none ↔ m = 3#2 := by decide

theorem rowCommand_initm (w : Word) : rowCommand .initm w = (BusMode.ofNumber? (Word.mode w)).map .initm := by
  unfold rowCommand BusMode.ofNumber? Word.mode
  split_ifs <;> rfl

theorem decodeRow_initm_of_mode_three {w : Word} (c : Nat) (h : w.extractLsb' 16 2 = 3#2) :
    decodeRow c w .initm = .error .reservedMode := by
  have hm : BusMode.ofNumber? (Word.mode w) = none := (BusMode.ofNumber?_eq_none_iff _).mpr h
  simp only [decodeRow, hm]

/-- INITM with a mode that is not the reserved one: the decoder and R81's fields agree. -/
theorem decodeRow_initm_of_mode_ne_three {w : Word} (c : Nat) (h : w.extractLsb' 16 2 ≠ 3#2) :
    ∃ i, rowCommand .initm w = some i ∧ decodeRow c w .initm = .ok i := by
  cases hm : BusMode.ofNumber? (Word.mode w) with
  | none => exact absurd ((BusMode.ofNumber?_eq_none_iff _).mp hm) h
  | some m => exact ⟨.initm m, by rw [rowCommand_initm, hm, Option.map_some], by simp only [decodeRow, hm]⟩

/-- A counting command's row is the check of its count on the command R81 reads from the word. -/
theorem decodeRow_counting {op : HostOp} (c : Nat) (w : Word) (h : op ∈ [HostOp.msend, .mrecv, .senq, .sdrain]) :
    ∃ i, rowCommand op w = some i ∧ decodeRow c w op = checkCount c (w.extractLsb' 24 8) i := by
  cases op with
  | msend => exact ⟨_, rfl, rfl⟩
  | mrecv => exact ⟨_, rfl, rfl⟩
  | senq => exact ⟨_, rfl, rfl⟩
  | sdrain => exact ⟨_, rfl, rfl⟩
  | initm => simp at h
  | inits => simp at h
  | setsa => simp at h

theorem decodeRow_of_count_above {op : HostOp} {c : Nat} {w : Word}
    (hop : op ∈ [HostOp.msend, .mrecv, .senq, .sdrain]) (hc : c < (w.extractLsb' 24 8).toNat) :
    decodeRow c w op = .error .countAboveCapacity := by
  obtain ⟨i, -, hi⟩ := decodeRow_counting c w hop
  rw [hi, checkCount_of_lt hc]

/-- A row that passes R83's two checks is its command with its fields. -/
theorem decodeRow_of_checks_pass {op : HostOp} {c : Nat} {w : Word}
    (hmode : ¬ (op = .initm ∧ w.extractLsb' 16 2 = 3#2))
    (hcount : ¬ (op ∈ [HostOp.msend, .mrecv, .senq, .sdrain] ∧ c < (w.extractLsb' 24 8).toNat)) :
    ∃ i, rowCommand op w = some i ∧ decodeRow c w op = .ok i := by
  by_cases hop : op ∈ [HostOp.msend, .mrecv, .senq, .sdrain]
  · obtain ⟨i, hcmd, hi⟩ := decodeRow_counting c w hop
    have hle : (w.extractLsb' 24 8).toNat ≤ c := Nat.not_lt.mp fun hlt => hcount ⟨hop, hlt⟩
    exact ⟨i, hcmd, by rw [hi, checkCount_of_le hle]⟩
  · cases op with
    | initm => exact decodeRow_initm_of_mode_ne_three c fun hm => hmode ⟨rfl, hm⟩
    | inits => exact ⟨_, rfl, rfl⟩
    | setsa => exact ⟨_, rfl, rfl⟩
    | msend => simp at hop
    | mrecv => simp at hop
    | senq => simp at hop
    | sdrain => simp at hop

/-- Settles O4: the row is unique by its opcode byte, so the decoder's first match is any match, and R83's checks are
settled row by row. -/
theorem hostDecodeProcedure : Obligations.HostDecodeProcedure := by
  refine ⟨rfl, fun c w => ⟨fun r q hr hq => row_unique hr hq, decode_hcmd_of_no_row c, fun r hr hw => ?_⟩⟩
  rw [decode_hcmd_of_row c hr hw]
  refine ⟨?_, fun ⟨hop, hc⟩ => decodeRow_of_count_above hop hc, decodeRow_of_checks_pass⟩
  rintro ⟨hop, hm⟩
  rw [hop, decodeRow_initm_of_mode_three c hm]

end Sys2Proof
end

