-- ==== Sys2Proof/Proofs/BaudGenerator.lean ====
section
/-! The baud generator: the value before truncation on either side of the threshold (R123), and the truncation as the
residue modulo 256 (R126). -/

namespace Sys2Proof

open Sys2Proof.Machine

/-- R123: an estimate at the threshold or above takes no correction. -/
theorem baudFinal_of_threshold_le {f clock : Nat} {m : BusMode}
    (h : baudThreshold m ≤ baudLowScaled (baudBase f clock) clock) : baudFinal f m clock = baudBase f clock :=
  if_neg (by simpa only [baudTrace, decide_eq_true_eq, Int.not_lt] using h)

/-- R123: an estimate below the threshold takes the correction. -/
theorem baudFinal_of_lt_threshold {f clock : Nat} {m : BusMode}
    (h : baudLowScaled (baudBase f clock) clock < baudThreshold m) : baudFinal f m clock = baudCorrected m clock :=
  if_pos (decide_eq_true h)

/-- R126: `trunc_8` is the residue modulo 256, also of a negative value. -/
theorem computeBaud_toNat (f : Nat) (m : BusMode) (clock : Nat) :
    ((computeBaud f m clock).toNat : Int) = baudFinal f m clock % 256 := by
  have residue_nonneg : 0 ≤ baudFinal f m clock % 256 := Int.emod_nonneg _ (by decide)
  rw [computeBaud, BitVec.toNat_ofInt]
  exact Int.toNat_of_nonneg residue_nonneg

/-- Settles O47: the estimate's side of the threshold fixes the value before truncation, and truncation is the residue
modulo 256. -/
theorem baudHasOneCorrectionPath : Obligations.BaudHasOneCorrectionPath := by
  intro f clock m _ _
  refine ⟨baudThreshold m, by cases m <;> rfl, fun reached => ?_, fun below => ?_⟩
  · rw [computeBaud_toNat, baudFinal_of_threshold_le reached]
    rfl
  · rw [computeBaud_toNat, baudFinal_of_lt_threshold below]
    rfl

end Sys2Proof
end

