-- ==== Sys2Proof/Proofs/MasterEngine.lean ====
section
/-! The Master Engine's turn, one transition at a time: which transition R152, R160 and R165 select, and the state it
leaves. -/

namespace Sys2Proof

open Sys2Proof.Machine

/-! ### The transition selected -/

theorem mLost_eq_false {v : Byte} (h3 : v.getLsbD 3 = false) (h2 : v.getLsbD 2 = false) : mLost v = false := by
  simp only [mLost, mArblost, mBuserr, h3, h2, Bool.or_self]

/-- T1's guard is tested first (R152). -/
theorem addressTrans_of_lost {v : Byte} (x : Txn) (hl : mLost v = true) : addressTrans v x = .t1 :=
  if_pos hl

theorem addressTrans_of_nack {v : Byte} (x : Txn) (hl : mLost v = false) (hr : mRxack v = true) :
    addressTrans v x = .t2 := by
  simp only [addressTrans, hl, hr, Bool.false_eq_true, if_false, if_true]

theorem addressTrans_of_empty {v : Byte} {x : Txn} (hl : mLost v = false) (hr : mRxack v = false) (hn : x.n = 0) :
    addressTrans v x = .t3 := by
  simp only [addressTrans, hl, hr, hn, Bool.false_eq_true, if_false, if_true]

theorem addressTrans_of_write {v : Byte} {x : Txn} (hl : mLost v = false) (hr : mRxack v = false) (hn : 0 < x.n)
    (hd : x.dir = .w) : addressTrans v x = .t4 := by
  simp only [addressTrans, hl, hr, hn.ne', hd, Bool.false_eq_true, if_false]

theorem addressTrans_of_read {v : Byte} {x : Txn} (hl : mLost v = false) (hr : mRxack v = false) (hn : 0 < x.n)
    (hd : x.dir = .r) : addressTrans v x = .t5 := by
  simp only [addressTrans, hl, hr, hn.ne', hd, Bool.false_eq_true, if_false]

/-- T6's guard is tested first (R160). -/
theorem writeTrans_of_lost {v : Byte} (x : Txn) (i : Nat) (hl : mLost v = true) : writeTrans v x i = .t6 :=
  if_pos hl

theorem writeTrans_of_nack {v : Byte} (x : Txn) (i : Nat) (hl : mLost v = false) (hr : mRxack v = true) :
    writeTrans v x i = .t7 := by
  simp only [writeTrans, hl, hr, Bool.false_eq_true, if_false, if_true]

theorem writeTrans_of_more {v : Byte} {x : Txn} {i : Nat} (hl : mLost v = false) (hr : mRxack v = false)
    (hi : i + 1 < x.n) : writeTrans v x i = .t8 i := by
  simp only [writeTrans, hl, hr, hi, Bool.false_eq_true, if_false, if_true]

theorem writeTrans_of_last {v : Byte} {x : Txn} {i : Nat} (hl : mLost v = false) (hr : mRxack v = false)
    (hi : i + 1 = x.n) : writeTrans v x i = .t9 := by
  simp only [writeTrans, hl, hr, hi, lt_irrefl, Bool.false_eq_true, if_false]

theorem readTrans_of_more {v : Byte} {x : Txn} {i : Nat} (hl : mLost v = false) (hc : mClkhold v = true)
    (hi : i + 1 < x.n) : readTrans v x i = some (.t11 i) := by
  simp only [readTrans, hl, hc, hi, Bool.false_eq_true, if_false, if_true]

theorem readTrans_of_last {v : Byte} {x : Txn} {i : Nat} (hl : mLost v = false) (hc : mClkhold v = true)
    (hi : i + 1 = x.n) : readTrans v x i = some (.t12 i) := by
  simp only [readTrans, hl, hc, hi, lt_irrefl, Bool.false_eq_true, if_false, if_true]

theorem enabledTrans_addressPhase {s : State} (x : Txn) (hm : s.mstate = .addressPhase)
    (ha : mActed s.mstatus = true) : enabledTrans s x = some (addressTrans s.mstatus x) := by
  simp only [enabledTrans, hm, ha, if_true]

theorem enabledTrans_writeData {s : State} {x : Txn} {i : Nat} (hm : s.mstate = .dataPhase i) (hd : x.dir = .w)
    (ha : mActed s.mstatus = true) : enabledTrans s x = some (writeTrans s.mstatus x i) := by
  simp only [enabledTrans, hm, hd, ha, if_true]

theorem enabledTrans_readData {s : State} {x : Txn} {i : Nat} (hm : s.mstate = .dataPhase i) (hd : x.dir = .r) :
    enabledTrans s x = readTrans s.mstatus x i := by
  simp only [enabledTrans, hm, hd]

/-- The Idle engine has no transition (R140). -/
theorem enabledTrans_idle {s : State} (x : Txn) (hm : s.mstate = .idle) : enabledTrans s x = none := by
  simp only [enabledTrans, hm]

/-! ### The transition run -/

/-- With its transaction present, the engine's turn is the transition enabled. -/
theorem turnStep_engine_of_enabled {s : State} {x : Txn} {k : Trans} (hb : s.bulk = none) (hx : s.txn = some x)
    (hk : enabledTrans s x = some k) : turnStep .engine s = some (finish (runTrans x s k)) := by
  have not_idle : s.mstate ≠ .idle := fun hm => by simp [enabledTrans_idle x hm] at hk
  rw [turnStep_engine hb, masterStep_eq not_idle hx, hk]
  rfl

theorem sendByte_of_read {s : State} {i : Nat} {b : Byte} (h : Memory.read hbufBlank s.hbuf i = some b) :
    sendByte i s = .ok (enterData i (mdataWriteOp b s)) :=
  sendByte_ok.mpr ⟨b, hbufRead_ok.mpr h, rfl⟩

theorem sendByte_of_unwritten {s : State} {i : Nat} (h : Memory.read hbufBlank s.hbuf i = none) :
    sendByte i s = .error (.fault (.unwrittenRead i)) := by
  simp only [sendByte, hbufRead, h]

/-- Settles O24: R152's order selects T1 to T5, and each transition's state is its own. -/
theorem addressPhaseOutcomes : Obligations.AddressPhaseOutcomes := by
  intro s x hb hm hx hflag
  have turn {k : Trans} (hk : addressTrans s.mstatus x = k) :
      turnStep .engine s = some (finish (runTrans x s k)) :=
    turnStep_engine_of_enabled hb hx (hk ▸ enabledTrans_addressPhase x hm ((mActed_iff _).mpr hflag))
  refine ⟨fun hl => turn (addressTrans_of_lost x ((mLost_iff _).mpr hl)), fun h3 h2 => ?_⟩
  have kept := mLost_eq_false h3 h2
  refine ⟨fun hr => turn (addressTrans_of_nack x kept hr), fun hr hn => turn (addressTrans_of_empty kept hr hn),
    fun hr hn hd => ⟨fun b hread => ?_, fun hread => ?_⟩,
    fun hr hn hd => turn (addressTrans_of_read kept hr hn hd)⟩
  · rw [turn (addressTrans_of_write kept hr hn hd), runTrans, sendByte_of_read hread]
    rfl
  · rw [turn (addressTrans_of_write kept hr hn hd), runTrans, sendByte_of_unwritten hread]
    rfl

/-- Settles O25: R160's order selects T6 to T9, and each transition's state is its own. -/
theorem writeDataOutcomes : Obligations.WriteDataOutcomes := by
  intro s x i hb hm hx hd hflag
  have turn {k : Trans} (hk : writeTrans s.mstatus x i = k) :
      turnStep .engine s = some (finish (runTrans x s k)) :=
    turnStep_engine_of_enabled hb hx (hk ▸ enabledTrans_writeData hm hd ((mActed_iff _).mpr hflag))
  refine ⟨fun hl => turn (writeTrans_of_lost x i ((mLost_iff _).mpr hl)), fun h3 h2 => ?_⟩
  have kept := mLost_eq_false h3 h2
  refine ⟨fun hr => turn (writeTrans_of_nack x i kept hr), fun hr hi => ⟨fun b hread => ?_, fun hread => ?_⟩,
    fun hr hi => turn (writeTrans_of_last kept hr hi)⟩
  · rw [turn (writeTrans_of_more kept hr hi), runTrans, sendByte_of_read hread]
    rfl
  · rw [turn (writeTrans_of_more kept hr hi), runTrans, sendByte_of_unwritten hread]
    rfl

/-! ### The start (T0) -/

/-- The MADDR write clears every flag of a wait and of a termination (R143). -/
@[simp] theorem mActed_clearAll (v : Byte) : mActed (mClearAll v) = false := by
  simp [mActed, mRif, mWif, mClearAll]

@[simp] theorem mLost_clearAll (v : Byte) : mLost (mClearAll v) = false := by
  simp [mLost, mArblost, mBuserr, mClearAll]

/-- R149: a transaction just started holds, its request unanswered. -/
theorem turnStep_engine_startTransaction (a : BitVec 7) (d : Dir) (n : Nat) {s : State} (hb : s.bulk = none) :
    turnStep .engine (startTransaction a d n s) = none := by
  have holds : enabledTrans (startTransaction a d n s) ⟨a, d, n⟩ = none := by simp [enabledTrans]
  have started : masterStep (startTransaction a d n s) = none := by
    rw [masterStep_eq (x := ⟨a, d, n⟩) (by simp) rfl, holds, Option.map_none]
  rw [turnStep_engine (by simpa using hb), started, Option.map_none]

/-- The master command of a direction. -/
def transferCommand : Dir → BitVec 7 → Byte → Instr
  | .w => .msend
  | .r => .mrecv

/-- R212, R213: a master command whose checks pass is T0 on the accepted state. -/
theorem exec_transferCommand (d : Dir) (a : BitVec 7) {n : Byte} {s : State} (hidle : busy s = false)
    (hn : n.toNat ≤ s.cfg.capacity) (he : mEnable s.mctrla = true) :
    exec (transferCommand d a n) s = .next (startTransaction a d n.toNat (accept s)) := by
  cases d with
  | w => exact execMsend_next.mpr ⟨hidle, hn, he, rfl⟩
  | r => exact execMrecv_next.mpr ⟨hidle, hn, he, rfl⟩

/-- Settles O13: both commands are T0, which clears the flags the engine waits for. -/
theorem masterCommandsStartTheEngine : Obligations.MasterCommandsStartTheEngine := by
  intro s a n hidle hn he
  have started (d : Dir) := exec_transferCommand d a hidle hn he
  refine ⟨fun t hb ht => ?_, started .w, started .r⟩
  rcases ht with ht | ht
  · obtain rfl := Host.Outcome.next.inj ((started .w).symm.trans ht)
    exact turnStep_engine_startTransaction a .w n.toNat (by simpa using hb)
  · obtain rfl := Host.Outcome.next.inj ((started .r).symm.trans ht)
    exact turnStep_engine_startTransaction a .r n.toNat (by simpa using hb)

end Sys2Proof
end

