-- ==== Sys2Proof/Proofs/BusAnswers.lean ====
section
/-! The BUS's answers to the master: the table of R150 by request, and what each answer does to MSTATUS. -/

namespace Sys2Proof

open Sys2Proof.Machine

/-! ### The table's rows (R150) -/

theorem answerAdmitted_ackW {q : BusReq} : answerAdmitted q .ackW = true ↔ q = .addr .w := by
  rcases q with _ | (_ | _) | _ | _ <;> simp [answerAdmitted]

theorem answerAdmitted_ackR {q : BusReq} (b : Byte) : answerAdmitted q (.ackR b) = true ↔ q = .addr .r := by
  rcases q with _ | (_ | _) | _ | _ <;> simp [answerAdmitted]

theorem answerAdmitted_ack {q : BusReq} : answerAdmitted q .ack = true ↔ q = .tx := by
  rcases q with _ | (_ | _) | _ | _ <;> simp [answerAdmitted]

theorem answerAdmitted_nack {q : BusReq} :
    answerAdmitted q .nack = true ↔ q = .addr .w ∨ q = .addr .r ∨ q = .tx := by
  rcases q with _ | (_ | _) | _ | _ <;> simp [answerAdmitted]

theorem answerAdmitted_byte {q : BusReq} (b : Byte) : answerAdmitted q (.byte b) = true ↔ q = .recvNext := by
  rcases q with _ | (_ | _) | _ | _ <;> simp [answerAdmitted]

theorem answerAdmitted_lostArb {q : BusReq} (x : Bool) : answerAdmitted q (.lostArb x) = true ↔ q ≠ .none := by
  rcases q with _ | (_ | _) | _ | _ <;> simp [answerAdmitted]

theorem answerAdmitted_lostBus {q : BusReq} (x : Bool) : answerAdmitted q (.lostBus x) = true ↔ q ≠ .none := by
  rcases q with _ | (_ | _) | _ | _ <;> simp [answerAdmitted]

/-! ### The answer's turn -/

/-- An admitted answer's turn clears MREQ and has the answer's effect. -/
theorem turnStep_answer {a : Answer} {s : State} (h : answerAdmitted s.mreq a = true) :
    turnStep (.answer a) s = some (.next (applyAnswer a { s with mreq := .none })) := by
  simp only [turnStep, busAnswer, h, if_true, Option.map_some]

/-- An answer outside the table is no step. -/
theorem turnStep_answer_of_not_admitted {a : Answer} {s : State} (h : ¬ answerAdmitted s.mreq a = true) :
    turnStep (.answer a) s = none := by
  simp only [turnStep, busAnswer, if_neg h, Option.map_none]

/-- Bits set and then RXACK set are one mask. -/
theorem mSetRxack_true_or (v k : Byte) : mSetRxack true (v ||| k) = v ||| (k ||| 0x10#8) :=
  BitVec.or_assoc v k _

/-- Settles O35: the turn follows the table row by row; an answer that sets RXACK sets its flags in one mask. -/
theorem busAnswersMaster : Obligations.BusAnswersMaster := by
  intro s
  refine ⟨fun h => turnStep_answer (answerAdmitted_ackW.mpr h),
    fun b h => turnStep_answer ((answerAdmitted_ackR b).mpr h),
    fun h => turnStep_answer (answerAdmitted_ack.mpr h), fun h => ?_,
    fun b h => turnStep_answer ((answerAdmitted_byte b).mpr h), fun h => ⟨?_, ?_, ?_, ?_⟩,
    fun h => turnStep_answer_of_not_admitted (mt answerAdmitted_ackW.mp h),
    fun b h => turnStep_answer_of_not_admitted (mt (answerAdmitted_ackR b).mp h),
    fun h => turnStep_answer_of_not_admitted (mt answerAdmitted_ack.mp h),
    fun b h => turnStep_answer_of_not_admitted (mt (answerAdmitted_byte b).mp h), fun h => ?_, fun h a => ?_⟩
  · rw [turnStep_answer (answerAdmitted_nack.mpr h), applyAnswer, mAnswerWrite, mSetRxack_true_or]
    rfl
  · rw [turnStep_answer ((answerAdmitted_lostArb true).mpr h), applyAnswer, mAnswerArb, mSetRxack_true_or]
    rfl
  · exact turnStep_answer ((answerAdmitted_lostArb false).mpr h)
  · rw [turnStep_answer ((answerAdmitted_lostBus true).mpr h), applyAnswer, mAnswerBus, mSetRxack_true_or]
    rfl
  · exact turnStep_answer ((answerAdmitted_lostBus false).mpr h)
  · exact turnStep_answer_of_not_admitted (by simp [h, answerAdmitted_nack])
  · exact turnStep_answer_of_not_admitted (by simp [h, answerAdmitted])

/-! ### The flags an answer leaves (R150) -/

@[simp] theorem mLost_setRxack (x : Bool) (v : Byte) : mLost (mSetRxack x v) = mLost v := by
  cases x <;> simp [mLost, mArblost, mBuserr, mSetRxack]

@[simp] theorem mActed_setRxack (x : Bool) (v : Byte) : mActed (mSetRxack x v) = mActed v := by
  cases x <;> simp [mActed, mRif, mWif, mSetRxack]

@[simp] theorem mClkhold_setRxack (x : Bool) (v : Byte) : mClkhold (mSetRxack x v) = mClkhold v := by
  cases x <;> simp [mClkhold, mSetRxack]

@[simp] theorem mRxack_setRxack (x : Bool) (v : Byte) : mRxack (mSetRxack x v) = x := by
  cases x <;> simp [mRxack, mSetRxack]

@[simp] theorem mLost_answerWrite (x : Bool) (v : Byte) : mLost (mAnswerWrite x v) = mLost v := by
  rw [mAnswerWrite, mLost_setRxack]
  simp [mLost, mArblost, mBuserr]

@[simp] theorem mActed_answerWrite (x : Bool) (v : Byte) : mActed (mAnswerWrite x v) = true := by
  rw [mAnswerWrite, mActed_setRxack]
  simp [mActed, mWif]

@[simp] theorem mRxack_answerWrite (x : Bool) (v : Byte) : mRxack (mAnswerWrite x v) = x :=
  mRxack_setRxack x _

@[simp] theorem mLost_answerByte (v : Byte) : mLost (mAnswerByte v) = mLost v := by
  simp [mAnswerByte, mLost, mArblost, mBuserr]

@[simp] theorem mActed_answerByte (v : Byte) : mActed (mAnswerByte v) = true := by
  simp [mAnswerByte, mActed, mRif]

@[simp] theorem mClkhold_answerByte (v : Byte) : mClkhold (mAnswerByte v) = true := by
  simp [mAnswerByte, mClkhold]

/-- A transfer leaves the termination flags as they are (R144, R146, R147). -/
@[simp] theorem mLost_clearTransfer (v : Byte) : mLost (mClearTransfer v) = mLost v := by
  simp [mLost, mArblost, mBuserr, mClearTransfer]

end Sys2Proof
end

