-- ==== Sys2Proof/Proofs/MasterRuns.lean ====
section
/-! Runs of a master transaction, turn by turn: the host's command, a BUS answer, an engine transition. -/

namespace Sys2Proof

open Sys2Proof.Machine

/-! ### The master commands decode to themselves -/

theorem addr_hcmdWord (op : Byte) (a : BitVec 7) (m : BitVec 2) (n : Byte) : Word.addr (hcmdWord op a m n) = a := by
  apply BitVec.eq_of_getLsbD_eq
  intro i hi
  interval_cases i <;> simp [Word.addr, hcmdWord]

theorem count_hcmdWord (op : Byte) (a : BitVec 7) (m : BitVec 2) (n : Byte) : Word.count (hcmdWord op a m n) = n := by
  apply BitVec.eq_of_getLsbD_eq
  intro i hi
  interval_cases i <;> simp [Word.count, hcmdWord]

/-- R82, R83: a master command's word with a count within the capacity is that command. -/
theorem decode_transferCommand (d : Dir) (a : BitVec 7) {n : Byte} {c : Nat} (hn : n.toNat ≤ c) :
    decode c .hcmd (encode (transferCommand d a n)) = .ok (transferCommand d a n) := by
  cases d with
  | w =>
    have row := decode_hcmd_of_row (r := ⟨.msend, 0x00000002#32, 0x00FF80FF#32⟩) c (by decide)
      (Laws.TableRow.msend a n)
    rw [transferCommand, row, decodeRow, encode, addr_hcmdWord, count_hcmdWord, checkCount_of_le hn]
  | r =>
    have row := decode_hcmd_of_row (r := ⟨.mrecv, 0x00000003#32, 0x00FF80FF#32⟩) c (by decide)
      (Laws.TableRow.mrecv a n)
    rw [transferCommand, row, decodeRow, encode, addr_hcmdWord, count_hcmdWord, checkCount_of_le hn]

/-! ### Runs -/

theorem runSteps_add {j k : Nat} {s t : State} (h : runSteps j s = .next t) : runSteps (j + k) s = runSteps k t := by
  induction j generalizing s with
  | zero =>
    obtain rfl := Host.Outcome.next.inj h
    rw [Nat.zero_add]
  | succ j ih =>
    rw [Nat.add_right_comm, runSteps]
    rw [runSteps] at h
    cases hs : step s with
    | next u => exact ih (by simpa only [hs] using h)
    | fault f => simp [hs] at h
    | refused r => simp [hs] at h

/-- A listed turn whose agent has a step is one step of the run. -/
theorem runSteps_listed {s t : State} {k : Turn} {rest : List Turn} (hf : s.faulted = none) (hp : s.probe = none)
    (hs : s.schedule = k :: rest) (hk : turnStep k (setSchedule rest s) = some (.next t)) :
    runSteps 1 s = .next t := by
  have stepped : step s = .next t := by rw [step_of_schedule hf hp hs, takeTurn_of_some hk, recorded]
  simp only [runSteps, stepped]

/-! ### The command's turn -/

/-- The premises of a master command: nothing recorded or in progress, and the checks of R212 and R213 pass. -/
structure MasterReady (n : Byte) (s : State) : Prop where
  faulted : s.faulted = none
  probe : s.probe = none
  bulk : s.bulk = none
  idle : busy s = false
  enabled : mEnable s.mctrla = true
  count : n.toNat ≤ s.cfg.capacity

/-- A transaction in progress, with no fault, lone access, harness command or termination beside it. -/
structure InTransaction (x : Txn) (m : MState) (s : State) : Prop where
  faulted : s.faulted = none
  probe : s.probe = none
  bulk : s.bulk = none
  txn : s.txn = some x
  mstate : s.mstate = m
  lost : mLost s.mstatus = false

/-- The state a master command leaves (T0), with `rest` still to take. -/
def started (d : Dir) (a : BitVec 7) (n : Byte) (rest : List Turn) (s : State) : State :=
  startTransaction a d n.toNat (accept (setSchedule rest s))

theorem MasterReady.inTransaction_started {n : Byte} {s : State} (h : MasterReady n s) (d : Dir) (a : BitVec 7)
    (rest : List Turn) : InTransaction ⟨a, d, n.toNat⟩ .addressPhase (started d a n rest s) :=
  ⟨h.faulted, h.probe, h.bulk, rfl, rfl, mLost_clearAll _⟩

/-- The host's write of a master command is T0. -/
theorem MasterReady.runSteps_command {n : Byte} {s : State} (h : MasterReady n s) {d : Dir} {a : BitVec 7}
    {rest : List Turn} (hs : s.schedule = .host (.write 0x00 32 (encode (transferCommand d a n))) :: rest) :
    runSteps 1 s = .next (started d a n rest s) := by
  refine runSteps_listed h.faulted h.probe hs ?_
  rw [turnStep, hostAccess_command (s := setSchedule rest s) _ h.idle,
    issue_ok (s := setSchedule rest s) (decode_transferCommand d a h.count)]
  exact congrArg some (exec_transferCommand d a h.idle h.count h.enabled)

/-! ### An answer's turn and an engine's turn -/

/-- The state an admitted answer leaves, with `rest` still to take. -/
def answered (a : Answer) (rest : List Turn) (s : State) : State :=
  applyAnswer a { setSchedule rest s with mreq := .none }

@[simp] theorem answered_hbuf (a : Answer) (rest : List Turn) (s : State) : (answered a rest s).hbuf = s.hbuf := by
  cases a <;> rfl

@[simp] theorem answered_trace (a : Answer) (rest : List Turn) (s : State) : (answered a rest s).trace = s.trace := by
  cases a <;> rfl

@[simp] theorem answered_schedule (a : Answer) (rest : List Turn) (s : State) :
    (answered a rest s).schedule = rest := by
  cases a <;> rfl

theorem setSchedule_answered (a : Answer) (l rest : List Turn) (s : State) :
    setSchedule rest (answered a l s) = answered a rest s := by
  cases a <;> rfl

section

variable {x : Txn} {m : MState} {s t : State} {a : Answer} {k : Trans} {rest : List Turn}

/-- An answer that terminates nothing leaves the transaction waiting as it was, but for the flags. -/
theorem InTransaction.after_answer {v : Byte} (h : InTransaction x m s) (hv : (answered a rest s).mstatus = v)
    (hl : mLost v = false) : InTransaction x m (answered a rest s) := by
  obtain ⟨hf, hp, hb, hx, hm, -⟩ := h
  cases a <;> exact ⟨hf, hp, hb, hx, hm, hv ▸ hl⟩

theorem InTransaction.runSteps_answer (h : InTransaction x m s) (hs : s.schedule = .answer a :: rest)
    (ha : answerAdmitted s.mreq a = true) : runSteps 1 s = .next (answered a rest s) :=
  runSteps_listed h.faulted h.probe hs (turnStep_answer (s := setSchedule rest s) ha)

theorem InTransaction.runSteps_engine (h : InTransaction x m s) (hs : s.schedule = .engine :: rest)
    (hk : enabledTrans s x = some k) (ht : runTrans x (setSchedule rest s) k = .ok t) :
    runSteps 1 s = .next t := by
  refine runSteps_listed h.faulted h.probe hs ?_
  rw [turnStep_engine_of_enabled (s := setSchedule rest s) h.bulk h.txn hk, ht, finish_ok]

/-- The BUS's answer, then the transition it enables. -/
theorem InTransaction.runSteps_round (h : InTransaction x m s) (hs : s.schedule = .answer a :: .engine :: rest)
    (ha : answerAdmitted s.mreq a = true) (inTxn : InTransaction x m (answered a (.engine :: rest) s))
    (hk : enabledTrans (answered a (.engine :: rest) s) x = some k) (ht : runTrans x (answered a rest s) k = .ok t) :
    runSteps 2 s = .next t := by
  rw [runSteps_add (j := 1) (k := 1) (h.runSteps_answer hs ha)]
  exact inTxn.runSteps_engine (answered_schedule ..) hk (by rwa [setSchedule_answered])

/-- The BUS's answer in AddressPhase, then the transition R152 selects on the flags `v` it leaves. -/
theorem InTransaction.runSteps_addressRound {v : Byte} (h : InTransaction x .addressPhase s)
    (hs : s.schedule = .answer a :: .engine :: rest) (ha : answerAdmitted s.mreq a = true)
    (hv : ∀ l, (answered a l s).mstatus = v) (hl : mLost v = false) (hacted : mActed v = true)
    (hk : addressTrans v x = k) (ht : runTrans x (answered a rest s) k = .ok t) :
    runSteps 2 s = .next t := by
  have inTxn := h.after_answer (hv (.engine :: rest)) hl
  have enabled := enabledTrans_addressPhase x inTxn.mstate (by rw [hv, hacted])
  rw [hv, hk] at enabled
  exact h.runSteps_round hs ha inTxn enabled ht

/-- The BUS's answer to a byte written, then the transition R160 selects on the flags `v` it leaves. -/
theorem InTransaction.runSteps_writeRound {i : Nat} {v : Byte} (h : InTransaction x (.dataPhase i) s)
    (hd : x.dir = .w) (hs : s.schedule = .answer a :: .engine :: rest) (ha : answerAdmitted s.mreq a = true)
    (hv : ∀ l, (answered a l s).mstatus = v) (hl : mLost v = false) (hacted : mActed v = true)
    (hk : writeTrans v x i = k) (ht : runTrans x (answered a rest s) k = .ok t) :
    runSteps 2 s = .next t := by
  have inTxn := h.after_answer (hv (.engine :: rest)) hl
  have enabled := enabledTrans_writeData inTxn.mstate hd (by rw [hv, hacted])
  rw [hv, hk] at enabled
  exact h.runSteps_round hs ha inTxn enabled ht

end

/-! ### A transaction ended by a stop (R169) -/

/-- From `s`, the transaction has emitted `l` and retired with `r` after its stop, with `rest` still to take. -/
structure StoppedWith (s : State) (r : OpResult) (l : List BusAction) (rest : List Turn) (t : State) : Prop where
  trace : t.trace = s.trace ++ l
  hres : t.hres = hresRetired r.status r.count
  mlast : t.mlast = some (.stopSent r)
  mstate : t.mstate = .idle
  schedule : t.schedule = rest

/-- A stop and retirement after the actions `l`. -/
theorem stoppedWith_retireMaster {s u : State} {l : List BusAction} {rest : List Turn} (r : OpResult)
    (htrace : u.trace = s.trace ++ l) (hsched : u.schedule = rest) :
    StoppedWith s r (l ++ [.mStop .nack]) rest (retireMaster (.stopSent r) (stopOp .nack u)) where
  trace := by simp [htrace]
  hres := rfl
  mlast := rfl
  mstate := rfl
  schedule := hsched

/-- The word of a success with the command's own count (R24). -/
theorem hresRetired_ok (n : Byte) :
    hresRetired (OpResult.ok n.toNat).status (OpResult.ok n.toNat).count = 0#16 ++ n ++ 0#8 := by
  simp only [hresRetired, OpResult.status, OpResult.count, BitVec.ofNat_toNat, BitVec.setWidth_eq]

/-- Settles O30: T0, the NACK, T2. -/
theorem addressNackReturnsNoDevice : Obligations.AddressNackReturnsNoDevice := by
  intro s a n i d rest hf hp hb hidle he hn hi hs
  have ready : MasterReady n s := ⟨hf, hp, hb, hidle, he, hn⟩
  have command : i = transferCommand d a n := by rcases hi with ⟨rfl, rfl⟩ | ⟨rfl, rfl⟩ <;> rfl
  rw [command] at hs
  let u := started d a n (.answer .nack :: .engine :: rest) s
  have inTxn : InTransaction ⟨a, d, n.toNat⟩ .addressPhase u := ready.inTransaction_started d a _
  have admitted : answerAdmitted u.mreq .nack = true := by cases d <;> rfl
  have lost : mLost (mAnswerWrite true u.mstatus) = false := (mLost_answerWrite ..).trans inTxn.lost
  have round := inTxn.runSteps_addressRound rfl admitted (fun _ => rfl) lost (mActed_answerWrite ..)
    (addressTrans_of_nack _ lost (mRxack_answerWrite ..)) rfl
  have stopped := stoppedWith_retireMaster (s := s) (u := answered .nack rest u) (l := [.mStart a d]) (.err .noDevice)
    rfl rfl
  exact ⟨_, (runSteps_add (j := 1) (ready.runSteps_command hs)).trans round, stopped.trace, stopped.hres,
    stopped.mlast, stopped.mstate, rfl, stopped.schedule⟩

/-! ### HBUF's bytes in order -/

/-- HBUF[i], HBUF[i+1], … hold the bytes of a list. -/
def HbufHolds (i : Nat) (bs : List Byte) (m : Memory) : Prop :=
  ∀ j (h : j < bs.length), Memory.read hbufBlank m (i + j) = some bs[j]

theorem hbufHolds_cons {i : Nat} {b : Byte} {bs : List Byte} {m : Memory} :
    HbufHolds i (b :: bs) m ↔ Memory.read hbufBlank m i = some b ∧ HbufHolds (i + 1) bs m := by
  constructor
  · intro h
    refine ⟨h 0 (by simp), fun j hj => ?_⟩
    rw [Nat.add_assoc, Nat.add_comm 1]
    exact h (j + 1) (by simpa using hj)
  · rintro ⟨h0, h⟩ (_ | j) hj
    · exact h0
    · simpa [Nat.add_assoc, Nat.add_comm 1] using h j (by simpa using hj)

theorem hbufHolds_zero {bs : List Byte} {m : Memory} :
    HbufHolds 0 bs m ↔ ∀ i (h : i < bs.length), Memory.read hbufBlank m i = some bs[i] := by
  simp only [HbufHolds, Nat.zero_add]

end Sys2Proof
end

