-- ==== Sys2Proof/Proofs/WriteTransaction.lean ====
section
/-! A write transaction from its command to its stop: T4 sends the first byte, each acknowledged byte but the last is
followed by the next (T8), and the last byte's answer ends it (T9 or T7). -/

namespace Sys2Proof

open Sys2Proof.Machine

/-- From `s`, the write has emitted `l`, whose last byte is HBUF[i] and unanswered, with `rest` still to take. -/
structure AwaitingByte (s : State) (x : Txn) (i : Nat) (l : List BusAction) (rest : List Turn) (t : State) : Prop
    extends InTransaction x (.dataPhase i) t where
  mreq : t.mreq = .tx
  trace : t.trace = s.trace ++ l
  hbuf : t.hbuf = s.hbuf
  schedule : t.schedule = rest

/-- A byte sent after the actions `l` (T4, T8). -/
theorem InTransaction.awaitingByte {s u : State} {x : Txn} {m : MState} {l : List BusAction} {rest : List Turn}
    (h : InTransaction x m u) (i : Nat) (b : Byte) (htrace : u.trace = s.trace ++ l) (hbuf : u.hbuf = s.hbuf)
    (hsched : u.schedule = rest) :
    AwaitingByte s x i (l ++ [.mTx b]) rest (enterData i (mdataWriteOp b u)) where
  faulted := h.faulted
  probe := h.probe
  bulk := h.bulk
  txn := h.txn
  mstate := rfl
  lost := (mLost_clearTransfer _).trans h.lost
  mreq := rfl
  trace := by simp [htrace]
  hbuf := hbuf
  schedule := hsched

section

variable {s t : State} {x : Txn} {i : Nat} {l : List BusAction} {rest : List Turn}

/-- T8: an acknowledged byte that is not the last is followed by the next. -/
theorem AwaitingByte.runSteps_more (h : AwaitingByte s x i l (.answer .ack :: .engine :: rest) t) (hd : x.dir = .w)
    (hi : i + 1 < x.n) {b : Byte} (hb : Memory.read hbufBlank s.hbuf (i + 1) = some b) :
    ∃ u, runSteps 2 t = .next u ∧ AwaitingByte s x (i + 1) (l ++ [.mTx b]) rest u := by
  have lost : mLost (mAnswerWrite false t.mstatus) = false := (mLost_answerWrite ..).trans h.lost
  have sent : runTrans x (answered .ack rest t) (.t8 i) = .ok _ := sendByte_of_read (by simpa [h.hbuf] using hb)
  have inTxn := h.after_answer (a := .ack) (rest := rest) rfl lost
  exact ⟨_, h.runSteps_writeRound hd h.schedule (answerAdmitted_ack.mpr h.mreq) (fun _ => rfl) lost
      (mActed_answerWrite ..) (writeTrans_of_more lost (mRxack_answerWrite ..) hi) sent,
    inTxn.awaitingByte _ _ (by simpa using h.trace) (by simpa using h.hbuf) (by simp)⟩

/-- T9: the last byte acknowledged, the write stops with its count. -/
theorem AwaitingByte.runSteps_last (h : AwaitingByte s x i l (.answer .ack :: .engine :: rest) t) (hd : x.dir = .w)
    (hi : i + 1 = x.n) :
    ∃ u, runSteps 2 t = .next u ∧ StoppedWith s (.ok x.n) (l ++ [.mStop .nack]) rest u ∧ u.hbuf = s.hbuf := by
  have lost : mLost (mAnswerWrite false t.mstatus) = false := (mLost_answerWrite ..).trans h.lost
  exact ⟨_, h.runSteps_writeRound hd h.schedule (answerAdmitted_ack.mpr h.mreq) (fun _ => rfl) lost
      (mActed_answerWrite ..) (writeTrans_of_last lost (mRxack_answerWrite ..) hi) rfl,
    stoppedWith_retireMaster _ (by simpa using h.trace) (by simp), by simpa using h.hbuf⟩

/-- T7: a byte not acknowledged, the write stops with Busy. -/
theorem AwaitingByte.runSteps_nack (h : AwaitingByte s x i l (.answer .nack :: .engine :: rest) t)
    (hd : x.dir = .w) :
    ∃ u, runSteps 2 t = .next u ∧ StoppedWith s (.err .busy) (l ++ [.mStop .nack]) rest u ∧ u.hbuf = s.hbuf := by
  have lost : mLost (mAnswerWrite true t.mstatus) = false := (mLost_answerWrite ..).trans h.lost
  exact ⟨_, h.runSteps_writeRound hd h.schedule (answerAdmitted_nack.mpr (.inr (.inr h.mreq))) (fun _ => rfl) lost
      (mActed_answerWrite ..) (writeTrans_of_nack x i lost (mRxack_answerWrite ..)) rfl,
    stoppedWith_retireMaster _ (by simpa using h.trace) (by simp), by simpa using h.hbuf⟩

/-- Rounds of acknowledged bytes, none of them the last, send the next bytes of HBUF in order. -/
theorem AwaitingByte.runSteps_ackedRounds {cs : List Byte}
    (h : AwaitingByte s x i l (ackedRounds cs.length ++ rest) t) (hd : x.dir = .w) (hi : i + cs.length < x.n)
    (hcs : HbufHolds (i + 1) cs s.hbuf) :
    ∃ u, runSteps (2 * cs.length) t = .next u ∧ AwaitingByte s x (i + cs.length) (l ++ cs.map .mTx) rest u := by
  induction cs generalizing i l t with
  | nil => exact ⟨t, rfl, by simpa [ackedRounds] using h⟩
  | cons c cs ih =>
    obtain ⟨hc, hcs⟩ := hbufHolds_cons.mp hcs
    rw [List.length_cons] at hi
    obtain ⟨u, hu, sent⟩ := h.runSteps_more hd (by omega) hc
    obtain ⟨v, hv, all⟩ := ih sent (by omega) hcs
    refine ⟨v, ?_, ?_⟩
    · rw [List.length_cons, Nat.mul_succ, Nat.add_comm, runSteps_add hu, hv]
    · simpa [Nat.add_assoc, Nat.add_comm 1] using all

end

/-- A write whose first `cs.length` bytes are acknowledged has put them and the next byte on the bus. -/
theorem MasterReady.runSteps_write {s : State} {n b : Byte} (h : MasterReady n s) {a : BitVec 7} {cs : List Byte}
    {rest : List Turn} (hlt : cs.length < n.toNat) (hbytes : HbufHolds 0 (b :: cs) s.hbuf)
    (hs : s.schedule = .host (.write 0x00 32 (encode (.msend a n))) :: .answer .ackW :: .engine ::
      (ackedRounds cs.length ++ rest)) :
    ∃ t, runSteps (3 + 2 * cs.length) s = .next t ∧
      AwaitingByte s ⟨a, .w, n.toNat⟩ cs.length ([.mStart a .w] ++ (b :: cs).map .mTx) rest t := by
  obtain ⟨hb, hcs⟩ := hbufHolds_cons.mp hbytes
  let l := ackedRounds cs.length ++ rest
  let u := started .w a n (.answer .ackW :: .engine :: l) s
  have inTxn : InTransaction ⟨a, .w, n.toNat⟩ .addressPhase u := h.inTransaction_started .w a _
  have lost : mLost (mAnswerWrite false u.mstatus) = false := (mLost_answerWrite ..).trans inTxn.lost
  have sent : runTrans ⟨a, .w, n.toNat⟩ (answered .ackW l u) .t4 = .ok _ := sendByte_of_read hb
  have first := inTxn.runSteps_addressRound rfl rfl (fun _ => rfl) lost (mActed_answerWrite ..)
    (addressTrans_of_write lost (mRxack_answerWrite ..) (Nat.zero_lt_of_lt hlt) rfl) sent
  have answeredTxn := inTxn.after_answer (a := .ackW) (rest := l) rfl lost
  have awaiting := answeredTxn.awaitingByte (s := s) (l := [.mStart a .w]) 0 b rfl rfl rfl
  obtain ⟨t, ht, all⟩ := awaiting.runSteps_ackedRounds rfl (by simpa using hlt) hcs
  refine ⟨t, ?_, by simpa using all⟩
  rw [Nat.add_assoc 1 2, runSteps_add (h.runSteps_command (d := .w) hs), runSteps_add first, ht]

/-- The rounds of `n + 1` acknowledged bytes end with one more round. -/
theorem ackedRounds_succ (n : Nat) : ackedRounds (n + 1) = ackedRounds n ++ [.answer .ack, .engine] := by
  induction n with
  | zero => rfl
  | succ n ih => exact congrArg (fun l => .answer .ack :: .engine :: l) ih

/-- T3: a write of no byte stops with Ok(0) at its address's acknowledge. -/
theorem MasterReady.runSteps_emptyWrite {s : State} {n : Byte} (h : MasterReady n s) {a : BitVec 7}
    {rest : List Turn} (hn : n.toNat = 0)
    (hs : s.schedule = .host (.write 0x00 32 (encode (.msend a n))) :: .answer .ackW :: .engine :: rest) :
    ∃ t, runSteps 3 s = .next t ∧
      StoppedWith s (.ok n.toNat) ([.mStart a .w] ++ [.mStop .nack]) rest t ∧ t.hbuf = s.hbuf := by
  let u := started .w a n (.answer .ackW :: .engine :: rest) s
  have inTxn : InTransaction ⟨a, .w, n.toNat⟩ .addressPhase u := h.inTransaction_started .w a _
  have lost : mLost (mAnswerWrite false u.mstatus) = false := (mLost_answerWrite ..).trans inTxn.lost
  have stop := inTxn.runSteps_addressRound rfl rfl (fun _ => rfl) lost (mActed_answerWrite ..)
    (addressTrans_of_empty lost (mRxack_answerWrite ..) hn) rfl
  refine ⟨_, (runSteps_add (j := 1) (h.runSteps_command (d := .w) hs)).trans stop, ?_, rfl⟩
  rw [hn]
  exact stoppedWith_retireMaster _ rfl rfl

/-- A whole acknowledged write, with any number of bytes. -/
theorem MasterReady.runSteps_ackedWrite {s : State} {n : Byte} (h : MasterReady n s) {a : BitVec 7} {bs : List Byte}
    {rest : List Turn} (hlen : bs.length = n.toNat) (hbytes : HbufHolds 0 bs s.hbuf)
    (hs : s.schedule = .host (.write 0x00 32 (encode (.msend a n))) :: .answer .ackW :: .engine ::
      (ackedRounds n.toNat ++ rest)) :
    ∃ t, runSteps (3 + 2 * n.toNat) s = .next t ∧
      StoppedWith s (.ok n.toNat) ([.mStart a .w] ++ bs.map .mTx ++ [.mStop .nack]) rest t ∧ t.hbuf = s.hbuf := by
  rw [← hlen] at hs ⊢
  cases bs with
  | nil =>
    obtain ⟨t, ht, stopped, hbuf⟩ := h.runSteps_emptyWrite hlen.symm hs
    exact ⟨t, ht, hlen ▸ stopped, hbuf⟩
  | cons b cs =>
    rw [List.length_cons, ackedRounds_succ, List.append_assoc] at hs
    rw [List.length_cons] at hlen
    obtain ⟨t, ht, sent⟩ := h.runSteps_write (by omega) hbytes hs
    obtain ⟨u, hu, stopped, hbuf⟩ := sent.runSteps_last rfl hlen
    refine ⟨u, ?_, by rw [List.length_cons, hlen]; exact stopped, hbuf⟩
    rw [List.length_cons, Nat.mul_succ, ← Nat.add_assoc, runSteps_add ht, hu]

/-- Settles O31: T0, T4, T8 for each byte between, T9; or T3 with no byte. -/
theorem writeTransactionSendsAllBytes : Obligations.WriteTransactionSendsAllBytes := by
  intro s a n bs rest hf hp hb hidle he hn hlen hbytes hs
  have ready : MasterReady n s := ⟨hf, hp, hb, hidle, he, hn⟩
  obtain ⟨t, ht, stopped, hbuf⟩ := ready.runSteps_ackedWrite hlen (hbufHolds_zero.mpr hbytes) hs
  exact ⟨t, ht, by rw [stopped.trace]; simp, stopped.hres.trans (hresRetired_ok n), stopped.mlast, stopped.mstate,
    hbuf, stopped.schedule⟩

/-- Settles O32: T0, T4, T8 for each acknowledged byte, T7 at byte `k`. -/
theorem partialNackPlacesKBytes : Obligations.PartialNackPlacesKBytes := by
  intro s a n bs rest hf hp hb hidle he hn hpos hle hbytes hs
  have ready : MasterReady n s := ⟨hf, hp, hb, hidle, he, hn⟩
  obtain ⟨b, cs, rfl⟩ := List.exists_cons_of_length_pos hpos
  rw [List.length_cons] at hle
  obtain ⟨t, ht, sent⟩ := ready.runSteps_write (by omega) (hbufHolds_zero.mpr hbytes) hs
  obtain ⟨u, hu, stopped, hbuf⟩ := sent.runSteps_nack rfl
  refine ⟨u, ?_, by rw [stopped.trace]; simp, stopped.hres, stopped.mlast, stopped.mstate, hbuf, stopped.schedule⟩
  rw [List.length_cons, Nat.mul_succ, ← Nat.add_assoc, runSteps_add ht, hu]

end Sys2Proof
end

