-- ==== Sys2Proof/Proofs/ReadTransaction.lean ====
section
/-! A read transaction from its command to its stop: T5 leaves the first byte held, T11 stores each byte but the last
and asks for the next, T12 stores the last and stops. -/

namespace Sys2Proof

open Sys2Proof.Machine

/-- DataPhase(i) of a read with the received byte `b` held on the bus (CLKHOLD). -/
structure HoldingByte (x : Txn) (i : Nat) (b : Byte) (s : State) : Prop extends InTransaction x (.dataPhase i) s where
  dir : x.dir = .r
  clkhold : mClkhold s.mstatus = true
  mdata : s.mdata = b

section

variable {s t : State} {x : Txn} {i : Nat} {b c : Byte} {rest : List Turn}

/-- The state T11 leaves: HBUF[i] stored and the next byte asked for, with `rest` still to take. -/
def nextAsked (i : Nat) (rest : List Turn) (s : State) : State :=
  enterData (i + 1) (recvTransOp .ack (hbufWrite i s.mdata (setSchedule rest s)))

/-- T11 and the next byte's delivery: the byte is stored, and the next is held. -/
theorem HoldingByte.runSteps_more (h : HoldingByte x i b s) (hi : i + 1 < x.n)
    (hs : s.schedule = .engine :: .answer (.byte c) :: rest) :
    ∃ t, runSteps 2 s = .next t ∧ HoldingByte x (i + 1) c t ∧ t.trace = s.trace ++ [.mRecvNext .ack] ∧
      t.hbuf = Memory.write hbufBlank s.hbuf i b ∧ t.schedule = rest := by
  have enabled : enabledTrans s x = some (.t11 i) := by
    rw [enabledTrans_readData h.mstate h.dir, readTrans_of_more h.lost h.clkhold hi]
  let u := nextAsked i (.answer (.byte c) :: rest) s
  have asked : runSteps 1 s = .next u := h.runSteps_engine hs enabled rfl
  have inTxn : InTransaction x (.dataPhase (i + 1)) u :=
    ⟨h.faulted, h.probe, h.bulk, h.txn, rfl, (mLost_clearTransfer _).trans h.lost⟩
  have delivered := inTxn.runSteps_answer rfl ((answerAdmitted_byte c).mpr rfl)
  have lost : mLost (mAnswerByte u.mstatus) = false := (mLost_answerByte _).trans inTxn.lost
  exact ⟨_, (runSteps_add (k := 1) asked).trans delivered,
    { inTxn.after_answer (a := .byte c) rfl lost with
      dir := h.dir, clkhold := mClkhold_answerByte _, mdata := rfl },
    rfl, congrArg (Memory.write hbufBlank s.hbuf i) h.mdata, rfl⟩

/-- T12: the last byte is stored, and the read stops with its count. -/
theorem HoldingByte.runSteps_last (h : HoldingByte x i b s) (hi : i + 1 = x.n) (hs : s.schedule = .engine :: rest) :
    ∃ t, runSteps 1 s = .next t ∧ StoppedWith s (.ok x.n) [.mStop .nack] rest t ∧
      t.hbuf = Memory.write hbufBlank s.hbuf i b := by
  have enabled : enabledTrans s x = some (.t12 i) := by
    rw [enabledTrans_readData h.mstate h.dir, readTrans_of_last h.lost h.clkhold hi]
  exact ⟨_, h.runSteps_engine hs enabled rfl, stoppedWith_retireMaster (l := []) _ (List.append_nil _).symm rfl,
    congrArg (Memory.write hbufBlank s.hbuf i) h.mdata⟩

/-- From a byte held on, every byte is stored at its index, the entries outside keep their values, and the read
stops. -/
theorem HoldingByte.runSteps_byteRounds {bs : List Byte} (h : HoldingByte x i b s) (hi : i + bs.length + 1 = x.n)
    (hwf : Memory.wf hbufBlank s.hbuf = true) (hs : s.schedule = .engine :: (byteRounds bs ++ rest)) :
    ∃ t, runSteps (1 + 2 * bs.length) s = .next t ∧
      StoppedWith s (.ok x.n) (List.replicate bs.length (.mRecvNext .ack) ++ [.mStop .nack]) rest t ∧
      HbufHolds i (b :: bs) t.hbuf ∧
      (∀ j, j < i ∨ x.n ≤ j → Memory.read hbufBlank t.hbuf j = Memory.read hbufBlank s.hbuf j) := by
  induction bs generalizing i b s with
  | nil =>
    obtain ⟨t, ht, stopped, hbuf⟩ := h.runSteps_last hi hs
    refine ⟨t, ht, stopped, hbufHolds_cons.mpr ⟨?_, fun j hj => absurd hj (Nat.not_lt_zero j)⟩, fun j hj => ?_⟩
    · rw [hbuf, Memory.read_write_same i b hwf]
    · rw [List.length_nil] at hi
      rw [hbuf, Memory.read_write_other b hwf (by omega)]
  | cons c cs ih =>
    rw [List.length_cons] at hi
    obtain ⟨u, hu, held, trace, hbuf, sched⟩ := h.runSteps_more (by omega) hs
    obtain ⟨t, ht, stopped, bytes, others⟩ := ih held (by omega) (hbuf ▸ Memory.wf_write i b hwf) sched
    refine ⟨t, ?_, { stopped with trace := ?_ }, hbufHolds_cons.mpr ⟨?_, bytes⟩, fun j hj => ?_⟩
    · rw [List.length_cons, Nat.mul_succ, ← Nat.add_assoc, Nat.add_comm, runSteps_add hu, ht]
    · rw [stopped.trace, trace, List.length_cons, List.replicate_succ]
      simp
    · rw [others i (by omega), hbuf, Memory.read_write_same i b hwf]
    · rw [others j (by omega), hbuf, Memory.read_write_other b hwf (by omega)]

/-- A started read whose address is acknowledged with its first byte holds that byte (T5). -/
theorem MasterReady.runSteps_firstByte {n : Byte} (h : MasterReady n s) {a : BitVec 7} (hn : 0 < n.toNat)
    (hs : s.schedule = .host (.write 0x00 32 (encode (.mrecv a n))) :: .answer (.ackR b) :: .engine :: rest) :
    ∃ t, runSteps 3 s = .next t ∧ HoldingByte ⟨a, .r, n.toNat⟩ 0 b t ∧ t.trace = s.trace ++ [.mStart a .r] ∧
      t.hbuf = s.hbuf ∧ t.schedule = rest := by
  let u := started .r a n (.answer (.ackR b) :: .engine :: rest) s
  have inTxn : InTransaction ⟨a, .r, n.toNat⟩ .addressPhase u := h.inTransaction_started .r a _
  have lost : mLost (mSetRxack false (mAnswerByte u.mstatus)) = false := by
    rw [mLost_setRxack, mLost_answerByte, inTxn.lost]
  have acted : mActed (mSetRxack false (mAnswerByte u.mstatus)) = true := by
    rw [mActed_setRxack, mActed_answerByte]
  have held : mClkhold (mSetRxack false (mAnswerByte u.mstatus)) = true := by
    rw [mClkhold_setRxack, mClkhold_answerByte]
  have entered := inTxn.runSteps_addressRound rfl rfl (fun _ => rfl) lost acted
    (addressTrans_of_read lost (mRxack_setRxack ..) hn rfl) rfl
  exact ⟨_, (runSteps_add (j := 1) (h.runSteps_command (d := .r) hs)).trans entered,
    { inTxn.after_answer (a := .ackR b) (rest := rest) rfl lost with
      mstate := rfl, dir := rfl, clkhold := held, mdata := rfl },
    rfl, rfl, rfl⟩

end

/-- Settles O33: T0, T5, T11 for each byte but the last, T12. -/
theorem readTransactionStoresAllBytes : Obligations.ReadTransactionStoresAllBytes := by
  intro s a n b bs rest hf hp hb hidle he hwf hn hlen hs
  have ready : MasterReady n s := ⟨hf, hp, hb, hidle, he, hn⟩
  rw [List.length_cons] at hlen
  obtain ⟨u, hu, held, trace, hbuf, sched⟩ := ready.runSteps_firstByte (by omega) hs
  obtain ⟨t, ht, stopped, bytes, others⟩ :=
    held.runSteps_byteRounds (by rw [Nat.zero_add, hlen]) (hbuf ▸ hwf) sched
  refine ⟨t, ?_, ?_, stopped.hres.trans (hresRetired_ok n), stopped.mlast, stopped.mstate,
    hbufHolds_zero.mp bytes, fun i hi => by rw [others i (.inr hi), hbuf], stopped.schedule⟩
  · rw [Nat.add_assoc 3 1, runSteps_add hu, ht]
  · rw [stopped.trace, trace]
    simp

end Sys2Proof
end

