-- ==== Sys2Proof/Proofs/SlaveEvents.lean ====
section
/-! The BUS's slave events: when one may be raised (R181, R182), and what each leaves in SSTATUS. -/

namespace Sys2Proof

open Sys2Proof.Machine

/-! ### The guards (R181, R182) -/

/-- The condition of every event, by its four bits. -/
theorem eventAllowed_iff {s : State} :
    eventAllowed s = true ↔ s.sctrla.getLsbD 0 = true ∧ s.sstatus.getLsbD 7 = false ∧
      s.sstatus.getLsbD 6 = false ∧ s.sstatus.getLsbD 5 = false := by
  simp [eventAllowed, sEnable, sDif, sApif, sClkhold, and_assoc]

/-- R182: an address byte matches an enabled slave exactly when it is SADDR[7:1]. -/
theorem eventGuard_addressByte {s : State} (a : BitVec 7) (d : Dir) (he : s.sctrla.getLsbD 0 = true) :
    eventGuard (.addressByte a d) s = true ↔ a = s.saddr.extractLsb' 1 7 := by
  rw [eventGuard, addressMatches, sEnable, he, Bool.and_true]
  exact decide_eq_true_iff

/-! ### The event's turn -/

/-- An event whose two guards hold is a step with its effect. -/
theorem turnStep_event {e : SlaveEvent} {s : State} (ha : eventAllowed s = true) (hg : eventGuard e s = true) :
    turnStep (.event e) s = some (.next (applyEvent e s)) := by
  simp only [turnStep, busEvent, ha, hg, Bool.and_self, if_true, Option.map_some]

/-- An event while the slave is disabled, or with a condition pending or held, is no step. -/
theorem turnStep_event_of_not_allowed (e : SlaveEvent) {s : State} (ha : ¬ eventAllowed s = true) :
    turnStep (.event e) s = none := by
  simp only [turnStep, busEvent, ha, Bool.false_and, Bool.false_eq_true, if_false, Option.map_none]

/-- An event outside its own guard is no step. -/
theorem turnStep_event_of_not_guard {e : SlaveEvent} {s : State} (hg : ¬ eventGuard e s = true) :
    turnStep (.event e) s = none := by
  simp only [turnStep, busEvent, hg, Bool.and_false, Bool.false_eq_true, if_false, Option.map_none]

/-! ### The masks of an event's effect -/

theorem sAddrMatch_w (v : Byte) : sAddrMatch .w v = (v ||| 0x61#8) &&& 0xF5#8 :=
  BitVec.and_assoc _ _ _

/-- COLL's mask keeps DIR, so DIR may be set with the other flags. -/
theorem sAddrMatch_r (v : Byte) : sAddrMatch .r v = (v ||| 0x63#8) &&& 0xF7#8 :=
  calc (v ||| 0x61#8) &&& 0xF7#8 ||| 0x02#8
      = (v ||| 0x61#8 ||| 0x02#8) &&& 0xF7#8 := (BitVec.and_or_distrib_right (y := 0x02#8)).symm
    _ = (v ||| 0x63#8) &&& 0xF7#8 := congrArg (· &&& 0xF7#8) (BitVec.or_assoc _ _ _)

theorem sData_r (v : Byte) : sData .r v = v ||| 0xA2#8 :=
  BitVec.or_assoc _ _ _

/-- Settles O36: each event's turn follows its guard, and its effect on SSTATUS is one mask. -/
theorem busRaisesSlaveEvents : Obligations.BusRaisesSlaveEvents := by
  intro s
  refine ⟨fun he h7 h6 h5 => ?_, fun h e => turnStep_event_of_not_allowed e ?_⟩
  · have allowed := eventAllowed_iff.mpr ⟨he, h7, h6, h5⟩
    refine ⟨fun a ha => ⟨?_, ?_⟩,
      fun a d ha => turnStep_event_of_not_guard (mt (eventGuard_addressByte a d he).mp ha),
      turnStep_event allowed rfl, fun hp => turnStep_event allowed (decide_eq_true hp),
      fun hp => turnStep_event_of_not_guard (by simp [eventGuard, hp]),
      fun b hp => turnStep_event allowed (decide_eq_true hp),
      fun b hp => turnStep_event_of_not_guard (by simp [eventGuard, hp]), fun hp => ?_,
      fun hp => turnStep_event_of_not_guard (by simp [eventGuard, hp])⟩
    · rw [turnStep_event allowed ((eventGuard_addressByte a .w he).mpr ha), applyEvent, sAddrMatch_w]
    · rw [turnStep_event allowed ((eventGuard_addressByte a .r he).mpr ha), applyEvent, sAddrMatch_r]
    · rw [turnStep_event (e := .dataTxReq) allowed (decide_eq_true hp), applyEvent, sData_r]
  · rw [eventAllowed_iff]
    rintro ⟨he, h7, h6, h5⟩
    simp only [he, h7, h6, h5, reduceCtorEq, or_self] at h

/-! ### The flags an event leaves (R181) -/

@[simp] theorem sDif_sAddrMatch (d : Dir) (v : Byte) : sDif (sAddrMatch d v) = sDif v := by
  cases d <;> simp [sDif, sAddrMatch, sSetDir]

@[simp] theorem sApif_sAddrMatch (d : Dir) (v : Byte) : sApif (sAddrMatch d v) = true := by
  cases d <;> simp [sApif, sAddrMatch, sSetDir]

@[simp] theorem sAp_sAddrMatch (d : Dir) (v : Byte) : sAp (sAddrMatch d v) = true := by
  cases d <;> simp [sAp, sAddrMatch, sSetDir]

@[simp] theorem sColl_sAddrMatch (d : Dir) (v : Byte) : sColl (sAddrMatch d v) = false := by
  cases d <;> simp [sColl, sAddrMatch, sSetDir]

@[simp] theorem sDif_sData (d : Dir) (v : Byte) : sDif (sData d v) = true := by
  cases d <;> simp [sDif, sData, sSetDir]

@[simp] theorem sDir_sData_r (v : Byte) : sDir (sData .r v) = true := by
  simp [sDir, sData, sSetDir]

@[simp] theorem sDir_sData_w (v : Byte) : sDir (sData .w v) = false := by
  simp [sDir, sData, sSetDir]

@[simp] theorem sApif_sStop (v : Byte) : sApif (sStop v) = true := by
  simp [sApif, sStop]

@[simp] theorem sApif_sCollision (v : Byte) : sApif (sCollision v) = true := by
  simp [sApif, sCollision]

/-- Every event leaves a condition pending. -/
theorem applyEvent_pending (e : SlaveEvent) (s : State) :
    sDif (applyEvent e s).sstatus = true ∨ sApif (applyEvent e s).sstatus = true := by
  cases e with
  | addressByte a d => exact .inr (sApif_sAddrMatch d _)
  | stop => exact .inr (sApif_sStop _)
  | collision => exact .inr (sApif_sCollision _)
  | dataRx b => exact .inl (sDif_sData .w _)
  | dataTxReq => exact .inl (sDif_sData .r _)

end Sys2Proof
end

