-- ==== Sys2Proof/Proofs/SlaveHandler.lean ====
section
/-! The interrupt handler, branch by branch (R185): what it answers, the state it leaves, and what every invocation
leaves alone. -/

namespace Sys2Proof

open Sys2Proof.Machine

/-! ### The branch taken (R185) -/

theorem slaveIsr_of_transmit {s : State} (hdif : sDif s.sstatus = true) (hdir : sDir s.sstatus = true) :
    slaveIsr s = slaveTransmit s := by
  simp only [slaveIsr, handlerOn, pregRead, hdif, hdir, if_true]

theorem slaveIsr_of_receive {s : State} (hdif : sDif s.sstatus = true) (hdir : sDir s.sstatus = false) :
    slaveIsr s = slaveReceive s := by
  simp only [slaveIsr, handlerOn, pregRead, hdif, hdir, if_true, Bool.false_eq_true, if_false]

theorem slaveIsr_of_addressStop {s : State} (hdif : sDif s.sstatus = false) (hapif : sApif s.sstatus = true) :
    slaveIsr s = slaveAddressStop s.sstatus s := by
  simp only [slaveIsr, handlerOn, pregRead, hdif, hapif, if_true, Bool.false_eq_true, if_false]

/-! ### The answer given (R186) -/

/-- The state a RESPONSE leaves that takes SPHASE to `q`. -/
def responded (act : AckAct) (p : Option Byte) (q : SlavePhase) (s : State) : State :=
  { s with sctrlb := commandReadBack act, sstatus := sClearPending s.sstatus, sphase := q,
           trace := s.trace ++ [.sResponse act p] }

theorem responseOp_eq_responded {act : AckAct} {p : Option Byte} {q : SlavePhase} {s : State}
    (h : respondedPhase act s.sphase = some q) : responseOp act p s = .ok (responded act p q s) :=
  responseOp_ok.mpr ⟨q, h, rfl⟩

/-- R191: a held byte is taken from TX and presented. -/
theorem slaveTransmit_of_read {s : State} {d : Dir} {b : Byte} {q : Ring} (hp : s.sphase = .active d)
    (hr : s.tx.read s.cfg.capacity = .ok (b, q)) :
    slaveTransmit s = .ok (responded .ack (some b) (.active d) { s with tx := q, sdata := b }) := by
  simp only [slaveTransmit, rbRead, ringReader, ring, hr, if_true]
  exact responseOp_eq_responded (congrArg (respondedPhase .ack) hp)

/-- R191: an empty TX is answered NACK. -/
theorem slaveTransmit_of_empty {s : State} {d : Dir} (hp : s.sphase = .active d) (hl : s.tx.length = 0) :
    slaveTransmit s = .ok (responded .nack none .ending s) := by
  have empty := Ring.read_error (c := s.cfg.capacity).mpr ⟨hl, rfl⟩
  simp only [slaveTransmit, rbRead, ringReader, ring, empty, if_true]
  exact responseOp_eq_responded (congrArg (respondedPhase .nack) hp)

/-- R192: a byte with room in RX is stored. -/
theorem slaveReceive_of_write {s : State} {d : Dir} {q : Ring} (hp : s.sphase = .active d)
    (hw : s.rx.write s.cfg.capacity s.sdata = .ok q) :
    slaveReceive s = .ok (responded .ack none (.active d) { s with rx := q }) := by
  simp only [slaveReceive, rbWrite, ringWriter, ring, pregRead, hw, if_true]
  exact responseOp_eq_responded (congrArg (respondedPhase .ack) hp)

/-- R192: a full RX drops the byte with NACK. -/
theorem slaveReceive_of_full {s : State} {d : Dir} (hp : s.sphase = .active d) (hl : s.rx.length = s.cfg.capacity) :
    slaveReceive s = .ok (responded .nack none .ending s) := by
  have full := Ring.write_error (b := s.sdata).mpr ⟨hl, rfl⟩
  simp only [slaveReceive, rbWrite, ringWriter, ring, pregRead, full, if_true]
  exact responseOp_eq_responded (congrArg (respondedPhase .nack) hp)

/-- R193: a match is answered ACK. -/
theorem slaveAddressStop_of_match {s : State} {v : Byte} {d : Dir} (hp : s.sphase = .addressed d)
    (hap : sAp v = true) (hcoll : sColl v = false) :
    slaveAddressStop v s = .ok (responded .ack none (.active d) s) := by
  simp only [slaveAddressStop, hap, hcoll, Bool.not_false, Bool.and_self, if_true]
  exact responseOp_eq_responded (congrArg (respondedPhase .ack) hp)

/-- R193: a stop, or a collision, completes the transaction. -/
theorem slaveAddressStop_of_stop {s : State} {v : Byte} (h : sAp v = false ∨ sColl v = true) :
    slaveAddressStop v s = .ok (compTransOp .nack s) := by
  rcases h with h | h <;> simp [slaveAddressStop, h]

/-- Settles O39: RB_WRITE has room or is full, and the store's cells are those of the one write. -/
theorem handlerReceives : Obligations.HandlerReceives := by
  intro s d hen h7 h1 hp hwf
  have turn : turnStep .isr s = some (finish (slaveReceive s)) := by
    rw [turnStep_isr hen, slaveIsr_of_receive h7 h1]
  refine ⟨fun room => ?_, fun full => ?_⟩
  · rw [turn, slaveReceive_of_write hp (Ring.write_ok.mpr ⟨room, rfl⟩)]
    exact ⟨_, rfl, rfl, ringCell_write_same _ _ hwf, fun j hj => ringCell_write_other _ hwf hj⟩
  · rw [turn, slaveReceive_of_full hp full]
    rfl

/-- Settles O40: AP without COLL is a match, and anything else is a stop. -/
theorem handlerAnswersAddressAndStop : Obligations.HandlerAnswersAddressAndStop := by
  intro s hen h7 h6
  have turn : turnStep .isr s = some (finish (slaveAddressStop s.sstatus s)) := by
    rw [turnStep_isr hen, slaveIsr_of_addressStop h7 h6]
  refine ⟨fun d h0 h3 hp => ?_, fun h => ?_⟩
  · rw [turn, slaveAddressStop_of_match hp h0 h3]
    rfl
  · rw [turn, slaveAddressStop_of_stop h]
    rfl

/-! ### What every invocation does (R195) -/

/-- The request is raised only with a condition pending (R184). -/
theorem pending_of_isrEnabled {s : State} (h : isrEnabled s = true) :
    sDif s.sstatus = true ∨ sApif s.sstatus = true := by
  by_contra hno
  simp only [not_or, Bool.not_eq_true] at hno
  simp [isrEnabled, sirq, hno.1, hno.2] at h

/-- A response clears the pending flags and touches no ring. -/
theorem responseOp_writes {act : AckAct} {p : Option Byte} {s t : State} (h : responseOp act p s = .ok t) :
    t.sstatus = sClearPending s.sstatus ∧ t.tx.store = s.tx.store ∧ t.rx.head = s.rx.head := by
  obtain ⟨q, -, rfl⟩ := responseOp_ok.mp h
  exact ⟨rfl, rfl, rfl⟩

/-- An invocation with a condition pending clears it; as TX's reader and RX's writer it keeps TX's store and RX's
head. -/
theorem slaveIsr_writes {s t : State} (hpending : sDif s.sstatus = true ∨ sApif s.sstatus = true)
    (h : slaveIsr s = .ok t) :
    t.sstatus = sClearPending s.sstatus ∧ t.tx.store = s.tx.store ∧ t.rx.head = s.rx.head := by
  rcases slaveIsr_cases h with ⟨-, -, h⟩ | ⟨-, -, h⟩ | ⟨-, -, -, -, h⟩ | ⟨-, -, -, rfl⟩ | ⟨hdif, hapif, -⟩
  · rcases slaveTransmit_cases h with ⟨b, q, hr, h⟩ | ⟨-, h⟩
    · obtain ⟨-, -, rfl⟩ := Ring.read_ok.mp hr
      exact (responseOp_writes h :)
    · exact responseOp_writes h
  · rcases slaveReceive_cases h with ⟨q, hw, h⟩ | ⟨-, h⟩
    · obtain ⟨-, rfl⟩ := Ring.write_ok.mp hw
      exact (responseOp_writes h :)
    · exact responseOp_writes h
  · exact responseOp_writes h
  · exact ⟨rfl, rfl, rfl⟩
  · simp [hdif, hapif] at hpending

/-- The handler's turn, when it is a step, is an invocation with the request raised. -/
theorem turnStep_isr_next {s t : State} :
    turnStep .isr s = some (.next t) ↔ isrEnabled s = true ∧ slaveIsr s = .ok t := by
  cases hen : isrEnabled s <;> simp [turnStep, hen]

/-- Settles O41: the handler's frame, with the flags it clears and the ring fields it never writes. -/
theorem handlerWriteSet : Obligations.HandlerWriteSet := by
  intro s t h
  obtain ⟨hen, h⟩ := turnStep_isr_next.mp h
  exact ⟨slaveIsr_frame h, slaveIsr_writes (pending_of_isrEnabled hen) h⟩

end Sys2Proof
end

