-- ==== Sys2Proof/Proofs/RingBytes.lean ====
section
/-! A ring's bytes in order, before and after a read and a write (R100, R101, R103). -/

namespace Sys2Proof.Machine

theorem Ring.bytes_of_empty {c : Nat} {r : Ring} (hl : r.length = 0) : r.bytes c = [] := by
  rw [Ring.bytes, hl, List.range_zero, List.map_nil]

/-- A read takes the oldest byte. -/
theorem Ring.bytes_of_read {c : Nat} {r q : Ring} {b : Byte} (hh : r.head < c) (hr : r.read c = .ok (b, q)) :
    r.bytes c = b :: q.bytes c := by
  obtain ⟨hl, rfl, rfl⟩ := Ring.read_ok.mp hr
  obtain ⟨n, hn⟩ := Nat.exists_eq_succ_of_ne_zero hl
  have next_cell (i : Nat) : (r.head + (i + 1)) % c = ((r.head + 1) % c + i) % c := by
    rw [Nat.mod_add_mod, Nat.add_assoc, Nat.add_comm 1]
  simp only [Ring.bytes, hn, List.range_succ_eq_map, List.map_cons, List.map_map, Nat.add_zero, Nat.mod_eq_of_lt hh,
    Nat.succ_sub_one]
  exact congrArg _ (List.map_congr_left fun i _ => congrArg (ringCell r.store) (next_cell i))

/-- The cell a write takes holds none of the ring's bytes. -/
theorem Ring.cell_ne_tail {c i : Nat} {r : Ring} (hi : i < r.length) (hl : r.length < c) :
    (r.head + i) % c ≠ (r.head + r.length) % c := fun same =>
  hi.ne (Nat.ModEq.eq_of_lt_of_lt (Nat.ModEq.add_left_cancel' r.head same) (hi.trans hl) hl)

/-- An accepted write appends the byte. -/
theorem Ring.bytes_of_write {c : Nat} {r q : Ring} {b : Byte} (hl : r.length ≤ c)
    (hwf : Memory.wf ringBlank r.store = true) (hw : r.write c b = .ok q) : q.bytes c = r.bytes c ++ [b] := by
  obtain ⟨hne, rfl⟩ := Ring.write_ok.mp hw
  have kept : ∀ i ∈ List.range r.length,
      ringCell (Memory.write ringBlank r.store ((r.head + r.length) % c) b) ((r.head + i) % c) =
        ringCell r.store ((r.head + i) % c) := fun i hi =>
    ringCell_write_other b hwf (Ring.cell_ne_tail (List.mem_range.mp hi) (hl.lt_of_ne hne))
  simp only [Ring.bytes, List.range_succ, List.map_append, List.map_cons, List.map_nil, List.map_congr_left kept,
    ringCell_write_same _ b hwf]

end Sys2Proof.Machine
end

