-- ==== Sys2Proof/Proofs/SlaveRuns.lean ====
section
/-! Runs of a remote master's transaction, round by round: a slave event, then the handler's answer. -/

namespace Sys2Proof

open Sys2Proof.Machine

/-! ### A round: an event and its handler -/

/-- The state an event leaves, with `rest` still to take. -/
def raised (e : SlaveEvent) (rest : List Turn) (s : State) : State := applyEvent e (setSchedule rest s)

theorem setSchedule_raised (e : SlaveEvent) (l rest : List Turn) (s : State) :
    setSchedule rest (raised e l s) = raised e rest s := by
  cases e <;> rfl

@[simp] theorem raised_schedule (e : SlaveEvent) (rest : List Turn) (s : State) :
    (raised e rest s).schedule = rest := by
  cases e <;> rfl

@[simp] theorem raised_faulted (e : SlaveEvent) (rest : List Turn) (s : State) :
    (raised e rest s).faulted = s.faulted := by
  cases e <;> rfl

@[simp] theorem raised_probe (e : SlaveEvent) (rest : List Turn) (s : State) :
    (raised e rest s).probe = s.probe := by
  cases e <;> rfl

@[simp] theorem raised_imask (e : SlaveEvent) (rest : List Turn) (s : State) :
    (raised e rest s).imask = s.imask := by
  cases e <;> rfl

@[simp] theorem raised_sctrla (e : SlaveEvent) (rest : List Turn) (s : State) :
    (raised e rest s).sctrla = s.sctrla := by
  cases e <;> rfl

section

variable {s t : State} {e : SlaveEvent} {rest : List Turn}

theorem slaveReady.enabled (h : slaveReady s) : s.sctrla.getLsbD 0 = true := by
  obtain ⟨-, -, -, hctrl, -⟩ := h
  rw [hctrl]
  rfl

/-- A ready slave admits every event whose own guard holds. -/
theorem slaveReady.eventAllowed (h : slaveReady s) : eventAllowed s = true := by
  have enabled := h.enabled
  obtain ⟨-, -, -, -, h7, h6, h5⟩ := h
  exact eventAllowed_iff.mpr ⟨enabled, h7, h6, h5⟩

/-- With every enable set, either pending flag raises the line (R184). -/
theorem sirq_of_allEnabled (v : Byte) : sirq 0x0F#8 v = (sDif v || sApif v) := by
  cases h : sAp v <;> simp [sirq, sEnable, sDien, sApien, sPien, h]

/-- An event raised at a ready slave raises the request. -/
theorem slaveReady.isrEnabled_raised (h : slaveReady s) (e : SlaveEvent) (rest : List Turn) :
    isrEnabled (raised e rest s) = true := by
  obtain ⟨-, -, hmask, hctrl, -⟩ := h
  rw [isrEnabled, raised_imask, hmask, raised_sctrla, hctrl, sirq_of_allEnabled, Bool.not_false, Bool.true_and,
    Bool.or_eq_true]
  exact applyEvent_pending e _

/-- The event and the handler's answer are two steps of the run. -/
theorem slaveReady.runSteps_round (h : slaveReady s) (hs : s.schedule = .event e :: .isr :: rest)
    (hg : eventGuard e s = true) (ht : slaveIsr (raised e rest s) = .ok t) : runSteps 2 s = .next t := by
  have isr_enabled := h.isrEnabled_raised e rest
  have allowed := h.eventAllowed
  obtain ⟨hf, hp, -⟩ := h
  have event : runSteps 1 s = .next (raised e (.isr :: rest) s) :=
    runSteps_listed hf hp hs (turnStep_event (s := setSchedule (.isr :: rest) s) allowed hg)
  rw [runSteps_add (j := 1) (k := 1) event]
  refine runSteps_listed (by rwa [raised_faulted]) (by rwa [raised_probe]) (raised_schedule e _ s) ?_
  rw [setSchedule_raised]
  exact turnStep_isr_next.mpr ⟨isr_enabled, ht⟩

/-- The handler's answer leaves the slave ready. -/
theorem slaveReady.after_round (h : slaveReady s) (ht : slaveIsr (raised e rest s) = .ok t) : slaveReady t := by
  obtain ⟨cleared, -⟩ := slaveIsr_writes (applyEvent_pending e _) ht
  obtain ⟨hf, hp, hmask, hctrl, -⟩ := h
  have flags : t.sstatus.getLsbD 7 = false ∧ t.sstatus.getLsbD 6 = false ∧ t.sstatus.getLsbD 5 = false := by
    simp [cleared, sClearPending]
  rw [slaveIsr_frame ht]
  simp only [slaveReady, raised_faulted, raised_probe, raised_imask, raised_sctrla]
  exact ⟨hf, hp, hmask, hctrl, flags⟩

end

/-! ### A transaction being served -/

/-- A remote master's transaction in Active(d) with nothing pending, and `rest` still to take. -/
structure Serving (d : Dir) (rest : List Turn) (s : State) : Prop where
  ready : slaveReady s
  sphase : s.sphase = .active d
  schedule : s.schedule = rest

section

variable {s : State} {d : Dir} {b : Byte} {q : Ring} {rest : List Turn}

/-- The slave's own address is answered ACK, and the transaction is served from there (R193). -/
theorem slaveReady.runSteps_match (h : slaveReady s)
    (hs : s.schedule = .event (.addressByte (s.saddr.extractLsb' 1 7) d) :: .isr :: rest) :
    ∃ t, runSteps 2 s = .next t ∧ Serving d rest t ∧ t.trace = s.trace ++ [.sResponse .ack none] ∧
      t.tx = s.tx ∧ t.rx = s.rx ∧ t.cfg = s.cfg := by
  have guard := (eventGuard_addressByte _ d h.enabled).mpr rfl
  let e := SlaveEvent.addressByte (s.saddr.extractLsb' 1 7) d
  have answer : slaveIsr (raised e rest s) = .ok (responded .ack none (.active d) (raised e rest s)) := by
    obtain ⟨-, -, -, -, h7, -⟩ := h
    have hdif : sDif (raised e rest s).sstatus = false := (sDif_sAddrMatch d s.sstatus).trans h7
    rw [slaveIsr_of_addressStop hdif (sApif_sAddrMatch d s.sstatus)]
    exact slaveAddressStop_of_match rfl (sAp_sAddrMatch d s.sstatus) (sColl_sAddrMatch d s.sstatus)
  exact ⟨_, h.runSteps_round hs guard answer, ⟨h.after_round answer, rfl, rfl⟩, rfl, rfl, rfl, rfl⟩

/-! ### Transmit (R191, R196) -/

/-- A request with a byte held is answered with the oldest byte. -/
theorem Serving.runSteps_request (h : Serving .r (.event .dataTxReq :: .isr :: rest) s)
    (hr : s.tx.read s.cfg.capacity = .ok (b, q)) :
    ∃ t, runSteps 2 s = .next t ∧ Serving .r rest t ∧ t.trace = s.trace ++ [.sResponse .ack (some b)] ∧
      t.tx = q ∧ t.cfg = s.cfg := by
  have answer := (slaveIsr_of_transmit (s := raised .dataTxReq rest s) (sDif_sData .r _) (sDir_sData_r _)).trans
    (slaveTransmit_of_read h.sphase hr)
  exact ⟨_, h.ready.runSteps_round h.schedule (decide_eq_true h.sphase) answer,
    ⟨h.ready.after_round answer, rfl, rfl⟩, rfl, rfl, rfl⟩

/-- A request with TX empty is answered NACK, and the transaction is ending. -/
theorem Serving.runSteps_underflow (h : Serving .r (.event .dataTxReq :: .isr :: rest) s) (hl : s.tx.length = 0) :
    ∃ t, runSteps 2 s = .next t ∧ t.trace = s.trace ++ [.sResponse .nack none] ∧ t.tx = s.tx ∧
      t.sphase = .ending ∧ t.schedule = rest := by
  have answer := (slaveIsr_of_transmit (s := raised .dataTxReq rest s) (sDif_sData .r _) (sDir_sData_r _)).trans
    (slaveTransmit_of_empty h.sphase hl)
  exact ⟨_, h.ready.runSteps_round h.schedule (decide_eq_true h.sphase) answer, rfl, rfl, rfl, rfl⟩

/-- As many requests as bytes held give every byte in FIFO order. -/
theorem Serving.runSteps_requestRounds {n : Nat} (h : Serving .r (requestRounds n ++ rest) s)
    (hn : s.tx.length = n) (hbound : s.tx.head < s.cfg.capacity ∧ s.tx.length ≤ s.cfg.capacity) :
    ∃ t, runSteps (2 * n) s = .next t ∧ Serving .r rest t ∧ t.tx.length = 0 ∧
      t.trace = s.trace ++ (s.tx.bytes s.cfg.capacity).map (fun b => .sResponse .ack (some b)) := by
  induction n generalizing s with
  | zero => exact ⟨s, rfl, h, hn, by rw [Ring.bytes_of_empty hn, List.map_nil, List.append_nil]⟩
  | succ n ih =>
    have hr := Ring.read_ok (c := s.cfg.capacity) (r := s.tx).mpr ⟨by omega, rfl, rfl⟩
    obtain ⟨u, hu, serving, trace, tx, cfg⟩ := h.runSteps_request hr
    obtain ⟨t, ht, done, empty, all⟩ := ih serving (by rw [tx]; exact Nat.sub_eq_of_eq_add hn)
      (by rw [tx, cfg]; exact Ring.bounded_read hbound hr)
    refine ⟨t, ?_, done, empty, ?_⟩
    · rw [Nat.mul_succ, Nat.add_comm, runSteps_add hu, ht]
    · rw [all, trace, tx, cfg, Ring.bytes_of_read hbound.1 hr, List.map_cons, List.append_assoc, List.singleton_append]

/-- The rounds of `n + 1` requests end with one more round. -/
theorem requestRounds_succ (n : Nat) : requestRounds (n + 1) = requestRounds n ++ [.event .dataTxReq, .isr] := by
  induction n with
  | zero => rfl
  | succ n ih => exact congrArg (fun l => .event .dataTxReq :: .isr :: l) ih

/-! ### Receive (R192, R197) -/

/-- A byte with room in RX is stored and answered ACK. -/
theorem Serving.runSteps_deliver (h : Serving .w (.event (.dataRx b) :: .isr :: rest) s)
    (hw : s.rx.write s.cfg.capacity b = .ok q) :
    ∃ t, runSteps 2 s = .next t ∧ Serving .w rest t ∧ t.trace = s.trace ++ [.sResponse .ack none] ∧
      t.rx = q ∧ t.cfg = s.cfg := by
  have answer := (slaveIsr_of_receive (s := raised (.dataRx b) rest s) (sDif_sData .w _) (sDir_sData_w _)).trans
    (slaveReceive_of_write h.sphase hw)
  exact ⟨_, h.ready.runSteps_round h.schedule (decide_eq_true h.sphase) answer,
    ⟨h.ready.after_round answer, rfl, rfl⟩, rfl, rfl, rfl⟩

/-- A byte with RX full is dropped and answered NACK, and the transaction is ending. -/
theorem Serving.runSteps_overflow (h : Serving .w (.event (.dataRx b) :: .isr :: rest) s)
    (hl : s.rx.length = s.cfg.capacity) :
    ∃ t, runSteps 2 s = .next t ∧ t.trace = s.trace ++ [.sResponse .nack none] ∧ t.rx = s.rx ∧
      t.sphase = .ending ∧ t.schedule = rest := by
  have answer := (slaveIsr_of_receive (s := raised (.dataRx b) rest s) (sDif_sData .w _) (sDir_sData_w _)).trans
    (slaveReceive_of_full h.sphase hl)
  exact ⟨_, h.ready.runSteps_round h.schedule (decide_eq_true h.sphase) answer, rfl, rfl, rfl, rfl⟩

/-- Bytes that RX has room for are all stored, in order. -/
theorem Serving.runSteps_deliverRounds {bs : List Byte} (h : Serving .w (deliverRounds bs ++ rest) s)
    (hroom : s.rx.length + bs.length ≤ s.cfg.capacity) (hwf : Memory.wf ringBlank s.rx.store = true) :
    ∃ t, runSteps (2 * bs.length) s = .next t ∧ Serving .w rest t ∧
      t.rx.bytes s.cfg.capacity = s.rx.bytes s.cfg.capacity ++ bs ∧ t.rx.length = s.rx.length + bs.length ∧
      t.trace = s.trace ++ List.replicate bs.length (.sResponse .ack none) ∧ t.cfg = s.cfg := by
  induction bs generalizing s with
  | nil => exact ⟨s, rfl, h, (List.append_nil _).symm, rfl, (List.append_nil _).symm, rfl⟩
  | cons b bs ih =>
    rw [List.length_cons] at hroom
    obtain ⟨q, hq⟩ : ∃ q, s.rx.write s.cfg.capacity b = .ok q := ⟨_, Ring.write_ok.mpr ⟨by omega, rfl⟩⟩
    have grown : q.length = s.rx.length + 1 := by rw [(Ring.write_ok.mp hq).2]
    obtain ⟨u, hu, serving, trace, rx, cfg⟩ := h.runSteps_deliver hq
    obtain ⟨t, ht, done, bytes, length, all, cfg'⟩ :=
      ih serving (by rw [rx, cfg, grown]; omega) (by rw [rx]; exact Ring.wf_write hwf hq)
    rw [cfg, rx, Ring.bytes_of_write (by omega) hwf hq, List.append_assoc, List.singleton_append] at bytes
    refine ⟨t, ?_, done, bytes, ?_, ?_, cfg'.trans cfg⟩
    · rw [List.length_cons, Nat.mul_succ, Nat.add_comm, runSteps_add hu, ht]
    · rw [length, rx, grown, List.length_cons]
      omega
    · rw [all, trace, List.length_cons, List.replicate_succ, List.append_assoc, List.singleton_append]

theorem deliverRounds_append (bs cs : List Byte) :
    deliverRounds (bs ++ cs) = deliverRounds bs ++ deliverRounds cs := by
  induction bs with
  | nil => rfl
  | cons b bs ih => exact congrArg (fun l => .event (.dataRx b) :: .isr :: l) ih

end

/-- Settles O43: the match, a round for each byte held, and the round that finds TX empty. -/
theorem underflowShortensTheTransaction : Obligations.UnderflowShortensTheTransaction := by
  intro s rest ready hhead hlen hs
  rw [requestRounds_succ, List.append_assoc] at hs
  obtain ⟨u, hu, serving, matched, tx, -, cfg⟩ := ready.runSteps_match hs
  obtain ⟨v, hv, asked, empty, given⟩ :=
    serving.runSteps_requestRounds (by rw [tx]) (by rw [tx, cfg]; exact ⟨hhead, hlen⟩)
  obtain ⟨t, ht, nacked, kept, ending, sched⟩ := asked.runSteps_underflow empty
  refine ⟨t, ?_, ?_, by rw [kept, empty], ending,
    turnStep_event_of_not_guard (by simp [eventGuard, ending]), sched⟩
  · rw [runSteps_add hu, Nat.mul_succ, runSteps_add hv, ht]
  · rw [nacked, given, matched, tx, cfg]

/-- Settles O44: the match, a round for each byte RX has room for, and the round that finds RX full. -/
theorem overflowDropsTheByte : Obligations.OverflowDropsTheByte := by
  intro s bs x rest ready _ hroom hwf hs
  rw [deliverRounds_append, List.append_assoc] at hs
  obtain ⟨u, hu, serving, matched, -, rx, cfg⟩ := ready.runSteps_match hs
  obtain ⟨v, hv, delivered, bytes, length, stored, cfg'⟩ :=
    serving.runSteps_deliverRounds (by rw [rx, cfg, hroom]) (by rw [rx]; exact hwf)
  rw [rx, cfg] at bytes
  obtain ⟨t, ht, nacked, kept, ending, sched⟩ :=
    delivered.runSteps_overflow (by rw [length, rx, cfg', cfg, hroom])
  refine ⟨t, ?_, by rw [kept, bytes], ?_, ending,
    fun y => turnStep_event_of_not_guard (by simp [eventGuard, ending]), sched⟩
  · rw [runSteps_add hu, Nat.mul_succ, runSteps_add hv, ht]
  · rw [nacked, stored, matched, Nat.add_comm 1, List.replicate_succ]
    simp

end Sys2Proof
end

