-- ==== Sys2Proof/Proofs/HostCommands.lean ====
section
/-! The one-step host commands INITM, INITS and SETSA, and the words of R80 that a command with one operand is. -/

namespace Sys2Proof

open Sys2Proof.Machine

/-! ### Command words (R80) -/

/-- A word whose only operand is ADDR. -/
theorem hcmdWord_addr (op : Byte) (a : BitVec 7) : hcmdWord op a 0#2 0#8 = 0#17 ++ a ++ op := by
  apply BitVec.eq_of_getLsbD_eq
  intro i hi
  rw [BitVec.getLsbD_append, BitVec.getLsbD_append]
  interval_cases i <;> simp [hcmdWord]

/-- A word whose only operand is COUNT. -/
theorem hcmdWord_count (op n : Byte) : hcmdWord op 0#7 0#2 n = n ++ 0#16 ++ op := by
  apply BitVec.eq_of_getLsbD_eq
  intro i hi
  rw [BitVec.getLsbD_append, BitVec.getLsbD_append]
  interval_cases i <;> simp [hcmdWord]

/-! ### The commands' effects -/

/-- R211: with no frequency in HARG, INITM is refused. -/
theorem execInitm_of_zero_harg (m : BusMode) {s : State} (hidle : busy s = false) (h : s.harg = 0#32) :
    execInitm m s = .refused .zeroFrequency := by
  rw [execInitm, whenIdle_idle hidle, if_pos h, finish_refuse]

/-- Settles O12: HARG decides between the refusal and the register writes, whose MCTRLA byte is read off per mode. -/
theorem initmWritesMasterRegisters : Obligations.InitmWritesMasterRegisters := by
  refine ⟨by decide, fun s m hidle => ⟨fun hfreq => execInitm_next.mpr ⟨hidle, hfreq, ?_⟩,
    execInitm_of_zero_harg m hidle⟩⟩
  cases m <;> rfl

/-- Settles O15: both commands retire with Ok(0) on the registers they write. -/
theorem slaveAddressCommands : Obligations.SlaveAddressCommands := by
  intro s a hidle
  exact ⟨hcmdWord_addr _ a, hcmdWord_addr _ a, execInits_next.mpr ⟨hidle, rfl⟩, execSetsa_next.mpr ⟨hidle, rfl⟩⟩

end Sys2Proof
end

