-- ==== Sys2Proof/Proofs/BulkCommands.lean ====
section
/-! The bracketed bulk commands SENQ and SDRAIN (R217, R218): each loop is one equation of states over the list of bytes
it moves, and what the ring and HBUF then hold follows from that list. -/

namespace Sys2Proof.Machine

/-! ### A list of bytes written to a ring -/

/-- The ring RB_WRITE leaves when it has room (R100). -/
def Ring.push (c : Nat) (r : Ring) (b : Byte) : Ring :=
  { r with store := Memory.write ringBlank r.store ((r.head + r.length) % c) b, length := r.length + 1 }

/-- The bytes of a list written one after the other. -/
def Ring.pushAll (c : Nat) (r : Ring) : List Byte → Ring
  | [] => r
  | b :: bs => (r.push c b).pushAll c bs

theorem Ring.write_of_room {c : Nat} {r : Ring} (b : Byte) (h : r.length < c) : r.write c b = .ok (r.push c b) :=
  Ring.write_ok.mpr ⟨h.ne, rfl⟩

@[simp] theorem Ring.pushAll_head (c : Nat) (r : Ring) (bs : List Byte) : (r.pushAll c bs).head = r.head := by
  induction bs generalizing r with
  | nil => rfl
  | cons b bs ih => exact ih (r.push c b)

@[simp] theorem Ring.pushAll_length (c : Nat) (r : Ring) (bs : List Byte) :
    (r.pushAll c bs).length = r.length + bs.length := by
  induction bs generalizing r with
  | nil => rfl
  | cons b bs ih => rw [pushAll, ih, push, List.length_cons, Nat.add_assoc, Nat.add_comm 1]

/-- Bytes a ring has room for are appended to the bytes it holds. -/
theorem Ring.bytes_pushAll {c : Nat} {r : Ring} {bs : List Byte} (hroom : r.length + bs.length ≤ c)
    (hwf : Memory.wf ringBlank r.store = true) : (r.pushAll c bs).bytes c = r.bytes c ++ bs := by
  induction bs generalizing r with
  | nil => exact (List.append_nil _).symm
  | cons b bs ih =>
    rw [List.length_cons] at hroom
    have hw := r.write_of_room (c := c) b (by omega)
    have later : (r.push c b).length + bs.length ≤ c := by simp only [push]; omega
    rw [pushAll, ih later (wf_write hwf hw), bytes_of_write (by omega) hwf hw, List.append_assoc,
      List.singleton_append]

/-- Byte `i` of those written stands `i` cells after the ring's newest. -/
theorem Ring.ringCell_pushAll {c i : Nat} {r : Ring} {bs : List Byte} (hroom : r.length + bs.length ≤ c)
    (hwf : Memory.wf ringBlank r.store = true) (hi : i < bs.length) :
    ringCell (r.pushAll c bs).store ((r.head + (r.length + i)) % c) = bs[i] := by
  have held : ((r.pushAll c bs).bytes c)[r.length + i]? = some bs[i] := by
    rw [bytes_pushAll hroom hwf, List.getElem?_append_right (by simp [bytes])]
    simp [bytes, hi]
  simpa [bytes, hi] using held

/-- A cell that is none of those written keeps its value. -/
theorem Ring.ringCell_pushAll_other {c j : Nat} {r : Ring} {bs : List Byte} (hwf : Memory.wf ringBlank r.store = true)
    (hj : ∀ i, i < bs.length → j ≠ (r.head + (r.length + i)) % c) :
    ringCell (r.pushAll c bs).store j = ringCell r.store j := by
  induction bs generalizing r with
  | nil => rfl
  | cons b bs ih =>
    have later (i : Nat) (hi : i < bs.length) : j ≠ (r.head + (r.length + 1 + i)) % c := by
      rw [Nat.add_assoc, Nat.add_comm 1]
      exact hj (i + 1) (Nat.succ_lt_succ hi)
    rw [pushAll, ih (Memory.wf_write _ b hwf) later]
    exact ringCell_write_other b hwf (hj 0 (Nat.succ_pos _))

/-! ### The oldest bytes taken from a ring -/

/-- The ring without its `n` oldest bytes (R101). -/
def Ring.dropOldest (c : Nat) (r : Ring) (n : Nat) : Ring :=
  { r with head := (r.head + n) % c, length := r.length - n }

theorem Ring.dropOldest_zero {c : Nat} {r : Ring} (h : r.head < c) : r.dropOldest c 0 = r := by
  simp [dropOldest, Nat.mod_eq_of_lt h]

/-- RB_READ drops one byte, and dropping composes. -/
theorem Ring.dropOldest_of_read {c : Nat} {r q : Ring} {b : Byte} (hr : r.read c = .ok (b, q)) (n : Nat) :
    q.dropOldest c n = r.dropOldest c (n + 1) := by
  obtain ⟨-, -, rfl⟩ := read_ok.mp hr
  simp only [dropOldest, Nat.mod_add_mod, Nat.add_assoc, Nat.sub_sub, Nat.add_comm 1]

/-! ### A list of bytes written to HBUF -/

/-- HBUF with the bytes of a list written from entry `i` on. -/
def hbufStore : Memory → Nat → List Byte → Memory
  | m, _, [] => m
  | m, i, b :: bs => hbufStore (Memory.write hbufBlank m i b) (i + 1) bs

/-- Entries outside those written keep their value. -/
theorem read_hbufStore_other {m : Memory} {i a : Nat} {bs : List Byte} (hwf : Memory.wf hbufBlank m = true)
    (ha : a < i ∨ i + bs.length ≤ a) :
    Memory.read hbufBlank (hbufStore m i bs) a = Memory.read hbufBlank m a := by
  induction bs generalizing m i with
  | nil => rfl
  | cons b bs ih =>
    rw [List.length_cons] at ha
    rw [hbufStore, ih (Memory.wf_write i b hwf) (by omega), Memory.read_write_other b hwf (by omega)]

theorem hbufHolds_hbufStore {m : Memory} {i : Nat} {bs : List Byte} (hwf : Memory.wf hbufBlank m = true) :
    HbufHolds i bs (hbufStore m i bs) := by
  induction bs generalizing m i with
  | nil => exact fun _ h => absurd h (Nat.not_lt_zero _)
  | cons b bs ih =>
    have hwf' := Memory.wf_write i b hwf
    refine hbufHolds_cons.mpr ⟨?_, ih hwf'⟩
    rw [hbufStore, read_hbufStore_other hwf' (.inl (Nat.lt_succ_self i)), Memory.read_write_same i b hwf]

/-- Entries that all hold a value hold the bytes of a list. -/
theorem exists_hbufHolds {m : Memory} {n : Nat} (h : ∀ i, i < n → Memory.read hbufBlank m i ≠ none) :
    ∃ bs : List Byte, bs.length = n ∧ HbufHolds 0 bs m := by
  refine ⟨(List.range n).map fun i => (Memory.read hbufBlank m i).getD 0#8, by simp, ?_⟩
  intro i hi
  obtain ⟨b, hb⟩ := Option.ne_none_iff_exists'.mp (h i (by simpa using hi))
  simp [hb]

/-! ### The loops -/

/-- R217: the enqueue loop appends the bytes HBUF holds, and ends at its count or with TX full. -/
theorem enqueueLoop_of_held {m k : Nat} {s : State} {bs : List Byte} (hlen : s.tx.length ≤ s.cfg.capacity)
    (held : HbufHolds k bs s.hbuf) (hbs : bs.length = min m (s.cfg.capacity - s.tx.length)) :
    enqueueLoop m k s = .ok (k + bs.length, setRing .tx (s.tx.pushAll s.cfg.capacity bs) s) := by
  induction m generalizing k s bs with
  | zero =>
    rw [Nat.zero_min] at hbs
    rw [List.eq_nil_of_length_eq_zero hbs]
    rfl
  | succ m ih =>
    cases bs with
    | nil =>
      rw [List.length_nil] at hbs
      rw [enqueueLoop, if_neg (by omega)]
      rfl
    | cons b bs =>
      rw [List.length_cons] at hbs
      obtain ⟨first, rest⟩ := hbufHolds_cons.mp held
      have room : s.tx.length < s.cfg.capacity := by omega
      have written : rbWrite .fg .tx b s = .ok (.ok (setRing .tx (s.tx.push s.cfg.capacity b) s)) := by
        simp [rbWrite, ringWriter, ring, Ring.write_of_room b room]
      have loop := ih (k := k + 1) (s := setRing .tx (s.tx.push s.cfg.capacity b) s) (bs := bs) room rest
        (by simp [Ring.push]; omega)
      simp only [enqueueLoop, if_pos room, hbufRead_ok.mpr first, written, loop, List.length_cons]
      rw [Nat.add_assoc, Nat.add_comm 1]
      rfl

/-- R218: the drain loop moves RX's oldest bytes to HBUF, and ends at its count or with RX empty. -/
theorem drainLoop_of_taken {m k : Nat} {s : State} {bs : List Byte}
    (hrx : s.rx.head < s.cfg.capacity ∧ s.rx.length ≤ s.cfg.capacity) (hbs : bs = (s.rx.bytes s.cfg.capacity).take m) :
    drainLoop m k s = .ok (k + bs.length,
      { s with rx := s.rx.dropOldest s.cfg.capacity bs.length, hbuf := hbufStore s.hbuf k bs }) := by
  induction m generalizing k s bs with
  | zero =>
    rw [List.take_zero] at hbs
    rw [hbs, List.length_nil, Ring.dropOldest_zero hrx.1]
    rfl
  | succ m ih =>
    cases hr : s.rx.read s.cfg.capacity with
    | error e =>
      have noData : rbRead .fg .rx s = .ok (.error e) := by simp [rbRead, ringReader, ring, hr]
      rw [Ring.bytes_of_empty (Ring.read_error.mp hr).1, List.take_nil] at hbs
      rw [hbs, List.length_nil, Ring.dropOldest_zero hrx.1, drainLoop, noData]
      rfl
    | ok x =>
      obtain ⟨b, q⟩ := x
      have taken : rbRead .fg .rx s = .ok (.ok (b, setRing .rx q s)) := by simp [rbRead, ringReader, ring, hr]
      have loop := ih (k := k + 1) (s := hbufWrite k b (setRing .rx q s)) (Ring.bounded_read hrx hr) rfl
      rw [Ring.bytes_of_read hrx.1 hr, List.take_succ_cons] at hbs
      simp only [drainLoop, taken, loop, hbs, List.length_cons]
      rw [← Ring.dropOldest_of_read hr, Nat.add_assoc, Nat.add_comm 1]
      rfl

end Sys2Proof.Machine

namespace Sys2Proof

open Sys2Proof.Machine

/-! ### The bracketed commands -/

/-- R217: the state a bracketed SENQ leaves, over the bytes it needs from HBUF. -/
theorem exec_senq_of_held {n : Byte} {s : State} {bs : List Byte} (hidle : busy s = false)
    (hbracket : s.cfg.bracket = true) (hn : n.toNat ≤ s.cfg.capacity) (hlen : s.tx.length ≤ s.cfg.capacity)
    (held : HbufHolds 0 bs s.hbuf) (hbs : bs.length = min n.toNat (s.cfg.capacity - s.tx.length)) :
    exec (.senq n) s = .next { s with
      tx := s.tx.pushAll s.cfg.capacity bs
      hres := hresRetired 0#8 (BitVec.ofNat 8 bs.length) } := by
  have loop := enqueueLoop_of_held (s := setImask true (accept s)) hlen held hbs
  rw [Nat.zero_add] at loop
  exact execSenq_next.mpr ⟨hidle, hn, .inl ⟨hbracket, bulkNow_ok.mpr ⟨_, _, loop, rfl⟩⟩⟩

/-- R218: the state a bracketed SDRAIN leaves, over the bytes it takes from RX. -/
theorem exec_sdrain_of_taken {m : Byte} {s : State} {bs : List Byte} (hidle : busy s = false)
    (hbracket : s.cfg.bracket = true) (hm : m.toNat ≤ s.cfg.capacity)
    (hrx : s.rx.head < s.cfg.capacity ∧ s.rx.length ≤ s.cfg.capacity)
    (taken : bs = (s.rx.bytes s.cfg.capacity).take m.toNat) :
    exec (.sdrain m) s = .next { s with
      rx := s.rx.dropOldest s.cfg.capacity bs.length
      hbuf := hbufStore s.hbuf 0 bs
      hres := hresRetired 0#8 (BitVec.ofNat 8 bs.length) } := by
  have loop := drainLoop_of_taken (k := 0) (s := setImask true (accept s)) hrx taken
  rw [Nat.zero_add] at loop
  exact execSdrain_next.mpr ⟨hidle, hm, .inl ⟨hbracket, bulkNow_ok.mpr ⟨_, _, loop, rfl⟩⟩⟩

/-- Settles O16: HBUF's bytes as a list, and the cells of a ring with that list written. -/
theorem senqAppendsToTx : Obligations.SenqAppendsToTx := by
  intro s n hidle hbracket hn _ hlen hwf hneeded
  obtain ⟨bs, hbs, held⟩ := exists_hbufHolds hneeded
  have run := exec_senq_of_held hidle hbracket hn hlen held hbs
  have room : s.tx.length + bs.length ≤ s.cfg.capacity := by omega
  rw [← hbs]
  refine ⟨hcmdWord_count _ n, _, run, rfl, rfl, Ring.pushAll_head .., Ring.pushAll_length .., fun i hi => ?_,
    fun j => Ring.ringCell_pushAll_other hwf⟩
  rw [hbufHolds_zero.mp held i hi, Ring.ringCell_pushAll room hwf hi]

/-- Settles O18: RX's oldest bytes as a list, which HBUF then holds. -/
theorem sdrainTakesFromRx : Obligations.SdrainTakesFromRx := by
  intro s m hidle hbracket hm hhead hlen hwf
  obtain ⟨bs, taken⟩ : ∃ bs, bs = (s.rx.bytes s.cfg.capacity).take m.toNat := ⟨_, rfl⟩
  have hbs : bs.length = min m.toNat s.rx.length := by simp [taken, Ring.bytes]
  have run := exec_sdrain_of_taken hidle hbracket hm ⟨hhead, hlen⟩ taken
  rw [← hbs]
  refine ⟨hcmdWord_count _ m, _, run, rfl, rfl, rfl, fun i hi => ?_,
    fun a ha => read_hbufStore_other hwf (.inr (by rwa [Nat.zero_add]))⟩
  have byte : bs[i] = ringCell s.rx.store ((s.rx.head + i) % s.cfg.capacity) := by simp [taken, Ring.bytes]
  rw [← byte]
  exact hbufHolds_zero.mp (hbufHolds_hbufStore hwf) i hi

end Sys2Proof
end

