-- ==== Sys2Proof/Proofs/Encoding.lean ====
section
/-! Decoder and encoder, both ways: the fields of a host command word as masks of it, the bytes of a record, and each
format's decoder as an equation on the record it accepts. -/

namespace Sys2Proof

open Sys2Proof.Machine

/-! ### The fields of a host command word (R81) -/

theorem mode_hcmdWord (op : Byte) (a : BitVec 7) (m : BitVec 2) (n : Byte) : Word.mode (hcmdWord op a m n) = m := by
  apply BitVec.eq_of_getLsbD_eq
  intro i hi
  interval_cases i <;> simp [Word.mode, hcmdWord]

theorem BusMode.ofNumber?_number (m : BusMode) : BusMode.ofNumber? m.number = some m := by
  cases m <;> rfl

theorem BusMode.number_of_ofNumber? {v : BitVec 2} {m : BusMode} (h : BusMode.ofNumber? v = some m) :
    m.number = v := by
  have : ∀ v : BitVec 2, ∀ m ∈ BusMode.ofNumber? v, m.number = v := by decide
  exact this v m h

theorem count_shifted (w : Word) : (Word.count w).setWidth 32 <<< 24 = w &&& 0xFF000000#32 := by
  apply BitVec.eq_of_getLsbD_eq
  intro i hi
  interval_cases i <;> simp [Word.count]

theorem mode_shifted (w : Word) : (Word.mode w).setWidth 32 <<< 16 = w &&& 0x00030000#32 := by
  apply BitVec.eq_of_getLsbD_eq
  intro i hi
  interval_cases i <;> simp [Word.mode]

theorem addr_shifted (w : Word) : (Word.addr w).setWidth 32 <<< 8 = w &&& 0x00007F00#32 := by
  apply BitVec.eq_of_getLsbD_eq
  intro i hi
  interval_cases i <;> simp [Word.addr]

/-- A word is its bits under a mask with its bits under the complement. -/
theorem eq_of_masks {w mask bits : Word} (k : Word) (hk : k ||| mask = BitVec.allOnes 32) (h : w &&& mask = bits) :
    (w &&& k) ||| bits = w := by
  rw [← h, ← BitVec.and_or_distrib_left, hk, BitVec.and_allOnes]

theorem hcmdWord_eq_of_addr_count {w : Word} {op : Byte} (h : w &&& 0x00FF80FF#32 = op.setWidth 32) :
    hcmdWord op (Word.addr w) 0#2 (Word.count w) = w := by
  rw [hcmdWord, count_shifted, addr_shifted]
  simpa [← BitVec.and_or_distrib_left] using eq_of_masks 0xFF007F00#32 (by decide) h

theorem hcmdWord_eq_of_addr {w : Word} {op : Byte} (h : w &&& 0xFFFF80FF#32 = op.setWidth 32) :
    hcmdWord op (Word.addr w) 0#2 0#8 = w := by
  rw [hcmdWord, addr_shifted]
  simpa using eq_of_masks 0x00007F00#32 (by decide) h

theorem hcmdWord_eq_of_count {w : Word} {op : Byte} (h : w &&& 0x00FFFFFF#32 = op.setWidth 32) :
    hcmdWord op 0#7 0#2 (Word.count w) = w := by
  rw [hcmdWord, count_shifted]
  simpa using eq_of_masks 0xFF000000#32 (by decide) h

theorem hcmdWord_eq_of_mode {w : Word} {op : Byte} (h : w &&& 0xFFFCFFFF#32 = op.setWidth 32) :
    hcmdWord op 0#7 (Word.mode w) 0#8 = w := by
  rw [hcmdWord, mode_shifted]
  simpa using eq_of_masks 0x00030000#32 (by decide) h

/-! ### Host commands (R82, R83) -/

theorem checkCount_ok {c : Nat} {n : Byte} {i j : Instr} :
    checkCount c n i = .ok j ↔ n.toNat ≤ c ∧ i = j := by
  by_cases h : n.toNat ≤ c <;> simp [checkCount, h]

theorem decodeRow_initm_ok {c : Nat} {w : Word} {i : Instr} (h : decodeRow c w .initm = .ok i) :
    ∃ m, BusMode.number m = Word.mode w ∧ i = .initm m := by
  rw [decodeRow] at h
  cases hm : BusMode.ofNumber? (Word.mode w) with
  | none => simp [hm] at h
  | some m =>
    simp only [hm, Except.ok.injEq] at h
    exact ⟨m, BusMode.number_of_ofNumber? hm, h.symm⟩

/-- A row's accepted word is the encoding of the command it gives: the mask leaves exactly the row's fields free. -/
theorem encode_of_decodeRow {c : Nat} {r : OpcodeRow} {w : Word} {i : Instr} (hr : r ∈ opcodeMap)
    (h : w &&& r.mask = r.bits) (hd : decodeRow c w r.op = .ok i) :
    i.wf c = true ∧ formatOf i = .hcmd ∧ encode i = w := by
  simp only [opcodeMap, List.mem_cons, List.not_mem_nil, or_false] at hr
  rcases hr with rfl | rfl | rfl | rfl | rfl | rfl | rfl
  · obtain ⟨m, hm, rfl⟩ := decodeRow_initm_ok hd
    exact ⟨rfl, rfl, by rw [encode, hm, hcmdWord_eq_of_mode h]⟩
  · obtain ⟨hn, rfl⟩ := checkCount_ok.mp hd
    exact ⟨decide_eq_true hn, rfl, hcmdWord_eq_of_addr_count h⟩
  · obtain ⟨hn, rfl⟩ := checkCount_ok.mp hd
    exact ⟨decide_eq_true hn, rfl, hcmdWord_eq_of_addr_count h⟩
  · obtain rfl := Except.ok.inj hd
    exact ⟨rfl, rfl, hcmdWord_eq_of_addr h⟩
  · obtain rfl := Except.ok.inj hd
    exact ⟨rfl, rfl, hcmdWord_eq_of_addr h⟩
  · obtain ⟨hn, rfl⟩ := checkCount_ok.mp hd
    exact ⟨decide_eq_true hn, rfl, hcmdWord_eq_of_count h⟩
  · obtain ⟨hn, rfl⟩ := checkCount_ok.mp hd
    exact ⟨decide_eq_true hn, rfl, hcmdWord_eq_of_count h⟩

theorem encode_of_decodeHcmd {c : Nat} {w : Word} {i : Instr} (h : decode c .hcmd w = .ok i) :
    i.wf c = true ∧ formatOf i = .hcmd ∧ encode i = w := by
  by_cases none_selected : ∀ r ∈ opcodeMap, w &&& r.mask ≠ r.bits
  · rw [decode_hcmd_of_no_row c none_selected] at h
    cases h
  · push Not at none_selected
    obtain ⟨r, hr, hw⟩ := none_selected
    exact encode_of_decodeRow hr hw (decode_hcmd_of_row c hr hw ▸ h)

/-- A command's word selects its own row, whose fields are the command's operands. -/
theorem decode_of_encode_hcmd {c : Nat} {i : Instr} (hf : formatOf i = .hcmd) (h : i.wf c = true) :
    decode c .hcmd (encode i) = .ok i := by
  cases i with
  | initm m =>
    rw [decode_hcmd_of_row (r := ⟨.initm, 0x00000001#32, 0xFFFCFFFF#32⟩) c (by decide) (Laws.TableRow.initm m),
      decodeRow, encode, mode_hcmdWord, BusMode.ofNumber?_number]
  | msend a n => exact decode_transferCommand .w a (of_decide_eq_true h)
  | mrecv a n => exact decode_transferCommand .r a (of_decide_eq_true h)
  | inits a =>
    rw [decode_hcmd_of_row (r := ⟨.inits, 0x00000004#32, 0xFFFF80FF#32⟩) c (by decide) (Laws.TableRow.inits a),
      decodeRow, encode, addr_hcmdWord]
  | setsa a =>
    rw [decode_hcmd_of_row (r := ⟨.setsa, 0x00000005#32, 0xFFFF80FF#32⟩) c (by decide) (Laws.TableRow.setsa a),
      decodeRow, encode, addr_hcmdWord]
  | senq n =>
    rw [decode_hcmd_of_row (r := ⟨.senq, 0x00000006#32, 0x00FFFFFF#32⟩) c (by decide) (Laws.TableRow.senq n),
      decodeRow, encode, count_hcmdWord, checkCount_of_le (of_decide_eq_true h)]
  | sdrain n =>
    rw [decode_hcmd_of_row (r := ⟨.sdrain, 0x00000007#32, 0x00FFFFFF#32⟩) c (by decide) (Laws.TableRow.sdrain n),
      decodeRow, encode, count_hcmdWord, checkCount_of_le (of_decide_eq_true h)]
  | _ => cases hf

/-! ### The bytes of a record (log 6) -/

/-- A record is its four bytes. -/
theorem eq_bytes (w : Word) :
    w = ((Word.byte3 w).setWidth 32 <<< 24) ||| record3 (Word.byte0 w) (Word.byte1 w) (Word.byte2 w) := by
  apply BitVec.eq_of_getLsbD_eq
  intro i hi
  interval_cases i <;> simp [record3, Word.byte0, Word.byte1, Word.byte2, Word.byte3]

theorem bytes_record3 (b v u : Byte) :
    Word.byte0 (record3 b v u) = b ∧ Word.byte1 (record3 b v u) = v ∧ Word.byte2 (record3 b v u) = u ∧
      Word.byte3 (record3 b v u) = 0#8 := by
  refine ⟨?_, ?_, ?_, ?_⟩ <;> apply BitVec.eq_of_getLsbD_eq <;> intro i hi <;> interval_cases i <;>
    simp [record3, Word.byte0, Word.byte1, Word.byte2, Word.byte3]

theorem record2_eq_record3 (b v : Byte) : record2 b v = record3 b v 0#8 := by
  simp [record2, record3]

theorem record1_eq_record3 (b : Byte) : record1 b = record3 b 0#8 0#8 := by
  simp [record1, record3]

/-- A record's bytes are `b`, `v`, `u` and 0 exactly when it is the record of the three. -/
theorem eq_record3_iff {w : Word} {b v u : Byte} :
    w = record3 b v u ↔ Word.byte0 w = b ∧ Word.byte1 w = v ∧ Word.byte2 w = u ∧ Word.byte3 w = 0#8 := by
  constructor
  · rintro rfl
    exact bytes_record3 b v u
  · rintro ⟨rfl, rfl, rfl, h3⟩
    simpa [h3] using eq_bytes w

theorem noOperands_ok {w : Word} {i j : Instr} :
    noOperands w i = .ok j ↔ w = record1 (Word.byte0 w) ∧ j = i := by
  rw [record1_eq_record3, eq_record3_iff, noOperands]
  split_ifs with h
  · simp [h, eq_comm]
  · simp [h]

theorem oneOperand_ok {w : Word} {f : Byte → Instr} {j : Instr} :
    oneOperand w f = .ok j ↔ w = record2 (Word.byte0 w) (Word.byte1 w) ∧ j = f (Word.byte1 w) := by
  rw [record2_eq_record3, eq_record3_iff, oneOperand]
  split_ifs with h
  · simp [h, eq_comm]
  · simp [h]

theorem presentedOperand_ok {w : Word} {act : AckAct} {j : Instr} :
    presentedOperand w act = .ok j ↔
      (w = record1 (Word.byte0 w) ∧ j = .sctrlbResponse act none) ∨
      (∃ b, w = record3 (Word.byte0 w) 1#8 b ∧ j = .sctrlbResponse act (some b)) := by
  simp only [record1_eq_record3, eq_record3_iff, presentedOperand]
  split_ifs with h3 h1 h0
  · simp [h3]
  · simp [h1, not_ne_iff.mp h3, eq_comm]
  · simp [h0, not_ne_iff.mp h3, eq_comm]
  · simpa [h1, and_assoc] using fun h h' => absurd ⟨h, h'⟩ h0

/-! ### The accesses of the engines (R86, R88) -/

/-- A command byte is its command with its acknowledge bit (R86). -/
theorem commandByte_of_masked :
    ∀ b : Byte, (b &&& 0xFB#8 = 0x02#8 → commandByte (ackOf b) cmdTwo = b) ∧
      (b &&& 0xFB#8 = 0x03#8 → commandByte (ackOf b) cmdThree = b) := by decide

/-- The address byte of R87 is its two parts. -/
theorem addressByte_parts : ∀ v : Byte, addressByte (addressOf v) (Dir.ofBool (v.getLsbD 0)) = v := by decide

theorem maddrOperand_addressByte (d : Dir) : ∀ a : BitVec 7, maddrOperand (addressByte a d) = .maddrWrite a d := by
  cases d <;> decide

theorem encode_of_decodeMctrlb {w : Word} {i : Instr} (h : decodeMctrlb w = .ok i) :
    formatOf i = .mctrlb ∧ encode i = w := by
  unfold decodeMctrlb at h
  split_ifs at h with h2 h3
  · obtain ⟨hw, rfl⟩ := noOperands_ok.mp h
    exact ⟨rfl, by rw [encode, (commandByte_of_masked _).1 h2, ← hw]⟩
  · obtain ⟨hw, rfl⟩ := noOperands_ok.mp h
    exact ⟨rfl, by rw [encode, (commandByte_of_masked _).2 h3, ← hw]⟩

theorem encode_of_decodeSctrlb {w : Word} {i : Instr} (h : decodeSctrlb w = .ok i) :
    formatOf i = .sctrlb ∧ encode i = w := by
  unfold decodeSctrlb at h
  split_ifs at h with h2 h3
  · obtain ⟨hw, rfl⟩ := noOperands_ok.mp h
    exact ⟨rfl, by rw [encode, (commandByte_of_masked _).1 h2, ← hw]⟩
  · obtain ⟨hw, rfl⟩ | ⟨b, hw, rfl⟩ := presentedOperand_ok.mp h
    · exact ⟨rfl, by rw [encode, (commandByte_of_masked _).2 h3, ← hw]⟩
    · exact ⟨rfl, by rw [encode, (commandByte_of_masked _).2 h3, ← hw]⟩

theorem encode_of_decodePacc {w : Word} {i : Instr} (h : decodePacc w = .ok i) :
    formatOf i = .pacc ∧ encode i = w := by
  have read {b : Byte} {j : Instr} (hb : Word.byte0 w = b) (hj : noOperands w j = .ok i) :
      w = record1 b ∧ i = j := hb ▸ noOperands_ok.mp hj
  have write {b : Byte} {f : Byte → Instr} (hb : Word.byte0 w = b) (hj : oneOperand w f = .ok i) :
      w = record2 b (Word.byte1 w) ∧ i = f (Word.byte1 w) := hb ▸ oneOperand_ok.mp hj
  unfold decodePacc at h
  split_ifs at h with hb hb hb hb hb hb hb
  · obtain ⟨hw, rfl⟩ := read hb h
    exact ⟨rfl, hw.symm⟩
  · obtain ⟨hw, rfl⟩ := write hb h
    refine ⟨rfl, ?_⟩
    rw [maddrOperand, encode, addressByte_parts]
    exact hw.symm
  · obtain ⟨hw, rfl⟩ := write hb h
    exact ⟨rfl, hw.symm⟩
  · obtain ⟨hw, rfl⟩ := read hb h
    exact ⟨rfl, hw.symm⟩
  · obtain ⟨hw, rfl⟩ := read hb h
    exact ⟨rfl, hw.symm⟩
  · obtain ⟨hw, rfl⟩ := write hb h
    exact ⟨rfl, hw.symm⟩
  · obtain ⟨hw, rfl⟩ := read hb h
    exact ⟨rfl, hw.symm⟩

/-- The only operand check is a host command's (R83). -/
theorem Instr.wf_of_not_hcmd (c : Nat) {i : Instr} (h : formatOf i ≠ .hcmd) : i.wf c = true := by
  cases i with
  | msend a n => exact absurd rfl h
  | mrecv a n => exact absurd rfl h
  | senq n => exact absurd rfl h
  | sdrain n => exact absurd rfl h
  | _ => rfl

/-- A record of a byte and one operand byte decodes by its byte, with that operand. -/
theorem oneOperand_record2 (b v : Byte) (f : Byte → Instr) : oneOperand (record2 b v) f = .ok (f v) := by
  obtain ⟨h0, h1, -⟩ := bytes_record3 b v 0#8
  rw [← record2_eq_record3] at h0 h1
  exact oneOperand_ok.mpr ⟨by rw [h0, h1], by rw [h1]⟩

theorem byte0_record2 (b v : Byte) : Word.byte0 (record2 b v) = b := by
  rw [record2_eq_record3]
  exact (bytes_record3 b v 0#8).1

/-- An engine's access decodes to itself, whatever the capacity. -/
theorem decode_of_encode_access (c : Nat) {i : Instr} (hf : formatOf i ≠ .hcmd) :
    decode c (formatOf i) (encode i) = .ok i := by
  cases i with
  | mctrlbRecvtrans act => cases act <;> rfl
  | mctrlbStop act => cases act <;> rfl
  | sctrlbComptrans act => cases act <;> rfl
  | sctrlbResponse act p =>
    cases p with
    | none => cases act <;> rfl
    | some b =>
      have presented (v : Byte) (act : AckAct) :
          presentedOperand (record3 v 1#8 b) act = .ok (.sctrlbResponse act (some b)) :=
        presentedOperand_ok.mpr (.inr ⟨b, by rw [(bytes_record3 v 1#8 b).1], rfl⟩)
      simp only [formatOf, encode, decode, decodeSctrlb, (bytes_record3 _ 1#8 b).1]
      cases act <;> exact presented _ _
  | mstatusRead => rfl
  | maddrWrite a d =>
    simp only [formatOf, encode, decode, decodePacc, byte0_record2]
    exact (oneOperand_record2 _ _ _).trans (congrArg _ (maddrOperand_addressByte d a))
  | mdataWrite b =>
    simp only [formatOf, encode, decode, decodePacc, byte0_record2]
    exact oneOperand_record2 _ _ _
  | mdataRead => rfl
  | sstatusRead => rfl
  | sdataWrite b =>
    simp only [formatOf, encode, decode, decodePacc, byte0_record2]
    exact oneOperand_record2 _ _ _
  | sdataRead => rfl
  | _ => exact absurd rfl hf

/-- Settles O2: a host command's word selects its row and carries its fields; an engine's record carries its operand
bytes. -/
theorem decodeOfEncode : Obligations.DecodeOfEncode := by
  intro c i h
  by_cases hf : formatOf i = .hcmd
  · rw [hf]
    exact decode_of_encode_hcmd hf h
  · exact decode_of_encode_access c hf

/-- Settles O3: what a row or a record leaves free is exactly the operands of the instruction it gives. -/
theorem encodeOfDecode : Obligations.EncodeOfDecode := by
  intro c f w i h
  cases f with
  | hcmd => exact encode_of_decodeHcmd h
  | mctrlb =>
    obtain ⟨hf, he⟩ := encode_of_decodeMctrlb h
    exact ⟨Instr.wf_of_not_hcmd c (by simp [hf]), hf, he⟩
  | sctrlb =>
    obtain ⟨hf, he⟩ := encode_of_decodeSctrlb h
    exact ⟨Instr.wf_of_not_hcmd c (by simp [hf]), hf, he⟩
  | pacc =>
    obtain ⟨hf, he⟩ := encode_of_decodePacc h
    exact ⟨Instr.wf_of_not_hcmd c (by simp [hf]), hf, he⟩

/-- Settles O1: each word is evaluated by the decoder. -/
theorem specWordsDecode : Obligations.SpecWordsDecode := by
  unfold Obligations.SpecWordsDecode
  decide

end Sys2Proof
end

