-- ==== Sys2Proof/Proofs/Moves.lean ====
section
/-! What one move of an agent leaves, for the invariants and the frames below: the Master Engine's transitions by kind, a
lone engine access, a micro-step's storage. -/

namespace Sys2Proof

open Sys2Proof.Machine

/-! ### The Master Engine (R140) -/

/-- The next state of a Master Engine step from `s` on its transaction `x`, with what the transition's guards say. -/
inductive MasterMove (s : State) (x : Txn) : State → Prop
  /-- T1, T6. -/
  | lost (hl : mLost s.mstatus = true) : MasterMove s x (retireMaster (.error .busy) s)
  /-- T10. -/
  | readLost {i : Nat} (hm : s.mstate = .dataPhase i) (hd : x.dir = .r) (hl : mLost s.mstatus = true) :
    MasterMove s x (retireMaster (.error .ioError) (hbufUnspecified x.n 0 s))
  /-- T2, T3, T7, T9. -/
  | stopped (r : OpResult) (hr : r.status.toNat ≤ 3) (hl : mLost s.mstatus = false) :
    MasterMove s x (retireMaster (.stopSent r) (stopOp .nack s))
  /-- T4, T8. -/
  | sent (i : Nat) (b : Byte) (hl : mLost s.mstatus = false) (hi : i < x.n) :
    MasterMove s x (enterData i (mdataWriteOp b s))
  /-- T5. -/
  | awaited (hn : 0 < x.n) : MasterMove s x (enterData 0 s)
  /-- T11. -/
  | stored {i : Nat} (hm : s.mstate = .dataPhase i) (hd : x.dir = .r) (hl : mLost s.mstatus = false)
    (hi : i + 1 < x.n) : MasterMove s x (enterData (i + 1) (recvTransOp .ack (hbufWrite i s.mdata s)))
  /-- T12. -/
  | storedLast {i : Nat} (hm : s.mstate = .dataPhase i) (hd : x.dir = .r) (hl : mLost s.mstatus = false) :
    MasterMove s x (retireMaster (.stopSent (.ok x.n)) (stopOp .nack (hbufWrite i s.mdata s)))

section

variable {s t : State} {x : Txn} {i : Nat}

theorem masterMove_of_sendByte (hl : mLost s.mstatus = false) (hi : i < x.n) (h : sendByte i s = .ok t) :
    MasterMove s x t := by
  obtain ⟨b, -, rfl⟩ := sendByte_ok.mp h
  exact .sent i b hl hi

/-- T1 to T5, by R152's guards. -/
theorem masterMove_of_addressTrans (h : runTrans x s (addressTrans s.mstatus x) = .ok t) : MasterMove s x t := by
  unfold addressTrans at h
  split_ifs at h with hl hr hn
  · obtain rfl := Except.ok.inj h
    exact .lost hl
  · obtain rfl := Except.ok.inj h
    exact .stopped _ (by decide) (Bool.eq_false_of_not_eq_true hl)
  · obtain rfl := Except.ok.inj h
    exact .stopped _ (by decide) (Bool.eq_false_of_not_eq_true hl)
  · cases hd : x.dir with
    | w =>
      simp only [hd] at h
      exact masterMove_of_sendByte (Bool.eq_false_of_not_eq_true hl) (Nat.pos_of_ne_zero hn) h
    | r =>
      simp only [hd] at h
      obtain rfl := Except.ok.inj h
      exact .awaited (Nat.pos_of_ne_zero hn)

/-- T6 to T9, by R160's guards. -/
theorem masterMove_of_writeTrans (h : runTrans x s (writeTrans s.mstatus x i) = .ok t) : MasterMove s x t := by
  unfold writeTrans at h
  split_ifs at h with hl hr hi
  · obtain rfl := Except.ok.inj h
    exact .lost hl
  · obtain rfl := Except.ok.inj h
    exact .stopped _ (by decide) (Bool.eq_false_of_not_eq_true hl)
  · exact masterMove_of_sendByte (Bool.eq_false_of_not_eq_true hl) hi h
  · obtain rfl := Except.ok.inj h
    exact .stopped _ (Nat.zero_le 3) (Bool.eq_false_of_not_eq_true hl)

/-- T10 to T12, by R165's guards. -/
theorem masterMove_of_readTrans {k : Trans} (hm : s.mstate = .dataPhase i) (hd : x.dir = .r)
    (hk : readTrans s.mstatus x i = some k) (h : runTrans x s k = .ok t) : MasterMove s x t := by
  unfold readTrans at hk
  split_ifs at hk with hl hc hi
  · obtain rfl := Option.some.inj hk
    obtain rfl := Except.ok.inj h
    exact .readLost hm hd hl
  · obtain rfl := Option.some.inj hk
    obtain rfl := Except.ok.inj h
    exact .stored hm hd (Bool.eq_false_of_not_eq_true hl) hi
  · obtain rfl := Option.some.inj hk
    obtain rfl := Except.ok.inj h
    exact .storedLast hm hd (Bool.eq_false_of_not_eq_true hl)

/-- A Master Engine step that gives a state is one of these moves, on the transaction in progress. -/
theorem masterStep_move (h : masterStep s = some (.ok t)) :
    s.mstate ≠ .idle ∧ ∃ x, s.txn = some x ∧ MasterMove s x t := by
  obtain ⟨not_idle, x, k, hx, hk, ht⟩ := masterStep_cases h
  refine ⟨not_idle, x, hx, ?_⟩
  unfold enabledTrans at hk
  cases hm : s.mstate with
  | idle => exact absurd hm not_idle
  | addressPhase =>
    simp only [hm, Option.ite_none_right_eq_some, Option.some.injEq] at hk
    obtain ⟨-, rfl⟩ := hk
    exact masterMove_of_addressTrans ht
  | dataPhase i =>
    cases hd : x.dir with
    | w =>
      simp only [hm, hd, Option.ite_none_right_eq_some, Option.some.injEq] at hk
      obtain ⟨-, rfl⟩ := hk
      exact masterMove_of_writeTrans ht
    | r =>
      simp only [hm, hd] at hk
      exact masterMove_of_readTrans hm hd hk ht

/-- R175: what a Master Engine step writes. -/
theorem MasterMove.frame (h : MasterMove s x t) :
    t = { s with
      mdata := t.mdata, mctrlb := t.mctrlb, mstatus := t.mstatus, hbuf := t.hbuf, hres := t.hres,
      mstate := t.mstate, txn := t.txn, mlast := t.mlast, mreq := t.mreq, trace := t.trace, draws := t.draws } := by
  cases h with
  | readLost hm hd hl =>
    rw [hbufUnspecified_frame]
    rfl
  | _ => rfl

theorem masterStep_frame (h : masterStep s = some (.ok t)) :
    t = { s with
      mdata := t.mdata, mctrlb := t.mctrlb, mstatus := t.mstatus, hbuf := t.hbuf, hres := t.hres,
      mstate := t.mstate, txn := t.txn, mlast := t.mlast, mreq := t.mreq, trace := t.trace, draws := t.draws } := by
  obtain ⟨-, x, -, move⟩ := masterStep_move h
  exact move.frame

end

/-! ### The handler (R185) -/

/-- An invocation of the handler with the request raised clears the condition and writes no ring but by RB_READ of TX or
RB_WRITE of RX. -/
theorem slaveIsr_rings {s t : State} (h : slaveIsr s = .ok t) :
    (t.tx = s.tx ∨ ∃ b, s.tx.read s.cfg.capacity = .ok (b, t.tx)) ∧
      (t.rx = s.rx ∨ s.rx.write s.cfg.capacity s.sdata = .ok t.rx) := by
  rcases slaveIsr_cases h with ⟨-, -, h⟩ | ⟨-, -, h⟩ | ⟨-, -, -, -, h⟩ | ⟨-, -, -, rfl⟩ | ⟨-, -, rfl⟩
  · rcases slaveTransmit_cases h with ⟨b, q, hr, h⟩ | ⟨-, h⟩
    · rw [responseOp_frame h]
      exact ⟨.inr ⟨b, hr⟩, .inl rfl⟩
    · rw [responseOp_frame h]
      exact ⟨.inl rfl, .inl rfl⟩
  · rcases slaveReceive_cases h with ⟨q, hw, h⟩ | ⟨-, h⟩
    · rw [responseOp_frame h]
      exact ⟨.inl rfl, .inr hw⟩
    · rw [responseOp_frame h]
      exact ⟨.inl rfl, .inl rfl⟩
  · rw [responseOp_frame h]
    exact ⟨.inl rfl, .inl rfl⟩
  · exact ⟨.inl rfl, .inl rfl⟩
  · exact ⟨.inl rfl, .inl rfl⟩

/-- An invocation of the handler appends at most one action to TRACE. -/
theorem slaveIsr_trace {s t : State} (h : slaveIsr s = .ok t) : ∃ l, t.trace = s.trace ++ l := by
  have response {act : AckAct} {p : Option Byte} {u : State} (hr : responseOp act p u = .ok t)
      (hu : u.trace = s.trace) : ∃ l, t.trace = s.trace ++ l := by
    obtain ⟨q, -, rfl⟩ := responseOp_ok.mp hr
    exact ⟨_, congrArg (· ++ _) hu⟩
  rcases slaveIsr_cases h with ⟨-, -, h⟩ | ⟨-, -, h⟩ | ⟨-, -, -, -, h⟩ | ⟨-, -, -, rfl⟩ | ⟨-, -, rfl⟩
  · rcases slaveTransmit_cases h with ⟨b, q, -, h⟩ | ⟨-, h⟩ <;> exact response h rfl
  · rcases slaveReceive_cases h with ⟨q, -, h⟩ | ⟨-, h⟩ <;> exact response h rfl
  · exact response h rfl
  · exact ⟨_, rfl⟩
  · exact ⟨[], (List.append_nil _).symm⟩

/-! ### Host commands -/

/-- What no host command touches: the slave's status, data and phase, IMASK, the parameters, the lone access and the mark
REFUSED. SCTRLA is INITS's at most, and TRACE only grows. -/
structure CommandFrame (s t : State) : Prop where
  sstatus : t.sstatus = s.sstatus
  sdata : t.sdata = s.sdata
  sphase : t.sphase = s.sphase
  imask : t.imask = s.imask
  cfg : t.cfg = s.cfg
  probe : t.probe = s.probe
  refused : t.refused = s.refused
  sctrla : t.sctrla = s.sctrla ∨ t.sctrla = sctrlaInit
  trace : ∃ l, t.trace = s.trace ++ l

theorem command_frame {i : Instr} {s t : State} (hf : formatOf i = .hcmd) (h : exec i s = .next t) :
    CommandFrame s t := by
  have silent {u : State} (hu : u.trace = s.trace) : ∃ l, u.trace = s.trace ++ l :=
    ⟨[], by rw [hu, List.append_nil]⟩
  rcases exec_command_cases hf h with ⟨-, m, rfl⟩ | ⟨a, d, n, -, -, rfl⟩ | ⟨a, rfl⟩ | ⟨a, rfl⟩ | ⟨m, -, ht⟩ |
    ⟨m, -, ht⟩ | ⟨m, -, -, rfl | rfl⟩
  · exact ⟨rfl, rfl, rfl, rfl, rfl, rfl, rfl, .inl rfl, silent rfl⟩
  · exact ⟨rfl, rfl, rfl, rfl, rfl, rfl, rfl, .inl rfl, ⟨_, rfl⟩⟩
  · exact ⟨rfl, rfl, rfl, rfl, rfl, rfl, rfl, .inr rfl, silent rfl⟩
  · exact ⟨rfl, rfl, rfl, rfl, rfl, rfl, rfl, .inl rfl, silent rfl⟩
  · obtain ⟨k, ht⟩ := bulkNow_enqueue ht
    rw [ht]
    exact ⟨rfl, rfl, rfl, rfl, rfl, rfl, rfl, .inl rfl, silent rfl⟩
  · obtain ⟨k, ht⟩ := bulkNow_drain ht
    rw [ht]
    exact ⟨rfl, rfl, rfl, rfl, rfl, rfl, rfl, .inl rfl, silent rfl⟩
  · exact ⟨rfl, rfl, rfl, rfl, rfl, rfl, rfl, .inl rfl, silent rfl⟩
  · exact ⟨rfl, rfl, rfl, rfl, rfl, rfl, rfl, .inl rfl, silent rfl⟩

/-! ### Lone accesses (log 4) -/

/-- What an engine's lone access that gives a state can be. -/
theorem exec_access_cases {i : Instr} {s t : State} (hf : formatOf i ≠ .hcmd) (h : exec i s = .next t) :
    t = recvTransOp .ack s ∨ (∃ act, t = stopOp act s) ∨ (∃ a d, t = maddrWriteOp a d s) ∨
    (∃ b, t = mdataWriteOp b s) ∨ (∃ act, t = compTransOp act s) ∨ (∃ act p, responseOp act p s = .ok t) ∨
    (∃ b, t = sdataWriteOp b s) ∨ (∃ v, t = handBack v s) := by
  cases i with
  | mctrlbRecvtrans act => cases act <;> cases h; exact .inl rfl
  | mctrlbStop act => cases h; exact .inr (.inl ⟨act, rfl⟩)
  | maddrWrite a d => cases h; exact .inr (.inr (.inl ⟨a, d, rfl⟩))
  | mdataWrite b => cases h; exact .inr (.inr (.inr (.inl ⟨b, rfl⟩)))
  | sctrlbComptrans act => cases h; exact .inr (.inr (.inr (.inr (.inl ⟨act, rfl⟩))))
  | sctrlbResponse act p =>
    exact .inr (.inr (.inr (.inr (.inr (.inl ⟨act, p, finish_next.mp h⟩)))))
  | sdataWrite b => cases h; exact .inr (.inr (.inr (.inr (.inr (.inr (.inl ⟨b, rfl⟩))))))
  | mstatusRead => cases h; exact .inr (.inr (.inr (.inr (.inr (.inr (.inr ⟨_, rfl⟩))))))
  | mdataRead => cases h; exact .inr (.inr (.inr (.inr (.inr (.inr (.inr ⟨_, rfl⟩))))))
  | sstatusRead => cases h; exact .inr (.inr (.inr (.inr (.inr (.inr (.inr ⟨_, rfl⟩))))))
  | sdataRead => cases h; exact .inr (.inr (.inr (.inr (.inr (.inr (.inr ⟨_, rfl⟩))))))
  | _ => exact absurd rfl hf

/-- With a lone access waiting, a step issues it on the state without it (log 4). -/
theorem step_of_lone {s : State} {f : Format} {w : Word} (hf : s.faulted = none) (hp : s.probe = some (f, w)) :
    step s = recorded (clearProbe s) (issue f w (clearProbe s)) := by
  simp only [step, blockStep, hf, hp]

/-- A step that runs a lone access leaves the access's next state or a mark. -/
theorem step_lone_cases {s t : State} {x : Format × Word} (hp : s.probe = some x) (h : step s = .next t) :
    (∃ r, t = markRefused r (clearProbe s)) ∨ (∃ f, t = markFault f (clearProbe s)) ∨
      ∃ i, exec i (clearProbe s) = .next t := by
  rw [step_of_lone (not_faulted_of_step h) hp] at h
  rcases recorded_cases h with ho | ⟨r, -, ht⟩ | ⟨f, -, ht⟩
  · unfold issue at ho
    split at ho
    · cases ho
    · exact .inr (.inr ⟨_, ho⟩)
  · exact .inl ⟨r, ht⟩
  · exact .inr (.inl ⟨f, ht⟩)

end Sys2Proof
end

