-- ==== Sys2Proof/Proofs/RingInvariants.lean ====
section
/-! Every step keeps the rings in range (R107) and every storage space canonical. -/

namespace Sys2Proof

open Sys2Proof.Machine

/-! ### Rings in range (R107) -/

theorem ringBounded_iff {c : Nat} {r : Ring} : r.bounded c = true ↔ r.head < c ∧ r.length ≤ c :=
  decide_eq_true_iff

theorem ringsInRange_iff {s : State} :
    ringsInRange s = true ↔ s.cfg.valid = true ∧ (s.tx.head < s.cfg.capacity ∧ s.tx.length ≤ s.cfg.capacity) ∧
      (s.rx.head < s.cfg.capacity ∧ s.rx.length ≤ s.cfg.capacity) ∧
      ∀ x, s.bulk = some x → x.bounded s.cfg.capacity = true := by
  unfold ringsInRange
  cases s.bulk <;> simp [ringBounded_iff, and_assoc]

theorem bulkBounded_iff {c : Nat} {x : Bulk} :
    x.bounded c = true ↔ x.pos.bounded c = true ∧ x.n ≤ c ∧ x.k ≤ x.n ∧ (x.pos = .done ∨ x.k < x.n) := by
  simp [Bulk.bounded]

/-- The rings and the harness's values of `t` in range at the capacity they were in range at. -/
theorem ringsInRange_of_eq {s t : State} (h : ringsInRange s = true) (cfg : t.cfg = s.cfg)
    (tx : t.tx.head < s.cfg.capacity ∧ t.tx.length ≤ s.cfg.capacity)
    (rx : t.rx.head < s.cfg.capacity ∧ t.rx.length ≤ s.cfg.capacity)
    (bulk : ∀ x, t.bulk = some x → x.bounded s.cfg.capacity = true) : ringsInRange t = true := by
  obtain ⟨valid, -⟩ := ringsInRange_iff.mp h
  refine ringsInRange_iff.mpr ?_
  rw [cfg]
  exact ⟨valid, tx, rx, bulk⟩

/-- The loop's first micro-step is in range. -/
theorem bulkLater_bounded {c m : Nat} {pos : Micro} (hm : m ≤ c) (hpos : pos.bounded c = true) :
    Bulk.bounded c { n := m, k := 0, pos := firstMicro m pos } = true := by
  refine bulkBounded_iff.mpr ⟨?_, hm, Nat.zero_le m, ?_⟩
  · unfold firstMicro
    split
    · rfl
    · exact hpos
  · by_cases h0 : m = 0
    · exact .inl (if_pos h0)
    · exact .inr (Nat.pos_of_ne_zero h0)

/-- The loop's next iteration is in range. -/
theorem nextByte_bounded {c n k : Nat} {pos : Micro} (hpos : pos.bounded c = true) (hn : n ≤ c) (hk : k < n) :
    Bulk.bounded c { n := n, k := k + 1, pos := if k + 1 < n then pos else .done } = true := by
  refine bulkBounded_iff.mpr ⟨?_, hn, hk, ?_⟩
  · split
    · exact hpos
    · rfl
  · by_cases h : k + 1 < n
    · exact .inr h
    · exact .inl (if_neg h)

theorem command_keeps_ringsInRange {i : Instr} {s t : State} (hf : formatOf i = .hcmd) (h : exec i s = .next t)
    (hs : ringsInRange s = true) : ringsInRange t = true := by
  obtain ⟨-, tx, rx, bulk⟩ := ringsInRange_iff.mp hs
  rcases exec_command_cases hf h with ⟨-, m, rfl⟩ | ⟨a, d, n, -, -, rfl⟩ | ⟨a, rfl⟩ | ⟨a, rfl⟩ | ⟨m, -, ht⟩ |
    ⟨m, -, ht⟩ | ⟨m, hm, -, ht⟩
  · exact ringsInRange_of_eq hs rfl tx rx bulk
  · exact ringsInRange_of_eq hs rfl tx rx bulk
  · exact ringsInRange_of_eq hs rfl tx rx bulk
  · exact ringsInRange_of_eq hs rfl tx rx bulk
  · have tx' := bulkNow_enqueue_keeps (P := fun c r => r.head < c ∧ r.length ≤ c)
      (fun _ _ _ _ => Ring.bounded_write) ht tx
    obtain ⟨k, ht⟩ := bulkNow_enqueue ht
    rw [ht]
    exact ringsInRange_of_eq hs rfl tx' rx bulk
  · obtain ⟨rx', -⟩ := bulkNow_drain_keeps (P := fun c r => r.head < c ∧ r.length ≤ c) (Q := fun _ => True)
      (fun _ _ _ _ => Ring.bounded_read) (fun _ _ _ _ => trivial) ht rx trivial
    obtain ⟨k, ht⟩ := bulkNow_drain ht
    rw [ht]
    exact ringsInRange_of_eq hs rfl tx rx' bulk
  · rcases ht with rfl | rfl
    · exact ringsInRange_of_eq hs rfl tx rx fun x hx => Option.some.inj hx ▸ bulkLater_bounded hm rfl
    · exact ringsInRange_of_eq hs rfl tx rx fun x hx => Option.some.inj hx ▸ bulkLater_bounded hm rfl

theorem microStep_keeps_ringsInRange {x : Bulk} {s t : State} (hx : s.bulk = some x) (h : microStep x s = .ok t)
    (hs : ringsInRange s = true) : ringsInRange t = true := by
  obtain ⟨-, tx, rx, bulk⟩ := ringsInRange_iff.mp hs
  obtain ⟨hpos, hn, hkn, hk⟩ := bulkBounded_iff.mp (bulk x hx)
  obtain ⟨n, k, pos⟩ := x
  have go_on {p : Micro} (hp : p.bounded s.cfg.capacity = true) (hk : p = .done ∨ k < n) (y : Bulk)
      (hy : some ⟨n, k, p⟩ = some y) : y.bounded s.cfg.capacity = true :=
    Option.some.inj hy ▸ bulkBounded_iff.mpr ⟨hp, hn, hkn, hk⟩
  have next {p : Micro} (hp : p.bounded s.cfg.capacity = true) (hk : k < n) (y : Bulk)
      (hy : some ⟨n, k + 1, if k + 1 < n then p else .done⟩ = some y) : y.bounded s.cfg.capacity = true :=
    Option.some.inj hy ▸ nextByte_bounded hp hn hk
  cases pos with
  | w1 =>
    simp only [microStep] at h
    split at h
    · obtain rfl := Except.ok.inj h
      exact ringsInRange_of_eq hs rfl tx rx (go_on rfl (.inl rfl))
    · obtain rfl := Except.ok.inj h
      exact ringsInRange_of_eq hs rfl tx rx (go_on (decide_eq_true (by omega)) (by simpa using hk))
  | w2 l =>
    obtain rfl := Except.ok.inj h
    exact ringsInRange_of_eq hs rfl tx rx (go_on (decide_eq_true ⟨of_decide_eq_true hpos, tx.1⟩) (by simpa using hk))
  | w3 l hd =>
    simp only [microStep] at h
    split at h
    · cases h
    · obtain rfl := Except.ok.inj h
      have hl : l < s.cfg.capacity ∧ hd < s.cfg.capacity := of_decide_eq_true hpos
      exact ringsInRange_of_eq hs rfl tx rx (go_on (decide_eq_true hl.1) (by simpa using hk))
  | w4 l =>
    obtain rfl := Except.ok.inj h
    have hl : l < s.cfg.capacity := of_decide_eq_true hpos
    exact ringsInRange_of_eq hs rfl ⟨tx.1, hl⟩ rx (next rfl (by simpa using hk))
  | r1 =>
    simp only [microStep] at h
    split at h
    · obtain rfl := Except.ok.inj h
      exact ringsInRange_of_eq hs rfl tx rx (go_on rfl (.inl rfl))
    · obtain rfl := Except.ok.inj h
      exact ringsInRange_of_eq hs rfl tx rx (go_on (decide_eq_true (by omega)) (by simpa using hk))
  | r2 l =>
    obtain rfl := Except.ok.inj h
    have hl : 0 < l ∧ l ≤ s.cfg.capacity := of_decide_eq_true hpos
    exact ringsInRange_of_eq hs rfl tx rx (go_on (decide_eq_true ⟨hl.1, hl.2, rx.1⟩) (by simpa using hk))
  | r3 l hd =>
    obtain rfl := Except.ok.inj h
    exact ringsInRange_of_eq hs rfl tx rx (go_on hpos (by simpa using hk))
  | r4 l hd b =>
    obtain rfl := Except.ok.inj h
    have hl : 0 < l ∧ l ≤ s.cfg.capacity ∧ hd < s.cfg.capacity := of_decide_eq_true hpos
    exact ringsInRange_of_eq hs rfl tx ⟨Nat.mod_lt _ (by omega), rx.2⟩
      (go_on (decide_eq_true ⟨hl.1, hl.2.1⟩) (by simpa using hk))
  | r5 l b =>
    obtain rfl := Except.ok.inj h
    have hl : 0 < l ∧ l ≤ s.cfg.capacity := of_decide_eq_true hpos
    exact ringsInRange_of_eq hs rfl tx ⟨rx.1, (Nat.sub_le l 1).trans hl.2⟩ (next rfl (by simpa using hk))
  | done =>
    obtain rfl := Except.ok.inj h
    exact ringsInRange_of_eq hs rfl tx rx (fun y hy => nomatch hy)

theorem slaveIsr_keeps_ringsInRange {s t : State} (h : slaveIsr s = .ok t) (hs : ringsInRange s = true) :
    ringsInRange t = true := by
  obtain ⟨-, tx, rx, bulk⟩ := ringsInRange_iff.mp hs
  obtain ⟨htx, hrx⟩ := slaveIsr_rings h
  have tx' : t.tx.head < s.cfg.capacity ∧ t.tx.length ≤ s.cfg.capacity := by
    rcases htx with same | ⟨b, hr⟩
    · rwa [same]
    · exact Ring.bounded_read tx hr
  have rx' : t.rx.head < s.cfg.capacity ∧ t.rx.length ≤ s.cfg.capacity := by
    rcases hrx with same | hw
    · rwa [same]
    · exact Ring.bounded_write rx hw
  rw [slaveIsr_frame h]
  exact ringsInRange_of_eq hs rfl tx' rx' bulk

/-- Settles O51: only the bulk commands, the harness and the handler touch a ring, each by RB_READ, RB_WRITE or the
micro-steps of one. -/
theorem stepKeepsRingsInRange : Obligations.StepKeepsRingsInRange := by
  intro s t hp hs h
  refine step_keeps (I := fun s => ringsInRange s = true) (fun _ _ hs => hs) (fun _ hs => hs) (fun _ _ hs => hs)
    (fun _ _ hs => hs) (fun _ _ hs => hs) (fun _ _ hs => hs) (fun _ _ _ hs _ => hs)
    (fun s t i w hs _ hd he => command_keeps_ringsInRange (decodeHcmd_format hd) he hs)
    (fun s t x hs hx hm => microStep_keeps_ringsInRange hx hm hs) (fun s t hs _ hm => ?_)
    (fun s t hs _ hi => slaveIsr_keeps_ringsInRange hi hs) (fun s t a hs ha => ?_) (fun s t e hs he => ?_)
    hs (of_decide_eq_true hp) h
  · rw [masterStep_frame hm]
    exact hs
  · rw [(busAnswer_cases ha).2, applyAnswer_frame]
    exact hs
  · rw [(busEvent_cases he).2.2, applyEvent_frame]
    exact hs

/-! ### Canonical storage -/

theorem storageCanonical_iff {s : State} :
    storageCanonical s = true ↔ Memory.wf hbufBlank s.hbuf = true ∧ Memory.wf ringBlank s.tx.store = true ∧
      Memory.wf ringBlank s.rx.store = true := by
  simp [storageCanonical, and_assoc]

/-- A read leaves a ring's store. -/
theorem wf_ringRead {c : Nat} {r q : Ring} {b : Byte} (h : Memory.wf ringBlank r.store = true)
    (hr : r.read c = .ok (b, q)) : Memory.wf ringBlank q.store = true := by
  obtain ⟨-, -, rfl⟩ := Ring.read_ok.mp hr
  exact h

theorem command_keeps_storageCanonical {i : Instr} {s t : State} (hf : formatOf i = .hcmd) (h : exec i s = .next t)
    (hs : storageCanonical s = true) : storageCanonical t = true := by
  obtain ⟨hbuf, tx, rx⟩ := storageCanonical_iff.mp hs
  rcases exec_command_cases hf h with ⟨-, m, rfl⟩ | ⟨a, d, n, -, -, rfl⟩ | ⟨a, rfl⟩ | ⟨a, rfl⟩ | ⟨m, -, ht⟩ |
    ⟨m, -, ht⟩ | ⟨m, -, -, rfl | rfl⟩
  · exact hs
  · exact hs
  · exact hs
  · exact hs
  · have tx' := bulkNow_enqueue_keeps (P := fun _ r => Memory.wf ringBlank r.store = true)
      (fun _ _ _ _ => Ring.wf_write) ht tx
    obtain ⟨k, ht⟩ := bulkNow_enqueue ht
    rw [ht]
    exact storageCanonical_iff.mpr ⟨hbuf, tx', rx⟩
  · obtain ⟨rx', hbuf'⟩ := bulkNow_drain_keeps (P := fun _ r => Memory.wf ringBlank r.store = true)
      (Q := fun m => Memory.wf hbufBlank m = true) (fun _ _ _ _ => wf_ringRead) (fun _ a b => Memory.wf_write a b) ht rx hbuf
    obtain ⟨k, ht⟩ := bulkNow_drain ht
    rw [ht]
    exact storageCanonical_iff.mpr ⟨hbuf', tx, rx'⟩
  · exact hs
  · exact hs

/-- Only w3 and r5 write storage, one cell each (R108). -/
theorem microStep_keeps_storageCanonical {x : Bulk} {s t : State} (h : microStep x s = .ok t)
    (hs : storageCanonical s = true) : storageCanonical t = true := by
  obtain ⟨hbuf, tx, rx⟩ := storageCanonical_iff.mp hs
  obtain ⟨n, k, pos⟩ := x
  cases pos with
  | w1 => simp only [microStep] at h; split at h <;> cases h <;> exact hs
  | w3 l hd =>
    simp only [microStep] at h
    split at h
    · cases h
    · cases h
      exact storageCanonical_iff.mpr ⟨hbuf, Memory.wf_write _ _ tx, rx⟩
  | r1 => simp only [microStep] at h; split at h <;> cases h <;> exact hs
  | r5 l b => cases h; exact storageCanonical_iff.mpr ⟨Memory.wf_write _ _ hbuf, tx, rx⟩
  | _ => cases h; exact hs

theorem masterMove_keeps_storageCanonical {x : Txn} {s t : State} (h : MasterMove s x t)
    (hs : storageCanonical s = true) : storageCanonical t = true := by
  obtain ⟨hbuf, tx, rx⟩ := storageCanonical_iff.mp hs
  cases h with
  | lost => exact hs
  | readLost =>
    have hbuf' := hbufUnspecified_wf x.n 0 s hbuf
    rw [hbufUnspecified_frame]
    exact storageCanonical_iff.mpr ⟨hbuf', tx, rx⟩
  | stopped => exact hs
  | sent => exact hs
  | awaited => exact hs
  | stored => exact storageCanonical_iff.mpr ⟨Memory.wf_write _ _ hbuf, tx, rx⟩
  | storedLast => exact storageCanonical_iff.mpr ⟨Memory.wf_write _ _ hbuf, tx, rx⟩

theorem slaveIsr_keeps_storageCanonical {s t : State} (h : slaveIsr s = .ok t) (hs : storageCanonical s = true) :
    storageCanonical t = true := by
  obtain ⟨hbuf, tx, rx⟩ := storageCanonical_iff.mp hs
  obtain ⟨htx, hrx⟩ := slaveIsr_rings h
  have tx' : Memory.wf ringBlank t.tx.store = true := by
    rcases htx with same | ⟨b, hr⟩
    · rwa [same]
    · exact wf_ringRead tx hr
  have rx' : Memory.wf ringBlank t.rx.store = true := by
    rcases hrx with same | hw
    · rwa [same]
    · exact Ring.wf_write rx hw
  rw [slaveIsr_frame h]
  exact storageCanonical_iff.mpr ⟨hbuf, tx', rx'⟩

/-- Settles O52: storage is written only by writes of one cell, which keep the canonical form. -/
theorem stepKeepsStorageCanonical : Obligations.StepKeepsStorageCanonical := by
  intro s t hp hs h
  refine step_keeps (I := fun s => storageCanonical s = true) (fun _ _ hs => hs) (fun _ hs => hs) (fun _ _ hs => hs)
    (fun _ _ hs => hs) (fun _ _ hs => hs) (fun _ _ hs => hs) (fun s i b hs _ => ?_)
    (fun s t i w hs _ hd he => command_keeps_storageCanonical (decodeHcmd_format hd) he hs)
    (fun s t x hs _ hm => microStep_keeps_storageCanonical hm hs) (fun s t hs _ hm => ?_)
    (fun s t hs _ hi => slaveIsr_keeps_storageCanonical hi hs) (fun s t a hs ha => ?_) (fun s t e hs he => ?_)
    hs (of_decide_eq_true hp) h
  · obtain ⟨hbuf, tx, rx⟩ := storageCanonical_iff.mp hs
    exact storageCanonical_iff.mpr ⟨Memory.wf_write i b hbuf, tx, rx⟩
  · obtain ⟨-, x, -, move⟩ := masterStep_move hm
    exact masterMove_keeps_storageCanonical move hs
  · rw [(busAnswer_cases ha).2, applyAnswer_frame]
    exact hs
  · rw [(busEvent_cases he).2.2, applyEvent_frame]
    exact hs

end Sys2Proof
end

