-- ==== Sys2Proof/Proofs/EngineInvariants.lean ====
section
/-! Every step keeps the Master Engine's invariant (R39, R142, R264) and the slave's (R181, R183). -/

namespace Sys2Proof

open Sys2Proof.Machine

/-! ### The Master Engine's invariant, inside and outside a transaction -/

theorem idleInvariant_iff {s : State} :
    idleInvariant s = true ↔
      (s.mstate = .idle → s.mreq = .none ∧ (busy s = true ↔ s.bulk ≠ none) ∧ s.txn = none) :=
  decide_eq_true_iff

theorem requestInvariant_iff {s : State} :
    requestInvariant s = true ↔
      (s.mreq ≠ .none → mActed s.mstatus = false ∧ mClkhold s.mstatus = false ∧ mLost s.mstatus = false) :=
  decide_eq_true_iff

theorem transactionInvariant_iff {s : State} :
    transactionInvariant s = true ↔
      (s.mstate ≠ .idle → busy s = true ∧ s.bulk = none ∧
        ∃ x, s.txn = some x ∧ x.n ≤ s.cfg.capacity ∧ ∀ i, s.mstate = .dataPhase i → i < x.n) := by
  unfold transactionInvariant
  cases s.mstate <;> cases s.txn <;> simp [and_assoc]

theorem masterInvariant_iff {s : State} :
    masterInvariant s = true ↔ idleInvariant s = true ∧ transactionInvariant s = true ∧ requestInvariant s = true := by
  simp [masterInvariant, and_assoc]

section

variable {s t : State} {x : Txn}

theorem masterInvariant_of_idle (hm : s.mstate = .idle) (hq : s.mreq = .none) (hx : s.txn = none)
    (hb : busy s = true ↔ s.bulk ≠ none) : masterInvariant s = true :=
  masterInvariant_iff.mpr ⟨idleInvariant_iff.mpr fun _ => ⟨hq, hb, hx⟩,
    transactionInvariant_iff.mpr fun not_idle => absurd hm not_idle, requestInvariant_iff.mpr fun h => absurd hq h⟩

theorem masterInvariant_of_transaction (hm : s.mstate ≠ .idle) (hbusy : busy s = true) (hb : s.bulk = none)
    (hx : s.txn = some x) (hn : x.n ≤ s.cfg.capacity) (hi : ∀ i, s.mstate = .dataPhase i → i < x.n)
    (hq : s.mreq ≠ .none → mActed s.mstatus = false ∧ mClkhold s.mstatus = false ∧ mLost s.mstatus = false) :
    masterInvariant s = true :=
  masterInvariant_iff.mpr ⟨idleInvariant_iff.mpr fun idle => absurd idle hm,
    transactionInvariant_iff.mpr fun _ => ⟨hbusy, hb, x, hx, hn, hi⟩, requestInvariant_iff.mpr hq⟩

/-- While not busy, the engine is Idle with nothing outstanding and no harness command. -/
theorem idle_of_not_busy (h : masterInvariant s = true) (hbusy : busy s = false) :
    s.mstate = .idle ∧ s.mreq = .none ∧ s.txn = none ∧ s.bulk = none := by
  obtain ⟨idle, transaction, -⟩ := masterInvariant_iff.mp h
  have hm : s.mstate = .idle := by
    by_contra not_idle
    obtain ⟨busy, -⟩ := transactionInvariant_iff.mp transaction not_idle
    simp [busy] at hbusy
  obtain ⟨hq, hb, hx⟩ := idleInvariant_iff.mp idle hm
  exact ⟨hm, hq, hx, by simpa [hbusy] using hb⟩

theorem mClkhold_clearAll (v : Byte) : mClkhold (mClearAll v) = false := by
  simp [mClkhold, mClearAll]

theorem mActed_clearTransfer (v : Byte) : mActed (mClearTransfer v) = false := by
  simp [mActed, mRif, mWif, mClearTransfer]

theorem mClkhold_clearTransfer (v : Byte) : mClkhold (mClearTransfer v) = false := by
  simp [mClkhold, mClearTransfer]

theorem command_keeps_masterInvariant {i : Instr} (hf : formatOf i = .hcmd) (hbusy : busy s = false)
    (h : exec i s = .next t) (hs : masterInvariant s = true) : masterInvariant t = true := by
  obtain ⟨hm, hq, hx, hb⟩ := idle_of_not_busy hs hbusy
  have retired {u : State} {r c : Byte} (hm : u.mstate = .idle) (hq : u.mreq = .none) (hx : u.txn = none)
      (hb : u.bulk = none) (hr : u.hres = hresRetired r c) : masterInvariant u = true :=
    masterInvariant_of_idle hm hq hx (by simp [busy, hr, hresBusy_retired, hb])
  rcases exec_command_cases hf h with ⟨-, m, rfl⟩ | ⟨a, d, n, hn, -, rfl⟩ | ⟨a, rfl⟩ | ⟨a, rfl⟩ | ⟨m, -, ht⟩ |
    ⟨m, -, ht⟩ | ⟨m, -, -, rfl | rfl⟩
  · exact retired hm hq hx hb rfl
  · exact masterInvariant_of_transaction (x := ⟨a, d, n⟩) (by simp) (busy_accept s) hb rfl hn (by simp)
      fun _ => ⟨mActed_clearAll _, mClkhold_clearAll _, mLost_clearAll _⟩
  · exact retired hm hq hx hb rfl
  · exact retired hm hq hx hb rfl
  · obtain ⟨k, ht⟩ := bulkNow_enqueue ht
    rw [ht]
    exact retired hm hq hx hb rfl
  · obtain ⟨k, ht⟩ := bulkNow_drain ht
    rw [ht]
    exact retired hm hq hx hb rfl
  · exact masterInvariant_of_idle hm hq hx (by simp [bulkLater])
  · exact masterInvariant_of_idle hm hq hx (by simp [bulkLater])

theorem microStep_keeps_masterInvariant {y : Bulk} (hy : s.bulk = some y) (h : microStep y s = .ok t)
    (hs : masterInvariant s = true) : masterInvariant t = true := by
  obtain ⟨idle, transaction, -⟩ := masterInvariant_iff.mp hs
  have hm : s.mstate = .idle := by
    by_contra not_idle
    obtain ⟨-, hb, -⟩ := transactionInvariant_iff.mp transaction not_idle
    simp [hb] at hy
  obtain ⟨hq, hb, hx⟩ := idleInvariant_iff.mp idle hm
  have hbusy : busy t = true ↔ t.bulk ≠ none := by
    rcases microStep_cases h with ⟨-, bulk, hres⟩ | ⟨-, rfl⟩
    · simp [busy, hres, bulk, (show hresBusy s.hres = true from hb.mpr (by simp [hy]))]
    · simp
  refine masterInvariant_of_idle ?_ ?_ ?_ hbusy <;> rw [microStep_frame h] <;> assumption

theorem masterStep_keeps_masterInvariant (hb : s.bulk = none) (h : masterStep s = some (.ok t))
    (hs : masterInvariant s = true) : masterInvariant t = true := by
  obtain ⟨not_idle, x, hx, move⟩ := masterStep_move h
  obtain ⟨-, transaction, request⟩ := masterInvariant_iff.mp hs
  obtain ⟨hbusy, -, y, hy, hn, hi⟩ := transactionInvariant_iff.mp transaction not_idle
  obtain rfl : y = x := Option.some.inj (hy.symm.trans hx)
  have request := requestInvariant_iff.mp request
  have answered (hl : mLost s.mstatus = true) : s.mreq = .none := by
    by_contra outstanding
    simp [(request outstanding).2.2] at hl
  have in_data {i : Nat} {u : State} (hu : u.mstate = .dataPhase i) (hi : i < y.n) (j : Nat)
      (hj : u.mstate = .dataPhase j) : j < y.n := by
    obtain rfl := MState.dataPhase.inj (hu.symm.trans hj)
    exact hi
  cases move with
  | lost hl => exact masterInvariant_of_idle rfl (answered hl) rfl (by simp [retireMaster, hb])
  | readLost hm hd hl =>
    rw [hbufUnspecified_frame]
    exact masterInvariant_of_idle rfl (answered hl) rfl (by simp [retireMaster, hb])
  | stopped r hr hl => exact masterInvariant_of_idle rfl rfl rfl (by simp [retireMaster, hb])
  | sent i b hl hi =>
    exact masterInvariant_of_transaction (by simp) hbusy hb hx hn (in_data rfl hi)
      fun _ => ⟨mActed_clearTransfer _, mClkhold_clearTransfer _, (mLost_clearTransfer _).trans hl⟩
  | awaited hn0 => exact masterInvariant_of_transaction (by simp) hbusy hb hx hn (in_data rfl hn0) request
  | stored hm hd hl hi =>
    exact masterInvariant_of_transaction (by simp) hbusy hb hx hn (in_data rfl hi)
      fun _ => ⟨mActed_clearTransfer _, mClkhold_clearTransfer _, (mLost_clearTransfer _).trans hl⟩
  | storedLast hm hd hl => exact masterInvariant_of_idle rfl rfl rfl (by simp [retireMaster, hb])

/-- An answer leaves no request outstanding. -/
theorem busAnswer_keeps_masterInvariant {a : Answer} (h : busAnswer a s = some t) (hs : masterInvariant s = true) :
    masterInvariant t = true := by
  obtain ⟨idle, transaction, -⟩ := masterInvariant_iff.mp hs
  rw [(busAnswer_cases h).2, applyAnswer_frame]
  refine masterInvariant_iff.mpr ⟨idleInvariant_iff.mpr fun hm => ?_, transactionInvariant_iff.mpr
    (transactionInvariant_iff.mp transaction), requestInvariant_iff.mpr fun hq => absurd rfl hq⟩
  obtain ⟨-, hb, hx⟩ := idleInvariant_iff.mp idle hm
  exact ⟨rfl, hb, hx⟩

end

/-- Settles O53: a command starts from Idle, a retirement returns there, and in between each request finds the flags it
waits for cleared. -/
theorem stepKeepsMasterInvariant : Obligations.StepKeepsMasterInvariant := by
  intro s t hp hs h
  refine step_keeps (I := fun s => masterInvariant s = true) (fun _ _ hs => hs) (fun _ hs => hs) (fun _ _ hs => hs)
    (fun _ _ hs => hs) (fun _ _ hs => hs) (fun _ _ hs => hs) (fun _ _ _ hs _ => hs)
    (fun s t i w hs hb hd he => command_keeps_masterInvariant (decodeHcmd_format hd) hb he hs)
    (fun s t x hs hx hm => microStep_keeps_masterInvariant hx hm hs)
    (fun s t hs hb hm => masterStep_keeps_masterInvariant hb hm hs) (fun s t hs _ hi => ?_)
    (fun s t a hs ha => busAnswer_keeps_masterInvariant ha hs) (fun s t e hs he => ?_) hs (of_decide_eq_true hp) h
  · rw [slaveIsr_frame hi]
    exact hs
  · rw [(busEvent_cases he).2.2, applyEvent_frame]
    exact hs

/-! ### The slave's invariant -/

section

variable {s t : State}

/-- A slave with no condition pending meets its invariant in any phase. -/
theorem slaveInvariant_of_none_pending (hd : sDif s.sstatus = false) (ha : sApif s.sstatus = false) :
    slaveInvariant s = true := by
  simp [slaveInvariant, hd, ha]

theorem slaveInvariant_of_data {d : Dir} (hd : sDif s.sstatus = true) (ha : sApif s.sstatus = false)
    (hdir : Dir.ofBool (sDir s.sstatus) = d) (hp : s.sphase = .active d) : slaveInvariant s = true := by
  simp [slaveInvariant, hd, ha, hdir, hp]

theorem slaveInvariant_of_match {d : Dir} (hd : sDif s.sstatus = false) (hap : sAp s.sstatus = true)
    (hcoll : sColl s.sstatus = false) (hdir : Dir.ofBool (sDir s.sstatus) = d) (hp : s.sphase = .addressed d) :
    slaveInvariant s = true := by
  simp [slaveInvariant, hd, hap, hcoll, hdir, hp]

theorem slaveInvariant_of_stop (hd : sDif s.sstatus = false) (hap : sAp s.sstatus = false) (hp : s.sphase = .idle) :
    slaveInvariant s = true := by
  simp [slaveInvariant, hd, hap, hp]

theorem slaveInvariant_congr (hv : t.sstatus = s.sstatus) (hp : t.sphase = s.sphase) :
    slaveInvariant t = slaveInvariant s := by
  simp only [slaveInvariant, hv, hp]

theorem dir_sAddrMatch (d : Dir) (v : Byte) : Dir.ofBool (sDir (sAddrMatch d v)) = d := by
  cases d <;> simp [sDir, sAddrMatch, sSetDir, Dir.ofBool]

theorem sApif_sData (d : Dir) (v : Byte) : sApif (sData d v) = sApif v := by
  cases d <;> simp [sApif, sData, sSetDir]

theorem sDif_sStop (v : Byte) : sDif (sStop v) = sDif v := by
  simp [sDif, sStop]

theorem sAp_sStop (v : Byte) : sAp (sStop v) = false := by
  simp [sAp, sStop]

theorem sDif_sCollision (v : Byte) : sDif (sCollision v) = sDif v := by
  simp [sDif, sCollision]

theorem sAp_sCollision (v : Byte) : sAp (sCollision v) = false := by
  simp [sAp, sCollision]

/-- An event finds no condition pending and leaves its own, with the phase that condition stands in (R181). -/
theorem busEvent_slaveInvariant {e : SlaveEvent} (h : busEvent e s = some t) : slaveInvariant t = true := by
  obtain ⟨allowed, guard, rfl⟩ := busEvent_cases h
  obtain ⟨-, hd, ha, -⟩ := eventAllowed_iff.mp allowed
  cases e with
  | addressByte a d =>
    exact slaveInvariant_of_match ((sDif_sAddrMatch d _).trans hd) (sAp_sAddrMatch d _) (sColl_sAddrMatch d _)
      (dir_sAddrMatch d _) rfl
  | stop => exact slaveInvariant_of_stop ((sDif_sStop _).trans hd) (sAp_sStop _) rfl
  | collision => exact slaveInvariant_of_stop ((sDif_sCollision _).trans hd) (sAp_sCollision _) rfl
  | dataRx b =>
    exact slaveInvariant_of_data (sDif_sData .w _) ((sApif_sData .w _).trans ha)
      (congrArg Dir.ofBool (sDir_sData_w _)) (of_decide_eq_true guard)
  | dataTxReq =>
    exact slaveInvariant_of_data (sDif_sData .r _) ((sApif_sData .r _).trans ha)
      (congrArg Dir.ofBool (sDir_sData_r _)) (of_decide_eq_true guard)

/-- The handler, taken on a pending condition, clears it. -/
theorem slaveIsr_slaveInvariant (hen : isrEnabled s = true) (h : slaveIsr s = .ok t) : slaveInvariant t = true := by
  obtain ⟨cleared, -⟩ := slaveIsr_writes (pending_of_isrEnabled hen) h
  exact slaveInvariant_of_none_pending (by simp [cleared, sDif, sClearPending])
    (by simp [cleared, sApif, sClearPending])

end

/-- Settles O54: only an event raises a condition, with none pending before it, and only the handler takes it away. -/
theorem stepKeepsSlaveInvariant : Obligations.StepKeepsSlaveInvariant := by
  intro s t hp hs h
  refine step_keeps (I := fun s => slaveInvariant s = true) (fun _ _ hs => hs) (fun _ hs => hs) (fun _ _ hs => hs)
    (fun _ _ hs => hs) (fun _ _ hs => hs) (fun _ _ hs => hs) (fun _ _ _ hs _ => hs) (fun s t i w hs _ hd he => ?_)
    (fun s t x hs _ hm => ?_) (fun s t hs _ hm => ?_) (fun s t _ hen hi => slaveIsr_slaveInvariant hen hi)
    (fun s t a hs ha => ?_) (fun s t e _ he => busEvent_slaveInvariant he) hs (of_decide_eq_true hp) h
  · have frame := command_frame (decodeHcmd_format hd) he
    exact (slaveInvariant_congr frame.sstatus frame.sphase).trans hs
  · rw [microStep_frame hm]
    exact hs
  · rw [masterStep_frame hm]
    exact hs
  · rw [(busAnswer_cases ha).2, applyAnswer_frame]
    exact hs

end Sys2Proof
end

