-- ==== Sys2Proof/Proofs/RegisterInvariants.lean ====
section
/-! Every step keeps the registers legal (R24, R28 to R37, R230), a lone access too; it leaves IMASK, the enables and the
parameters (R216, R184), and TRACE and the marks only grow (R45, R234, R235). -/

namespace Sys2Proof

open Sys2Proof.Machine

/-! ### HRES (R24, R230) -/

/-- HRES with its reserved bits 0, a status that reaches it, and no count beside an error. -/
structure HresLegal (h : Word) : Prop where
  reserved : h &&& 0x7FFF0000#32 = 0#32
  status : (hresStatus h).toNat ≤ 3
  count : hresStatus h ≠ 0#8 → hresCount h = 0#8

theorem hresStatus_accepted (h : Word) : hresStatus (hresAccepted h) = hresStatus h := by
  apply BitVec.eq_of_getLsbD_eq
  intro i hi
  interval_cases i <;> simp [hresStatus, hresAccepted]

theorem hresCount_accepted (h : Word) : hresCount (hresAccepted h) = hresCount h := by
  apply BitVec.eq_of_getLsbD_eq
  intro i hi
  interval_cases i <;> simp [hresCount, hresAccepted]

theorem hresStatus_retired (a b : Byte) : hresStatus (hresRetired a b) = a := by
  apply BitVec.eq_of_getLsbD_eq
  intro i hi
  rw [hresStatus, hresRetired, BitVec.getLsbD_extractLsb', BitVec.getLsbD_append, BitVec.getLsbD_append]
  interval_cases i <;> simp

theorem hresCount_retired (a b : Byte) : hresCount (hresRetired a b) = b := by
  apply BitVec.eq_of_getLsbD_eq
  intro i hi
  rw [hresCount, hresRetired, BitVec.getLsbD_extractLsb', BitVec.getLsbD_append, BitVec.getLsbD_append]
  interval_cases i <;> simp

theorem hresRetired_reserved (a b : Byte) : hresRetired a b &&& 0x7FFF0000#32 = 0#32 := by
  apply BitVec.eq_of_getLsbD_eq
  intro i hi
  rw [hresRetired, BitVec.getLsbD_and, BitVec.getLsbD_append, BitVec.getLsbD_append]
  interval_cases i <;> simp

theorem HresLegal.accepted {h : Word} (hl : HresLegal h) : HresLegal (hresAccepted h) where
  reserved := by rw [hresAccepted, BitVec.and_or_distrib_right, hl.reserved]; rfl
  status := by rw [hresStatus_accepted]; exact hl.status
  count := by rw [hresStatus_accepted, hresCount_accepted]; exact hl.count

/-- An error is retired with count 0 (R210). -/
theorem hresLegal_retired {r : OpResult} (hr : r.status.toNat ≤ 3) : HresLegal (hresRetired r.status r.count) where
  reserved := hresRetired_reserved _ _
  status := by rw [hresStatus_retired]; exact hr
  count := by
    rw [hresStatus_retired, hresCount_retired]
    cases r with
    | ok n => exact fun h => absurd rfl h
    | err e => exact fun _ => rfl

theorem hresLegal_retired_ok (b : Byte) : HresLegal (hresRetired 0#8 b) where
  reserved := hresRetired_reserved _ _
  status := by rw [hresStatus_retired]; exact Nat.zero_le 3
  count := by rw [hresStatus_retired]; exact fun h => absurd rfl h

/-! ### The registers -/

/-- The registers' reserved bits and codes. -/
structure RegistersLegal (s : State) : Prop where
  mctrla : s.mctrla &&& 0xF8#8 = 0#8 ∧ mMode s.mctrla ≠ 3#2
  mctrlb : s.mctrlb &&& 0xFB#8 = 0#8
  mstatus : s.mstatus &&& 0x03#8 = 0#8
  sctrla : s.sctrla &&& 0xF0#8 = 0#8
  sctrlb : s.sctrlb &&& 0xFB#8 = 0#8
  sstatus : s.sstatus &&& 0x14#8 = 0#8
  saddr : s.saddr &&& 0x01#8 = 0#8
  hres : HresLegal s.hres

theorem registersLegal_iff {s : State} : registersLegal s = true ↔ RegistersLegal s := by
  simp only [registersLegal, Bool.and_eq_true, decide_eq_true_eq]
  constructor
  · rintro ⟨⟨⟨⟨⟨⟨⟨⟨⟨⟨h1, h2⟩, h3⟩, h4⟩, h5⟩, h6⟩, h7⟩, h8⟩, h9⟩, h10⟩, h11⟩
    exact ⟨⟨h1, h2⟩, h3, h4, h5, h6, h7, h8, ⟨h9, h10, h11⟩⟩
  · rintro ⟨⟨h1, h2⟩, h3, h4, h5, h6, h7, h8, ⟨h9, h10, h11⟩⟩
    exact ⟨⟨⟨⟨⟨⟨⟨⟨⟨⟨h1, h2⟩, h3⟩, h4⟩, h5⟩, h6⟩, h7⟩, h8⟩, h9⟩, h10⟩, h11⟩

theorem commandReadBack_legal (act : AckAct) : commandReadBack act &&& 0xFB#8 = 0#8 := by
  cases act <;> rfl

theorem mctrlaOf_legal (m : BusMode) : mctrlaOf m &&& 0xF8#8 = 0#8 ∧ mMode (mctrlaOf m) ≠ 3#2 := by
  cases m <;> decide

theorem slaveAddressByte_legal : ∀ a : BitVec 7, slaveAddressByte a &&& 0x01#8 = 0#8 := by decide

/-- Flags set and cleared outside a register's reserved bits leave those 0. -/
theorem and_reserved_of_masks {v reserved set kept : Byte} (h : v &&& reserved = 0#8) (hs : set &&& reserved = 0#8) :
    ((v ||| set) &&& kept) &&& reserved = 0#8 := by
  rw [BitVec.and_assoc, BitVec.and_comm kept, ← BitVec.and_assoc, BitVec.and_or_distrib_right, h, hs]
  simp

theorem and_reserved_of_mask {v reserved kept : Byte} (h : v &&& reserved = 0#8) :
    (v &&& kept) &&& reserved = 0#8 := by
  simpa using and_reserved_of_masks (set := 0#8) (kept := kept) h (by simp)

theorem or_reserved {v reserved set : Byte} (h : v &&& reserved = 0#8) (hs : set &&& reserved = 0#8) :
    (v ||| set) &&& reserved = 0#8 := by
  simp [BitVec.and_or_distrib_right, h, hs]

section

variable {s t : State}

theorem command_keeps_registersLegal {i : Instr} (hf : formatOf i = .hcmd) (h : exec i s = .next t)
    (hs : RegistersLegal s) : RegistersLegal t := by
  have retired := hresLegal_retired (r := .ok 0) (by decide)
  rcases exec_command_cases hf h with ⟨-, m, rfl⟩ | ⟨a, d, n, -, -, rfl⟩ | ⟨a, rfl⟩ | ⟨a, rfl⟩ | ⟨m, -, ht⟩ |
    ⟨m, -, ht⟩ | ⟨m, -, -, rfl | rfl⟩
  · exact { hs with mctrla := mctrlaOf_legal m, mctrlb := by simp, mstatus := by simp, hres := retired }
  · exact { hs with mstatus := and_reserved_of_mask hs.mstatus, hres := hs.hres.accepted }
  · exact { hs with saddr := slaveAddressByte_legal a, sctrla := by simp [sctrlaInit], hres := retired }
  · exact { hs with saddr := slaveAddressByte_legal a, hres := retired }
  · obtain ⟨k, ht⟩ := bulkNow_enqueue ht
    rw [ht]
    exact { hs with hres := hresLegal_retired_ok _ }
  · obtain ⟨k, ht⟩ := bulkNow_drain ht
    rw [ht]
    exact { hs with hres := hresLegal_retired_ok _ }
  · exact { hs with hres := hs.hres.accepted }
  · exact { hs with hres := hs.hres.accepted }

theorem microStep_keeps_registersLegal {x : Bulk} (h : microStep x s = .ok t) (hs : RegistersLegal s) :
    RegistersLegal t := by
  have hres : HresLegal t.hres := by
    rcases microStep_cases h with ⟨-, -, same⟩ | ⟨-, rfl⟩
    · rw [same]
      exact hs.hres
    · exact hresLegal_retired_ok _
  rw [microStep_frame h]
  exact { hs with hres := hres }

theorem masterMove_keeps_registersLegal {x : Txn} (h : MasterMove s x t) (hs : RegistersLegal s) :
    RegistersLegal t := by
  have cleared : mClearTransfer s.mstatus &&& 0x03#8 = 0#8 := and_reserved_of_mask hs.mstatus
  cases h with
  | lost => exact { hs with hres := hresLegal_retired (r := .err .busy) (by decide) }
  | readLost =>
    rw [hbufUnspecified_frame]
    exact { hs with hres := hresLegal_retired (r := .err .ioError) (by decide) }
  | stopped r hr =>
    exact { hs with mctrlb := commandReadBack_legal .nack, mstatus := cleared, hres := hresLegal_retired hr }
  | sent => exact { hs with mstatus := cleared }
  | awaited => exact { hs with }
  | stored => exact { hs with mctrlb := commandReadBack_legal .ack, mstatus := cleared }
  | storedLast =>
    exact { hs with mctrlb := commandReadBack_legal .nack, mstatus := cleared, hres := hresLegal_retired_ok _ }

theorem responseOp_keeps_registersLegal {act : AckAct} {p : Option Byte} (h : responseOp act p s = .ok t)
    (hs : RegistersLegal s) : RegistersLegal t := by
  obtain ⟨q, -, rfl⟩ := responseOp_ok.mp h
  exact { hs with sctrlb := commandReadBack_legal act, sstatus := and_reserved_of_mask hs.sstatus }

theorem compTransOp_keeps_registersLegal (act : AckAct) (hs : RegistersLegal s) :
    RegistersLegal (compTransOp act s) :=
  { hs with sctrlb := commandReadBack_legal act, sstatus := and_reserved_of_mask hs.sstatus }

theorem slaveIsr_keeps_registersLegal (h : slaveIsr s = .ok t) (hs : RegistersLegal s) : RegistersLegal t := by
  rcases slaveIsr_cases h with ⟨-, -, h⟩ | ⟨-, -, h⟩ | ⟨-, -, -, -, h⟩ | ⟨-, -, -, rfl⟩ | ⟨-, -, rfl⟩
  · rcases slaveTransmit_cases h with ⟨b, q, -, h⟩ | ⟨-, h⟩
    · exact responseOp_keeps_registersLegal h { hs with }
    · exact responseOp_keeps_registersLegal h hs
  · rcases slaveReceive_cases h with ⟨q, -, h⟩ | ⟨-, h⟩
    · exact responseOp_keeps_registersLegal h { hs with }
    · exact responseOp_keeps_registersLegal h hs
  · exact responseOp_keeps_registersLegal h hs
  · exact compTransOp_keeps_registersLegal .nack hs
  · exact hs

theorem mSetRxack_legal (x : Bool) {v : Byte} (h : v &&& 0x03#8 = 0#8) : mSetRxack x v &&& 0x03#8 = 0#8 := by
  cases x with
  | false => exact and_reserved_of_mask h
  | true => exact or_reserved h rfl

theorem applyAnswer_keeps_registersLegal (a : Answer) (hs : RegistersLegal s) : RegistersLegal (applyAnswer a s) := by
  have set (k : Byte) (hk : k &&& 0x03#8 = 0#8) : (s.mstatus ||| k) &&& 0x03#8 = 0#8 := or_reserved hs.mstatus hk
  cases a with
  | ackW => exact { hs with mstatus := mSetRxack_legal false (set 0x40#8 rfl) }
  | ack => exact { hs with mstatus := mSetRxack_legal false (set 0x40#8 rfl) }
  | nack => exact { hs with mstatus := mSetRxack_legal true (set 0x40#8 rfl) }
  | ackR b => exact { hs with mstatus := mSetRxack_legal false (set 0xA0#8 rfl) }
  | byte b => exact { hs with mstatus := set 0xA0#8 rfl }
  | lostArb x => exact { hs with mstatus := mSetRxack_legal x (set 0x48#8 rfl) }
  | lostBus x => exact { hs with mstatus := mSetRxack_legal x (set 0x44#8 rfl) }

theorem sSetDir_legal (d : Dir) {v : Byte} (h : v &&& 0x14#8 = 0#8) : sSetDir d v &&& 0x14#8 = 0#8 := by
  cases d with
  | w => exact and_reserved_of_mask h
  | r => exact or_reserved h rfl

theorem applyEvent_keeps_registersLegal (e : SlaveEvent) (hs : RegistersLegal s) :
    RegistersLegal (applyEvent e s) := by
  cases e with
  | addressByte a d =>
    exact { hs with sstatus := sSetDir_legal d (and_reserved_of_masks (set := 0x61#8) hs.sstatus rfl) }
  | stop => exact { hs with sstatus := and_reserved_of_masks (set := 0x40#8) hs.sstatus rfl }
  | collision => exact { hs with sstatus := and_reserved_of_masks (set := 0x48#8) hs.sstatus rfl }
  | dataRx b => exact { hs with sstatus := sSetDir_legal .w (or_reserved (set := 0xA0#8) hs.sstatus rfl) }
  | dataTxReq => exact { hs with sstatus := sSetDir_legal .r (or_reserved (set := 0xA0#8) hs.sstatus rfl) }

theorem access_keeps_registersLegal {i : Instr} (hf : formatOf i ≠ .hcmd) (h : exec i s = .next t)
    (hs : RegistersLegal s) : RegistersLegal t := by
  have cleared : mClearTransfer s.mstatus &&& 0x03#8 = 0#8 := and_reserved_of_mask hs.mstatus
  rcases exec_access_cases hf h with rfl | ⟨act, rfl⟩ | ⟨a, d, rfl⟩ | ⟨b, rfl⟩ | ⟨act, rfl⟩ | ⟨act, p, ht⟩ |
    ⟨b, rfl⟩ | ⟨v, rfl⟩
  · exact { hs with mctrlb := commandReadBack_legal .ack, mstatus := cleared }
  · exact { hs with mctrlb := commandReadBack_legal act, mstatus := cleared }
  · exact { hs with mstatus := and_reserved_of_mask hs.mstatus }
  · exact { hs with mstatus := cleared }
  · exact compTransOp_keeps_registersLegal act hs
  · exact responseOp_keeps_registersLegal ht hs
  · exact { hs with }
  · exact { hs with }

theorem exec_keeps_registersLegal {i : Instr} (h : exec i s = .next t) (hs : RegistersLegal s) :
    RegistersLegal t := by
  by_cases hf : formatOf i = .hcmd
  · exact command_keeps_registersLegal hf h hs
  · exact access_keeps_registersLegal hf h hs

end

/-- Settles O55: every write of a register is of a legal value, or sets and clears flags outside the reserved bits. -/
theorem stepKeepsRegistersLegal : Obligations.StepKeepsRegistersLegal := by
  intro s t hs h
  rw [registersLegal_iff] at hs ⊢
  cases hp : s.probe with
  | some x =>
    rcases step_lone_cases hp h with ⟨r, rfl⟩ | ⟨f, rfl⟩ | ⟨i, he⟩
    · exact { hs with }
    · exact { hs with }
    · exact exec_keeps_registersLegal he { hs with }
  | none =>
    refine step_keeps (fun _ _ hs => { hs with }) (fun _ hs => { hs with }) (fun _ _ hs => { hs with })
      (fun _ _ hs => { hs with }) (fun _ _ hs => { hs with }) (fun _ _ hs => { hs with })
      (fun _ _ _ hs _ => { hs with }) (fun s t i w hs _ _ he => exec_keeps_registersLegal he hs)
      (fun s t x hs _ hm => microStep_keeps_registersLegal hm hs) (fun s t hs _ hm => ?_)
      (fun s t hs _ hi => slaveIsr_keeps_registersLegal hi hs) (fun s t a hs ha => ?_) (fun s t e hs he => ?_) hs hp h
    · obtain ⟨-, x, -, move⟩ := masterStep_move hm
      exact masterMove_keeps_registersLegal move hs
    · rw [(busAnswer_cases ha).2]
      exact applyAnswer_keeps_registersLegal a { hs with }
    · rw [(busEvent_cases he).2.2]
      exact applyEvent_keeps_registersLegal e hs

/-! ### IMASK, the enables, the parameters -/

/-- `t` is unmasked, with the slave's enables together, no lone access and the parameters of `s`. -/
structure KeepsSettings (s t : State) : Prop where
  probe : t.probe = none
  imask : t.imask = false
  enables : t.sctrla = 0x00#8 ∨ t.sctrla = 0x0F#8
  cfg : t.cfg = s.cfg

/-- Settles O56: IMASK is restored within the step that sets it, and INITS writes all four enables. -/
theorem stepKeepsMaskEnablesAndParameters : Obligations.StepKeepsMaskEnablesAndParameters := by
  intro s t hp hmask hen h
  have hp : s.probe = none := of_decide_eq_true hp
  have settings : KeepsSettings s t := by
    refine step_keeps (I := KeepsSettings s) (fun _ _ hs => { hs with }) (fun _ hs => { hs with })
      (fun _ _ hs => { hs with }) (fun _ _ hs => { hs with }) (fun _ _ hs => { hs with }) (fun _ _ hs => { hs with })
      (fun _ _ _ hs _ => { hs with }) (fun u v i w hu _ hd he => ?_) (fun u v x hu _ hm => ?_)
      (fun u v hu _ hm => ?_) (fun u v hu _ hi => ?_) (fun u v a hu ha => ?_) (fun u v e hu he => ?_)
      ⟨hp, by simpa [unmasked] using hmask, of_decide_eq_true hen, rfl⟩ hp h
    · have frame := command_frame (decodeHcmd_format hd) he
      exact ⟨frame.probe.trans hu.probe, frame.imask.trans hu.imask,
        frame.sctrla.elim (fun same => same ▸ hu.enables) .inr, frame.cfg.trans hu.cfg⟩
    · rw [microStep_frame hm]
      exact { hu with }
    · rw [masterStep_frame hm]
      exact { hu with }
    · rw [slaveIsr_frame hi]
      exact { hu with }
    · rw [(busAnswer_cases ha).2, applyAnswer_frame]
      exact { hu with }
    · rw [(busEvent_cases he).2.2, applyEvent_frame]
      exact { hu with }
  exact ⟨decide_eq_true settings.probe, by simp [unmasked, settings.imask], decide_eq_true settings.enables,
    settings.cfg⟩

/-! ### TRACE and the marks -/

/-- TRACE of `t` extends that of `s`, and a refusal recorded in `s` is still the one recorded in `t`. -/
structure Extends (s t : State) : Prop where
  trace : ∃ l, t.trace = s.trace ++ l
  refused : ∀ r, s.refused = some r → t.refused = some r

section

variable {s t u : State}

theorem Extends.trans (h : Extends s t) (h' : Extends t u) : Extends s u := by
  obtain ⟨l, hl⟩ := h.trace
  obtain ⟨l', hl'⟩ := h'.trace
  exact ⟨⟨l ++ l', by rw [hl', hl, List.append_assoc]⟩, fun r hr => h'.refused r (h.refused r hr)⟩

/-- A move that appends `l` to TRACE and records nothing. -/
theorem Extends.of_append (l : List BusAction) (ht : t.trace = s.trace ++ l) (hr : t.refused = s.refused) :
    Extends s t :=
  ⟨⟨l, ht⟩, fun _ h => hr.trans h⟩

/-- A move that emits nothing and records nothing. -/
theorem Extends.of_eq (ht : t.trace = s.trace) (hr : t.refused = s.refused) : Extends s t :=
  .of_append [] (ht.trans (List.append_nil _).symm) hr

/-- The first reason stays (R234). -/
theorem extends_markRefused (r : Refusal) (s : State) : Extends s (markRefused r s) :=
  ⟨⟨[], (List.append_nil _).symm⟩, fun q hq => by simp [markRefused, hq]⟩

theorem MasterMove.extends {x : Txn} (h : MasterMove s x t) : Extends s t := by
  cases h with
  | readLost =>
    rw [hbufUnspecified_frame]
    exact .of_eq rfl rfl
  | lost => exact .of_eq rfl rfl
  | awaited => exact .of_eq rfl rfl
  | stopped => exact .of_append [.mStop .nack] rfl rfl
  | sent i b => exact .of_append [.mTx b] rfl rfl
  | stored => exact .of_append [.mRecvNext .ack] rfl rfl
  | storedLast => exact .of_append [.mStop .nack] rfl rfl

theorem exec_extends {i : Instr} (h : exec i s = .next t) : Extends s t := by
  by_cases hf : formatOf i = .hcmd
  · have frame := command_frame hf h
    exact ⟨frame.trace, fun _ hr => frame.refused.trans hr⟩
  · rcases exec_access_cases hf h with rfl | ⟨act, rfl⟩ | ⟨a, d, rfl⟩ | ⟨b, rfl⟩ | ⟨act, rfl⟩ | ⟨act, p, ht⟩ |
      ⟨b, rfl⟩ | ⟨v, rfl⟩
    · exact .of_append [.mRecvNext .ack] rfl rfl
    · exact .of_append [.mStop act] rfl rfl
    · exact .of_append [.mStart a d] rfl rfl
    · exact .of_append [.mTx b] rfl rfl
    · exact .of_append [.sComplete act] rfl rfl
    · obtain ⟨q, -, rfl⟩ := responseOp_ok.mp ht
      exact .of_append [.sResponse act p] rfl rfl
    · exact .of_eq rfl rfl
    · exact .of_eq rfl rfl

/-- With no lone access waiting, every agent's move extends the state it is taken on. -/
theorem step_extends (hp : s.probe = none) (h : step s = .next t) : Extends s t := by
  refine step_keeps (I := Extends s) (fun _ _ hs => { hs with }) (fun _ hs => { hs with })
    (fun u r hs => hs.trans (extends_markRefused r u)) (fun _ _ hs => { hs with }) (fun _ _ hs => { hs with })
    (fun _ _ hs => { hs with }) (fun _ _ _ hs _ => { hs with }) (fun u v i w hs _ _ he => hs.trans (exec_extends he))
    (fun u v x hs _ hm => hs.trans ?_) (fun u v hs _ hm => hs.trans ?_) (fun u v hs _ hi => hs.trans ?_)
    (fun u v a hs ha => hs.trans ?_) (fun u v e hs he => hs.trans ?_) (.of_eq rfl rfl) hp h
  · rw [microStep_frame hm]
    exact .of_eq rfl rfl
  · obtain ⟨-, x, -, move⟩ := masterStep_move hm
    exact move.extends
  · obtain ⟨l, hl⟩ := slaveIsr_trace hi
    exact .of_append l hl (by rw [slaveIsr_frame hi])
  · rw [(busAnswer_cases ha).2, applyAnswer_frame]
    exact .of_eq rfl rfl
  · rw [(busEvent_cases he).2.2, applyEvent_frame]
    exact .of_eq rfl rfl

end

/-- Settles O57: every move extends TRACE and keeps the first reason, a lone access too. -/
theorem traceAndMarksOnlyGrow : Obligations.TraceAndMarksOnlyGrow := by
  intro s t h
  have grown : Extends s t := by
    cases hp : s.probe with
    | none => exact step_extends hp h
    | some x =>
      have cleared : Extends s (clearProbe s) := .of_eq rfl rfl
      rcases step_lone_cases hp h with ⟨r, rfl⟩ | ⟨f, rfl⟩ | ⟨i, he⟩
      · exact cleared.trans (extends_markRefused r _)
      · exact .of_eq rfl rfl
      · exact cleared.trans (exec_extends he)
  exact ⟨grown.trace, grown.refused, not_faulted_of_step h⟩

end Sys2Proof
end

