-- ==== Sys2Proof/Proofs/Turns.lean ====
section
/-! What a step is for each outcome of its turn (R46, R69, R234 to R236), and the host's window, offset by offset (R21,
R64). -/

namespace Sys2Proof

open Sys2Proof.Machine

/-! ### Steps -/

section

variable {s : State} {k : Turn} {rest : List Turn} {i : Instr} {f : Format} {w : Word} {r : Refusal}

/-- The mark REFUSED keeps its first reason (R234). -/
theorem markRefused_eq (r : Refusal) (s : State) : markRefused r s = { s with refused := some (s.refused.getD r) } := by
  unfold markRefused
  cases s.refused <;> rfl

/-- A listed turn whose agent has an enabled step is that step, its mark recorded. -/
theorem step_of_listed {o : Host.Outcome State Fault Refusal} (hf : s.faulted = none) (hp : s.probe = none)
    (hs : s.schedule = k :: rest) (h : turnStep k (setSchedule rest s) = some o) :
    step s = recorded (setSchedule rest s) o := by
  rw [step_of_schedule hf hp hs, takeTurn_of_some h]

theorem step_of_listed_refused (hf : s.faulted = none) (hp : s.probe = none) (hs : s.schedule = k :: rest)
    (h : turnStep k (setSchedule rest s) = some (.refused r)) :
    step s = .next { s with schedule := rest, refused := some (s.refused.getD r) } := by
  rw [step_of_listed hf hp hs h, recorded, markRefused_eq]
  rfl

theorem turnStep_command (w : Word) (hb : busy s = false) :
    turnStep (.host (.write 0x00 32 w)) s = some (issue .hcmd w s) := by
  rw [turnStep, hostAccess_command w hb]

/-- Settles O5: the access is the word's issue, and the turn is the access. -/
theorem stepRunsHostCommand : Obligations.StepRunsHostCommand := by
  intro s w hb
  refine ⟨fun i hi => ⟨?_, fun rest hf hp hs => ?_⟩, fun e r he her => ?_⟩
  · rw [hostAccess_command w hb, issue_ok hi]
  · rw [step_of_listed hf hp hs (turnStep_command (s := setSchedule rest s) w hb),
      issue_ok (s := setSchedule rest s) hi]
    rfl
  · have reason : Refusal.ofDecode e = r := by
      simp only [List.mem_cons, Prod.mk.injEq, List.not_mem_nil, or_false] at her
      rcases her with ⟨rfl, rfl⟩ | ⟨rfl, rfl⟩ | ⟨rfl, rfl⟩ <;> rfl
    refine ⟨by rw [hostAccess_command w hb, issue_error he, reason], fun rest hf hp hs => ?_⟩
    refine step_of_listed_refused hf hp hs ?_
    rw [turnStep_command (s := setSchedule rest s) w hb, issue_error (s := setSchedule rest s) he, reason]

/-- Settles O6: the access waiting is issued on the state without it. -/
theorem stepRunsLoneAccess : Obligations.StepRunsLoneAccess := by
  intro s f w i hf hp hd
  rw [step_of_lone hf hp, issue_ok (s := clearProbe s) hd]
  rfl

/-- A drawn turn is the step of that turn listed alone, with one more free value used. -/
theorem step_of_drawn (hf : s.faulted = none) (hp : s.probe = none) (hs : s.schedule = []) :
    takeTurn k (countDraw s) = step { s with draws := s.draws + 1, schedule := [k] } := by
  rw [step_of_schedule (s := { s with draws := s.draws + 1, schedule := [k] }) hf hp rfl]
  unfold setSchedule countDraw
  rw [hs]

/-- Settles O7: a turn's outcome is recorded, and a drawn turn is that turn listed. -/
theorem turnsRefusedFaultedOrIdle : Obligations.TurnsRefusedFaultedOrIdle := by
  refine ⟨fun s k rest hf hp hs => ⟨fun t h => step_of_listed hf hp hs h,
    fun r h => step_of_listed_refused hf hp hs h, fun f h => step_of_listed hf hp hs h, fun h => ?_⟩,
    fun s hf hp hs => ?_, fun s f hf => step_of_faulted hf⟩
  · rw [step_of_schedule hf hp hs]
    exact takeTurn_of_none h
  · rw [step_of_empty_schedule hf hp hs]
    cases Config.freeTurn s.draws with
    | host a =>
      simp only [takeDrawn, step_of_drawn hf hp hs]
      rfl
    | engine => exact step_of_drawn hf hp hs
    | isr => exact step_of_drawn hf hp hs
    | answer a => exact step_of_drawn hf hp hs
    | event e => exact step_of_drawn hf hp hs

end

/-! ### The host's window (R21, R64) -/

/-- From HBUF's offset on, an offset is an entry's, reserved, or outside the window. -/
theorem hostReg_of_ge {c a : Nat} (h : 0x10 ≤ a) :
    hostReg? c a = if a < 0x10 + c then some (.hbuf (a - 0x10)) else if a < 0x200 then some .reservedByte else none := by
  have outside : a ≠ 0x00 ∧ a ≠ 0x04 ∧ a ≠ 0x08 ∧ a ≠ 0x0C ∧ ¬ a < 0x10 := by omega
  simp only [hostReg?, hbufOffset, windowSize, outside, if_false]
  rfl

theorem hostTarget_hbuf {c i : Nat} (hi : i < c) : hostTarget c (0x10 + i) 8 = some (.hbuf i) := by
  rw [hostTarget, hostReg_of_ge (by omega), if_pos (by omega), Nat.add_sub_cancel_left]
  rfl

theorem hostTarget_reservedByte {c a : Nat} (hlo : 0x10 + c ≤ a) (hhi : a < 0x200) :
    hostTarget c a 8 = some .reservedByte := by
  rw [hostTarget, hostReg_of_ge (by omega), if_neg (by omega), if_pos hhi]
  rfl

/-- The one width of each offset that is a register's own. -/
theorem width_of_hostReg {c a : Nat} {r : HostReg} (hc : c ≤ 255) (h : hostReg? c a = some r) :
    r.width = 32 ∧ (a = 0x00 ∨ a = 0x04 ∨ a = 0x08 ∨ a = 0x0C) ∨ r.width = 8 ∧ 0x10 ≤ a ∧ a < 0x200 := by
  by_cases hge : 0x10 ≤ a
  · rw [hostReg_of_ge hge] at h
    split_ifs at h with h1 h2
    · obtain rfl := Option.some.inj h
      exact .inr ⟨rfl, hge, by omega⟩
    · obtain rfl := Option.some.inj h
      exact .inr ⟨rfl, hge, h2⟩
  · unfold hostReg? hbufOffset at h
    split_ifs at h with h0 h4 h8 hC
    · obtain rfl := Option.some.inj h
      exact .inl ⟨rfl, .inl h0⟩
    · obtain rfl := Option.some.inj h
      exact .inl ⟨rfl, .inr (.inl h4)⟩
    · obtain rfl := Option.some.inj h
      exact .inl ⟨rfl, .inr (.inr (.inl h8))⟩
    · obtain rfl := Option.some.inj h
      exact .inl ⟨rfl, .inr (.inr (.inr hC))⟩
    all_goals omega

section

variable {s : State} {a width : Nat} {v : Word} {r : HostReg}

theorem hostAccess_read (hb : busy s = false) (h : hostTarget s.cfg.capacity a width = some r) :
    hostAccess (.read a width) s = hostRead r s := by
  simp only [hostAccess, hb, hostAccessIdle, h, Bool.false_eq_true, if_false]

theorem hostAccess_write (hb : busy s = false) (h : hostTarget s.cfg.capacity a width = some r) :
    hostAccess (.write a width v) s = hostWrite r v s := by
  simp only [hostAccess, hb, hostAccessIdle, h, Bool.false_eq_true, if_false]

theorem hostAccess_of_no_target (hb : busy s = false) (h : hostTarget s.cfg.capacity a width = none) :
    hostAccess (.read a width) s = .refused .badHostAccess ∧
      hostAccess (.write a width v) s = .refused .badHostAccess := by
  simp only [hostAccess, hb, hostAccessIdle, h, Bool.false_eq_true, if_false, and_self]

theorem hostAccess_of_busy (hb : busy s = true) (x : HostAccess) : hostAccess x s = .refused .hostWhileBusy :=
  if_pos hb

theorem whenIdle_busy (hb : busy s = true) (run : State → Except Stop State) :
    whenIdle s run = .refused .hostWhileBusy :=
  if_pos hb

end

/-- Settles O8: the access reaches the unit its offset names. -/
theorem hostReadsEachRegister : Obligations.HostReadsEachRegister := by
  intro s hb
  refine ⟨hostAccess_read (r := .hcmd) hb rfl, hostAccess_read (r := .harg) hb rfl,
    hostAccess_read (r := .hres) hb rfl, hostAccess_read (r := .reservedWord) hb rfl,
    fun i b hi hread => ?_, fun i hi hread => ?_, fun a hlo hhi => hostAccess_read hb (hostTarget_reservedByte hlo hhi)⟩
  · rw [hostAccess_read hb (hostTarget_hbuf hi)]
    simp only [hostRead, hbufRead, hread]
    rfl
  · rw [hostAccess_read hb (hostTarget_hbuf hi)]
    simp only [hostRead, hbufRead, hread]
    rfl

/-- Settles O9: the access reaches the unit its offset names, and HBUF's is one write of a cell. -/
theorem hostWritesEachRegister : Obligations.HostWritesEachRegister := by
  intro s v hb hcanonical
  obtain ⟨hbuf, -⟩ := storageCanonical_iff.mp hcanonical
  exact ⟨hostAccess_write (r := .harg) hb rfl, hostAccess_write (r := .hres) hb rfl,
    hostAccess_write (r := .reservedWord) hb rfl,
    fun a hlo hhi => hostAccess_write hb (hostTarget_reservedByte hlo hhi),
    fun i hi => ⟨_, hostAccess_write hb (hostTarget_hbuf hi), rfl, Memory.read_write_same i _ hbuf,
      fun j hj => Memory.read_write_other _ hbuf hj⟩⟩

/-- Settles O10: an offset that is a register's own admits one width. -/
theorem otherHostAccessesRefused : Obligations.OtherHostAccessesRefused := by
  intro s a width v hb hvalid h32 h8
  have hc : s.cfg.capacity ≤ 255 := (of_decide_eq_true hvalid).2.1
  refine hostAccess_of_no_target hb ?_
  cases hr : hostReg? s.cfg.capacity a with
  | none => simp only [hostTarget, hr]
  | some r =>
    have wrong : r.width ≠ width := by
      rintro rfl
      exact (width_of_hostReg hc hr).elim h32 h8
    simp only [hostTarget, hr, wrong, if_false]

/-- Settles O11: BUSY is tested before anything else. -/
theorem busyRefusesTheHost : Obligations.BusyRefusesTheHost := by
  intro s hb
  refine ⟨hostAccess_of_busy hb, fun i hf => ?_⟩
  cases i with
  | initm m => rw [exec, execInitm, whenIdle_busy hb]
  | msend a n => rw [exec, execMsend, whenIdle_busy hb]
  | mrecv a n => rw [exec, execMrecv, whenIdle_busy hb]
  | inits a => rw [exec, execInits, whenIdle_busy hb]
  | setsa a => rw [exec, execSetsa, whenIdle_busy hb]
  | senq n => rw [exec, execSenq, whenIdle_busy hb]
  | sdrain n => rw [exec, execSdrain, whenIdle_busy hb]
  | _ => cases hf

end Sys2Proof
end

