-- ==== Sys2Proof/Proofs/Primitives.lean ====
section
/-! The refusals and the un-bracketed acceptance of the host commands (R83, R212, R213, R217, R219), the engines'
primitives one by one (R143 to R148, R186 to R190), and the reset state (R50, R260). -/

namespace Sys2Proof

open Sys2Proof.Machine

/-! ### The counting commands -/

section

variable {s : State} {n : Byte}

theorem countChecked_of_le (h : n.toNat ≤ s.cfg.capacity) (run : State → Except Stop State) :
    countChecked n s run = run s :=
  if_pos h

theorem countChecked_of_lt (h : s.cfg.capacity < n.toNat) (run : State → Except Stop State) :
    countChecked n s run = .error (.refuse .countAboveCapacity) :=
  if_neg (Nat.not_le.mpr h)

theorem startMaster_of_disabled (a : BitVec 7) (d : Dir) (n : Byte) (he : mEnable s.mctrla = false) :
    startMaster a d n s = .error (.refuse .masterDisabled) := by
  simp only [startMaster, he, Bool.false_eq_true, if_false]

/-- Settles O14: the count is checked first, and then the enable. -/
theorem countingCommandsRefused : Obligations.CountingCommandsRefused := by
  intro s a n hidle
  have hb : busy s = false := hidle
  refine ⟨fun above => ⟨?_, ?_, ?_, ?_⟩, fun hn he => ⟨?_, ?_⟩⟩
  · rw [exec, execMsend, whenIdle_idle hb, countChecked_of_lt above, finish_refuse]
  · rw [exec, execMrecv, whenIdle_idle hb, countChecked_of_lt above, finish_refuse]
  · rw [exec, execSenq, whenIdle_idle hb, countChecked_of_lt above, finish_refuse]
  · rw [exec, execSdrain, whenIdle_idle hb, countChecked_of_lt above, finish_refuse]
  · rw [exec, execMsend, whenIdle_idle hb, countChecked_of_le hn, startMaster_of_disabled a .w n he, finish_refuse]
  · rw [exec, execMrecv, whenIdle_idle hb, countChecked_of_le hn, startMaster_of_disabled a .r n he, finish_refuse]

/-- The loop's start by the command's own count byte (R219). -/
theorem firstMicro_toNat (n : Byte) (pos : Micro) : firstMicro n.toNat pos = if n = 0#8 then .done else pos := by
  have zero : n.toNat = 0 ↔ n = 0#8 := by rw [← BitVec.toNat_inj]; rfl
  simp only [firstMicro, zero]

theorem bulkLater_eq (n : Byte) (pos : Micro) (s : State) :
    bulkLater n.toNat pos s = { s with
      hres := s.hres ||| 0x80000000#32
      bulk := some { n := n.toNat, k := 0, pos := if n = 0#8 then .done else pos } } := by
  rw [bulkLater, firstMicro_toNat]
  rfl

/-- Settles O19: acceptance alone, with the loop at its start. -/
theorem unbracketedBulkIsAccepted : Obligations.UnbracketedBulkIsAccepted := by
  intro s n hidle hbracket hn
  exact ⟨execSenq_next.mpr ⟨hidle, hn, .inr ⟨hbracket, (bulkLater_eq n .w1 s).symm⟩⟩,
    execSdrain_next.mpr ⟨hidle, hn, .inr ⟨hbracket, (bulkLater_eq n .r1 s).symm⟩⟩⟩

/-! ### SENQ's fault (R217, R235) -/

/-- FG's write to a TX with room (R100, R106). -/
theorem rbWrite_of_room (b : Byte) (room : s.tx.length < s.cfg.capacity) :
    rbWrite .fg .tx b s = .ok (.ok (setRing .tx (s.tx.push s.cfg.capacity b) s)) := by
  simp only [rbWrite, ringWriter, ring, Ring.write_of_room b room, if_true]

/-- The enqueue loop with its first `j` entries held and the next one unwritten stops there. -/
theorem enqueueLoop_of_unwritten {m k j : Nat} {s : State} (hj : j < min m (s.cfg.capacity - s.tx.length))
    (held : ∀ i, i < j → Memory.read hbufBlank s.hbuf (k + i) ≠ none)
    (unwritten : Memory.read hbufBlank s.hbuf (k + j) = none) :
    enqueueLoop m k s = .error (.fault (.unwrittenRead (k + j))) := by
  induction j generalizing m k s with
  | zero =>
    obtain ⟨m, rfl⟩ : ∃ l, m = l + 1 := ⟨m - 1, by omega⟩
    have room : s.tx.length < s.cfg.capacity := by omega
    have fault : hbufRead s k = .error (.fault (.unwrittenRead k)) := by
      rw [Nat.add_zero] at unwritten
      simp only [hbufRead, unwritten]
    simp only [enqueueLoop, if_pos room, fault, Nat.add_zero]
  | succ j ih =>
    obtain ⟨m, rfl⟩ : ∃ l, m = l + 1 := ⟨m - 1, by omega⟩
    have room : s.tx.length < s.cfg.capacity := by omega
    obtain ⟨b, hb⟩ := Option.ne_none_iff_exists'.mp (held 0 (Nat.succ_pos j))
    rw [Nat.add_zero] at hb
    have shift (i : Nat) : k + 1 + i = k + (i + 1) := by omega
    have loop := ih (m := m) (k := k + 1) (s := setRing .tx (s.tx.push s.cfg.capacity b) s)
      (by simp only [setTx_cfg, setTx_tx, Ring.push]; omega)
      (fun i hi => by rw [shift]; exact held (i + 1) (Nat.succ_lt_succ hi)) (by rw [shift]; exact unwritten)
    simp only [enqueueLoop, if_pos room, hbufRead_ok.mpr hb, rbWrite_of_room b room, loop, shift]

/-- Settles O17: the loop writes the bytes before `j` and faults there, so the command does. -/
theorem senqFaultsOnUnwrittenEntry : Obligations.SenqFaultsOnUnwrittenEntry := by
  intro s n j hidle hbracket hn _ hj held unwritten
  have loop := enqueueLoop_of_unwritten (k := 0) (s := setImask true (accept s)) hj
    (fun i hi => by rw [Nat.zero_add]; exact held i hi) (by rw [Nat.zero_add]; exact unwritten)
  rw [Nat.zero_add] at loop
  rw [exec, execSenq, whenIdle_idle hidle, countChecked_of_le hn, if_pos hbracket, bulkNow, bracketed, loop]
  rfl

end

/-! ### The engines' primitives -/

/-- Settles O20: each write is its operation, with its command byte read back. -/
theorem masterPrimitiveEffects : Obligations.MasterPrimitiveEffects := by
  intro s a d b act
  refine ⟨?_, rfl, rfl, rfl, ?_⟩
  · cases d <;> rfl
  · cases act <;> rfl

/-- Settles O21: the phase decides RESPONSE, and COMPTRANS needs none. -/
theorem slavePrimitiveEffects : Obligations.SlavePrimitiveEffects := by
  intro s act p
  have answer (d : Dir) (hp : s.sphase = .addressed d ∨ s.sphase = .active d) :
      respondedPhase act s.sphase = some (match act with | .ack => .active d | .nack => .ending) := by
    rcases hp with hp | hp <;> rw [hp] <;> rfl
  refine ⟨fun d hp => ?_, fun hp => ?_, ?_⟩
  · rw [exec, execSctrlbResponse, responseOp_eq_responded (answer d hp)]
    cases act <;> rfl
  · have none_given : respondedPhase act s.sphase = none := by
      rcases hp with hp | hp <;> rw [hp] <;> rfl
    simp only [exec, execSctrlbResponse, responseOp, none_given, finish_refuse]
  · cases act <;> rfl

/-- Settles O22: each read hands back its register, and the SDATA write stores its byte. -/
theorem dataAndStatusAccesses : Obligations.DataAndStatusAccesses := by
  intro s b
  exact ⟨byte0_record2 _ b, rfl, rfl, rfl, rfl, rfl⟩

/-! ### Reset (R50, R260) -/

/-- Settles O49: read off the reset state, register by register. -/
theorem resetValues : Obligations.ResetValues := by
  refine ⟨rfl, rfl, rfl, fun i => rfl, fun r => ?_, rfl, rfl, rfl, fun id => ?_, rfl, rfl, rfl, rfl, rfl, rfl⟩
  · cases r <;> rfl
  · cases id with
    | tx => exact ⟨rfl, rfl, fun i => rfl⟩
    | rx => exact ⟨rfl, rfl, fun i => rfl⟩

/-- Settles O50: each invariant is evaluated at reset. -/
theorem invariantsHoldAtReset : Obligations.InvariantsHoldAtReset := by
  refine ⟨by decide, ringsInRange_iff.mpr ⟨?_, by decide, by decide, fun x hx => nomatch hx⟩, by decide, by decide,
    by decide, by decide, by decide, by decide, by decide⟩
  exact decide_eq_true ⟨by decide, by decide, Nat.succ_pos _⟩

end Sys2Proof
end

