-- ==== Sys2Proof/Proofs/EngineSteps.lean ====
section
/-! The Master Engine's step over every state: when it holds (R149), what the read data phase stores (R165, R168), what it
emits (R174) and writes (R175), and that only an answer ends a hold (R272). -/

namespace Sys2Proof

open Sys2Proof.Machine

section

variable {s t : State} {x : Txn} {i : Nat}

/-! ### Holding (R149) -/

/-- Inside a transaction, the engine's turn has no step exactly when no transition is enabled. -/
theorem turnStep_engine_eq_none (hb : s.bulk = none) (hm : s.mstate ≠ .idle) (hx : s.txn = some x) :
    turnStep .engine s = none ↔ enabledTrans s x = none := by
  rw [turnStep_engine hb, masterStep_eq hm hx, Option.map_eq_none_iff, Option.map_eq_none_iff]

theorem mActed_eq_false (v : Byte) : mActed v = false ↔ v.getLsbD 7 = false ∧ v.getLsbD 6 = false := by
  simp only [mActed, mRif, mWif, Bool.or_eq_false_iff]

theorem readTrans_eq_none {v : Byte} : readTrans v x i = none ↔ mClkhold v = false ∧ mLost v = false := by
  unfold readTrans
  split_ifs with hl hc hi
  · simp [hl]
  · simp [hc]
  · simp [hc]
  · simp [hl, hc]

/-- Settles O23: no transition is enabled exactly when the flags its state waits for are 0. -/
theorem engineHoldsUntilAnswered : Obligations.EngineHoldsUntilAnswered := by
  intro s x i hb hx
  refine ⟨fun hm => ?_, fun hm hd => ?_, fun hm hd => ?_⟩
  · rw [turnStep_engine_eq_none hb (by simp [hm]) hx, ← mActed_eq_false]
    simp [enabledTrans, hm]
  · rw [turnStep_engine_eq_none hb (by simp [hm]) hx, ← mActed_eq_false]
    simp [enabledTrans, hm, hd]
  · rw [turnStep_engine_eq_none hb (by simp [hm]) hx, enabledTrans_readData hm hd]
    simp only [readTrans_eq_none, mClkhold, mLost, mArblost, mBuserr, Bool.or_eq_false_iff]

/-! ### The read data phase (R165, R168) -/

/-- Settles O26: T11 or T12 by the byte index, each after one write of HBUF[i]. -/
theorem readDataOutcomes : Obligations.ReadDataOutcomes := by
  intro s x i hb hm hx hd hwf hc h3 h2 hi
  have kept := mLost_eq_false h3 h2
  have turn {k : Trans} (hk : readTrans s.mstatus x i = some k) :
      turnStep .engine s = some (finish (runTrans x s k)) :=
    turnStep_engine_of_enabled hb hx ((enabledTrans_readData hm hd).trans hk)
  have stored : Memory.read hbufBlank (Memory.write hbufBlank s.hbuf i s.mdata) i = some s.mdata :=
    Memory.read_write_same i _ hwf
  have others (j : Nat) (hj : j ≠ i) :
      Memory.read hbufBlank (Memory.write hbufBlank s.hbuf i s.mdata) j = Memory.read hbufBlank s.hbuf j :=
    Memory.read_write_other _ hwf hj
  rcases Nat.lt_or_eq_of_le (Nat.succ_le_of_lt hi) with more | last
  · exact ⟨_, turn (readTrans_of_more kept hc more), stored, others, fun _ => rfl, fun last => absurd last more.ne⟩
  · exact ⟨_, turn (readTrans_of_last kept hc last), stored, others, fun more => absurd last more.ne, fun _ => rfl⟩

/-- Settles O27: T10 is tested first, and its draws cover the entries below N. -/
theorem readTerminationGivesIoError : Obligations.ReadTerminationGivesIoError := by
  intro s x i hb hm hx hd hwf hlost
  have enabled : enabledTrans s x = some .t10 := by
    rw [enabledTrans_readData hm hd, readTrans, if_pos ((mLost_iff _).mpr hlost)]
  have drawn := hbufUnspecified_read x.n 0 s hwf
  refine ⟨_, turnStep_engine_of_enabled hb hx enabled, ?_, fun j hj => ?_, fun j hj => ?_⟩
  · rw [hbufUnspecified_frame]
    rfl
  · exact (drawn j).trans (by simp [hj])
  · exact (drawn j).trans (by simp [hj])

/-! ### What a step emits and writes (R174, R175) -/

/-- The engine's turn, outside the harness, is a Master Engine move. -/
theorem turnStep_engine_move (hb : s.bulk = none) (h : turnStep .engine s = some (.next t)) :
    s.mstate ≠ .idle ∧ ∃ x, s.txn = some x ∧ MasterMove s x t := by
  rw [turnStep_engine hb, Option.map_eq_some_iff] at h
  obtain ⟨r, hr, ht⟩ := h
  rw [finish_next] at ht
  exact masterStep_move (hr.trans (congrArg some ht))

/-- Settles O28: each move emits at most one action, a stop exactly when it retires with no error flag set. -/
theorem stopOnlyAtRetirement : Obligations.StopOnlyAtRetirement := by
  intro s t hb h
  obtain ⟨-, x, -, move⟩ := turnStep_engine_move hb h
  simp only [← mLost_iff]
  have silent {u : State} (hu : u.trace = s.trace) : u.trace = s.trace ++ [] := by rw [hu, List.append_nil]
  cases move with
  | lost hl => exact ⟨[], silent rfl, by simp, fun _ => rfl, fun _ => iff_of_true rfl hl⟩
  | readLost hm hd hl =>
    rw [hbufUnspecified_frame]
    exact ⟨[], silent rfl, by simp, fun _ => rfl, fun _ => iff_of_true rfl hl⟩
  | stopped r hr hl =>
    exact ⟨[.mStop .nack], rfl, by simp, fun h => absurd rfl h, fun _ => by simp [stopCount, hl]⟩
  | sent j b => exact ⟨[.mTx b], rfl, by simp, fun _ => rfl, fun h => nomatch h⟩
  | awaited => exact ⟨[], silent rfl, by simp, fun _ => rfl, fun h => nomatch h⟩
  | stored => exact ⟨[.mRecvNext .ack], rfl, by simp, fun _ => rfl, fun h => nomatch h⟩
  | storedLast hm hd hl =>
    exact ⟨[.mStop .nack], rfl, by simp, fun h => absurd rfl h, fun _ => by simp [stopCount, hl]⟩

/-- Settles O29: the moves' common frame, with MSTATUS and HBUF move by move. -/
theorem engineWriteSet : Obligations.EngineWriteSet := by
  intro s t hb h
  obtain ⟨-, x, hx, move⟩ := turnStep_engine_move hb h
  refine ⟨move.frame, ?_⟩
  cases move with
  | lost => exact ⟨.inl rfl, fun h => absurd rfl h⟩
  | readLost hm hd hl =>
    refine ⟨.inl ?_, fun _ => ⟨_, x, hm, hx, hd⟩⟩
    rw [hbufUnspecified_frame]
    rfl
  | stopped => exact ⟨.inr rfl, fun h => absurd rfl h⟩
  | sent => exact ⟨.inr rfl, fun h => absurd rfl h⟩
  | awaited => exact ⟨.inl rfl, fun h => absurd rfl h⟩
  | stored hm hd => exact ⟨.inr rfl, fun _ => ⟨_, x, hm, hx, hd⟩⟩
  | storedLast hm hd => exact ⟨.inr rfl, fun _ => ⟨_, x, hm, hx, hd⟩⟩

/-! ### Only an answer ends a hold (R149, R272) -/

/-- `t` stands where `s` does in its transaction: the fields the engine's guards and BUSY read. -/
structure SameWait (s t : State) : Prop where
  hres : t.hres = s.hres
  bulk : t.bulk = s.bulk
  mstate : t.mstate = s.mstate
  txn : t.txn = s.txn
  mstatus : t.mstatus = s.mstatus
  mreq : t.mreq = s.mreq

/-- Out of Idle, the Master Engine has no step exactly when its transaction enables none. -/
theorem masterStep_eq_none (hm : s.mstate ≠ .idle) :
    masterStep s = none ↔ ∃ x, s.txn = some x ∧ enabledTrans s x = none := by
  cases hx : s.txn with
  | none =>
    cases hm' : s.mstate with
    | idle => exact absurd hm' hm
    | _ => simp [masterStep, readTxn, hm', hx]
  | some x => simp [masterStep_eq hm hx]

/-- A hold depends on those fields alone. -/
theorem SameWait.turnStep_engine_none (h : SameWait s t) (hm : s.mstate ≠ .idle) (hb : s.bulk = none)
    (hold : turnStep .engine s = none) : turnStep .engine t = none := by
  rw [turnStep_engine hb, Option.map_eq_none_iff, masterStep_eq_none hm] at hold
  rw [turnStep_engine (h.bulk.trans hb), Option.map_eq_none_iff, masterStep_eq_none (h.mstate ▸ hm), h.txn]
  simpa only [enabledTrans, h.mstate, h.mstatus] using hold

theorem takeTurn_next (k : Turn) (s : State) : ∃ t, takeTurn k s = .next t := by
  unfold takeTurn
  cases turnStep k s with
  | none => exact ⟨s, rfl⟩
  | some o => exact recorded_next s o

/-- While busy with a transaction that holds, a turn but an answer leaves it where it stands. -/
theorem takeTurn_sameWait {k : Turn} (hbusy : busy s = true) (hold : turnStep .engine s = none)
    (hk : ∀ a, k ≠ .answer a) (h : takeTurn k s = .next t) : SameWait s t := by
  rcases takeTurn_cases h with rfl | ⟨r, rfl⟩ | ⟨f, rfl⟩ | h
  · exact ⟨rfl, rfl, rfl, rfl, rfl, rfl⟩
  · exact ⟨rfl, rfl, rfl, rfl, rfl, rfl⟩
  · exact ⟨rfl, rfl, rfl, rfl, rfl, rfl⟩
  · cases k with
    | host a => simp [turnStep, hostAccess_of_busy hbusy] at h
    | engine => simp [hold] at h
    | isr =>
      rw [slaveIsr_frame (turnStep_isr_next.mp h).2]
      exact ⟨rfl, rfl, rfl, rfl, rfl, rfl⟩
    | answer a => exact absurd rfl (hk a)
    | event e =>
      simp only [turnStep, Option.map_eq_some_iff, Host.Outcome.next.injEq, exists_eq_right] at h
      rw [(busEvent_cases h).2.2, applyEvent_frame]
      exact ⟨rfl, rfl, rfl, rfl, rfl, rfl⟩

/-- Settles O34: no agent but the BUS answering writes what the engine waits on. -/
theorem onlyAnAnswerLiftsTheHold : Obligations.OnlyAnAnswerLiftsTheHold := by
  intro s k hf hp hb hbusy hm hold hk not_answer
  obtain ⟨u, hu, hstep⟩ := step_of_turnTaken hf hk
  have moved : SameWait s u := by
    rcases hu with ⟨l, rfl⟩ | rfl <;> exact ⟨rfl, rfl, rfl, rfl, rfl, rfl⟩
  have stepped : ∃ t, step s = .next t ∧ SameWait s t := by
    rcases hstep with hstep | ⟨-, -, hstep⟩
    · obtain ⟨t, ht⟩ := takeTurn_next k u
      have same := takeTurn_sameWait (by rwa [busy, moved.hres]) (moved.turnStep_engine_none hm hb hold) not_answer ht
      exact ⟨t, hstep.trans ht, ⟨same.hres.trans moved.hres, same.bulk.trans moved.bulk,
        same.mstate.trans moved.mstate, same.txn.trans moved.txn, same.mstatus.trans moved.mstatus,
        same.mreq.trans moved.mreq⟩⟩
    · exact ⟨u, hstep, moved⟩
  obtain ⟨t, ht, same⟩ := stepped
  exact ⟨t, ht, by rwa [busy, same.hres], same.mstate, same.txn, same.mstatus, same.mreq,
    same.turnStep_engine_none hm hb hold⟩

end

end Sys2Proof
end

