-- ==== Sys2Proof/Proofs/SlaveRequest.lean ====
section
/-! The interrupt request: when the handler is taken (R184, R240), its transmit branch (R191), that a pending condition
waits for it (R44), and that a fair run serves it. -/

namespace Sys2Proof

open Sys2Proof.Machine

section

variable {s t : State}

/-- Settles O37: the handler's turn is a step exactly when it is enabled, which is the line by its bits. -/
theorem interruptTakenExactlyOnRequest : Obligations.InterruptTakenExactlyOnRequest := by
  intro s
  have taken : turnStep .isr s ≠ none ↔ isrEnabled s = true := by
    cases h : isrEnabled s <;> simp [turnStep, h]
  rw [taken]
  simp only [isrEnabled, sirq, sEnable, sDien, sApien, sPien, sDif, sApif, sAp, Bool.and_eq_true, Bool.or_eq_true,
    Bool.not_eq_true', and_assoc, or_assoc]

/-- Settles O38: RB_READ of TX gives the byte presented, or finds it empty. -/
theorem handlerTransmits : Obligations.HandlerTransmits := by
  intro s d hen h7 h1 hp
  have turn : turnStep .isr s = some (finish (slaveTransmit s)) := by
    rw [turnStep_isr hen, slaveIsr_of_transmit h7 h1]
  refine ⟨fun held => ?_, fun empty => ?_⟩
  · rw [turn, slaveTransmit_of_read hp (Ring.read_ok.mpr ⟨held.ne', rfl, rfl⟩)]
    rfl
  · rw [turn, slaveTransmit_of_empty hp empty]
    rfl

/-! ### A pending condition waits (R44, R181) -/

/-- `t` has the slave's condition of `s`, IMASK as it was, and SCTRLA as it was or as INITS leaves it. -/
structure SameCondition (s t : State) : Prop where
  sstatus : t.sstatus = s.sstatus
  sdata : t.sdata = s.sdata
  sphase : t.sphase = s.sphase
  imask : t.imask = s.imask
  sctrla : t.sctrla = s.sctrla ∨ t.sctrla = sctrlaInit

theorem SameCondition.of_eq (sstatus : t.sstatus = s.sstatus) (sdata : t.sdata = s.sdata)
    (sphase : t.sphase = s.sphase) (imask : t.imask = s.imask) (sctrla : t.sctrla = s.sctrla) : SameCondition s t :=
  ⟨sstatus, sdata, sphase, imask, .inl sctrla⟩

/-- A request raised stays raised: the condition stands, and INITS sets every enable. -/
theorem SameCondition.isrEnabled (h : SameCondition s t) (hen : isrEnabled s = true) : isrEnabled t = true := by
  have pending := pending_of_isrEnabled hen
  simp only [Machine.isrEnabled, Bool.and_eq_true, h.imask, h.sstatus] at hen ⊢
  refine ⟨hen.1, ?_⟩
  rcases h.sctrla with same | inits
  · rw [same]
    exact hen.2
  · rw [inits, sctrlaInit, sirq_of_allEnabled, Bool.or_eq_true]
    exact pending

/-- With a condition pending, a turn that is not the handler's leaves it: no event is allowed (R181). -/
theorem takeTurn_sameCondition {k : Turn} (hpending : sDif s.sstatus = true ∨ sApif s.sstatus = true)
    (hk : k ≠ .isr) (h : takeTurn k s = .next t) : SameCondition s t := by
  rcases takeTurn_cases h with rfl | ⟨r, rfl⟩ | ⟨f, rfl⟩ | h
  · exact .of_eq rfl rfl rfl rfl rfl
  · exact .of_eq rfl rfl rfl rfl rfl
  · exact .of_eq rfl rfl rfl rfl rfl
  · cases k with
    | host a =>
      simp only [turnStep, Option.some.injEq] at h
      obtain ⟨-, rfl | ⟨v, rfl⟩ | ⟨v, rfl⟩ | ⟨i, b, -, rfl⟩ | ⟨i, w, hd, he⟩⟩ := hostAccess_cases h
      · exact .of_eq rfl rfl rfl rfl rfl
      · exact .of_eq rfl rfl rfl rfl rfl
      · exact .of_eq rfl rfl rfl rfl rfl
      · exact .of_eq rfl rfl rfl rfl rfl
      · have frame := command_frame (decodeHcmd_format hd) he
        exact ⟨frame.sstatus, frame.sdata, frame.sphase, frame.imask, frame.sctrla⟩
    | engine =>
      simp only [turnStep, fgStep, Option.map_eq_some_iff] at h
      obtain ⟨r, hr, ht⟩ := h
      rw [finish_next] at ht
      subst ht
      cases hb : s.bulk with
      | some y =>
        simp only [hb, Option.some.injEq] at hr
        rw [microStep_frame hr]
        exact .of_eq rfl rfl rfl rfl rfl
      | none =>
        simp only [hb] at hr
        rw [masterStep_frame hr]
        exact .of_eq rfl rfl rfl rfl rfl
    | isr => exact absurd rfl hk
    | answer a =>
      simp only [turnStep, Option.map_eq_some_iff, Host.Outcome.next.injEq, exists_eq_right] at h
      rw [(busAnswer_cases h).2, applyAnswer_frame]
      exact .of_eq rfl rfl rfl rfl rfl
    | event e =>
      have not_allowed : ¬ eventAllowed s = true := by
        rcases hpending with hd | ha
        · simp [eventAllowed, hd]
        · simp [eventAllowed, ha]
      simp [turnStep_event_of_not_allowed e not_allowed] at h

theorem step_sameCondition (hp : s.probe = none) (hpending : sDif s.sstatus = true ∨ sApif s.sstatus = true)
    (hk : turnTaken s ≠ some .isr) (h : step s = .next t) : SameCondition s t := by
  obtain ⟨k, taken⟩ : ∃ k, turnTaken s = some k := by
    unfold turnTaken
    rw [hp]
    cases s.schedule <;> exact ⟨_, rfl⟩
  obtain ⟨u, hu, hstep⟩ := step_of_turnTaken (not_faulted_of_step h) taken
  have moved : t = u ∨ SameCondition u t := by
    rcases hstep with hstep | ⟨-, -, hstep⟩
    · have hpending : sDif u.sstatus = true ∨ sApif u.sstatus = true := by
        rcases hu with ⟨l, rfl⟩ | rfl <;> exact hpending
      exact .inr (takeTurn_sameCondition hpending (fun isr => hk (isr ▸ taken)) (hstep.symm.trans h))
    · exact .inl (Host.Outcome.next.inj (h.symm.trans hstep))
  rcases hu with ⟨l, rfl⟩ | rfl <;> rcases moved with rfl | same
  · exact .of_eq rfl rfl rfl rfl rfl
  · exact { same with }
  · exact .of_eq rfl rfl rfl rfl rfl
  · exact { same with }

/-- Settles O42: no turn but the handler's writes the condition or lowers an enable. -/
theorem pendingConditionWaitsForTheHandler : Obligations.PendingConditionWaitsForTheHandler := by
  intro s t hp _ hpending hk h
  have same := step_sameCondition hp hpending hk h
  exact ⟨same.sstatus, same.sdata, same.sphase, same.isrEnabled⟩

/-- Settles O45: a request not taken stays raised, so fairness to the handler takes it (R240). -/
theorem fairRunServesTheRequest : Obligations.FairRunServesTheRequest := by
  intro run n hrun hfair hstates hen
  by_contra unserved
  push Not at unserved
  have raised (m : Nat) (hm : n ≤ m) : isrEnabled (run m) = true := by
    induction m, hm using Nat.le_induction with
    | base => exact hen
    | succ m hm ih =>
      have not_taken : turnTaken (run m) ≠ some .isr := fun taken => unserved m hm taken ih
      exact (step_sameCondition (hstates m).1 (pending_of_isrEnabled ih) not_taken (hrun m)).isrEnabled ih
  obtain ⟨m, hm, taken⟩ := hfair.1 n raised
  exact unserved m hm taken (raised m hm)

end

end Sys2Proof
end

