-- ==== Sys2Proof/Proofs/RingsAndEstimate.lean ====
section
/-! The FIFO law of one ring (R100, R101, R103) and the corrected divisor's estimate (R128). -/

namespace Sys2Proof

open Sys2Proof.Machine

/-- Settles O46: a write appends at the cell after the newest, a read takes the oldest. -/
theorem ringIsFifo : Obligations.RingIsFifo := by
  intro c r b hhead hlen hwf
  refine ⟨fun room => ?_, fun full => Ring.write_error.mpr ⟨full, rfl⟩, fun held => ?_,
    fun empty => Ring.read_error.mpr ⟨empty, rfl⟩⟩
  · have written := r.write_of_room b room
    exact ⟨_, written, rfl, rfl, ringCell_write_same _ b hwf, fun j hj => ringCell_write_other b hwf hj,
      Ring.bytes_of_write hlen hwf written⟩
  · have taken := Ring.read_ok (c := c) (r := r).mpr ⟨held.ne', rfl, rfl⟩
    exact ⟨_, _, taken, rfl, rfl, rfl, Ring.bytes_of_read hhead taken⟩

/-- The estimate of the corrected value, as quotients of nonnegative numbers. -/
theorem baudLowScaled_corrected (clock : Nat) (m : BusMode) :
    baudLowScaled (baudCorrected m clock) clock = clock * baudThreshold m / baudScale * baudScale / clock := by
  have nonneg : (0 : Int) ≤ clock * baudThreshold m := by cases m <;> simp [baudThreshold]
  have quotient : Int.tdiv (clock * baudThreshold m) baudScale = clock * baudThreshold m / baudScale :=
    Int.tdiv_eq_ediv_of_nonneg nonneg
  have scaled : 0 ≤ clock * baudThreshold m / baudScale * baudScale :=
    Int.mul_nonneg (Int.ediv_nonneg nonneg (by decide)) (by decide)
  rw [baudLowScaled, baudCorrected, idiv, idiv, quotient, Int.sub_add_cancel, Int.tdiv_eq_ediv_of_nonneg scaled]

/-- Settles O48: the quotient by SCALE, multiplied back, is at most `clock * THR`, with equality only when SCALE
divides it. -/
theorem correctedEstimateIsBelowThreshold : Obligations.CorrectedEstimateIsBelowThreshold := by
  intro clock m hclock
  have hpos : (0 : Int) < clock := by exact_mod_cast hclock
  have rounded : clock * baudThreshold m / baudScale * baudScale ≤ clock * baudThreshold m :=
    Int.ediv_mul_le _ (by decide)
  rw [baudLowScaled_corrected]
  refine ⟨Int.ediv_le_of_le_mul hpos (by rwa [Int.mul_comm (baudThreshold m)]), fun not_dvd => ?_⟩
  have strict : clock * baudThreshold m / baudScale * baudScale < clock * baudThreshold m :=
    lt_of_le_of_ne rounded fun exact_quotient => not_dvd (Dvd.intro_left _ exact_quotient)
  exact Int.ediv_lt_of_lt_mul hpos (by rwa [Int.mul_comm (baudThreshold m)])

end Sys2Proof
end

