-- ==== Sys2Proof/Proofs/Harness.lean ====
section
/-! The hazard harness, micro-step by micro-step (R108, R219): the two races of R109, and that an undisturbed loop ends
where the bracketed one does. -/

namespace Sys2Proof

open Sys2Proof.Machine

/-! ### The foreground's micro-steps, one rule each -/

/-- `s` with a harness command at `x`, and `rest` still to take. -/
def looping (x : Bulk) (rest : List Turn) (s : State) : State := { s with bulk := some x, schedule := rest }

theorem eq_looping {x : Bulk} {rest : List Turn} {s : State} (hx : s.bulk = some x) (hs : s.schedule = rest) :
    s = looping x rest s := by
  subst hs
  unfold looping
  rw [← hx]

section

variable {x : Bulk} {n k l h j : Nat} {b : Byte} {rest : List Turn} {s t : State}

/-- A listed turn whose agent has a step is the first step of a run. -/
theorem runSteps_succ_listed {a : Turn} (hf : s.faulted = none) (hp : s.probe = none) (hs : s.schedule = a :: rest)
    (ha : turnStep a (setSchedule rest s) = some (.next t)) : runSteps (j + 1) s = runSteps j t := by
  rw [Nat.add_comm, runSteps_add (runSteps_listed hf hp hs ha)]

variable (hf : s.faulted = none) (hp : s.probe = none)

include hf hp

theorem runSteps_micro (hm : microStep x (looping x rest s) = .ok t) :
    runSteps (j + 1) (looping x (.engine :: rest) s) = runSteps j t := by
  have turn : turnStep .engine (looping x rest s) = some (finish (microStep x (looping x rest s))) := rfl
  rw [hm] at turn
  exact runSteps_succ_listed (s := looping x (.engine :: rest) s) hf hp rfl turn

theorem runSteps_w1_full (full : s.tx.length = s.cfg.capacity) :
    runSteps (j + 1) (looping ⟨n, k, .w1⟩ (.engine :: rest) s) = runSteps j (looping ⟨n, k, .done⟩ rest s) :=
  runSteps_micro hf hp (if_pos full)

theorem runSteps_w1_room (room : s.tx.length ≠ s.cfg.capacity) :
    runSteps (j + 1) (looping ⟨n, k, .w1⟩ (.engine :: rest) s) =
      runSteps j (looping ⟨n, k, .w2 s.tx.length⟩ rest s) :=
  runSteps_micro hf hp (if_neg room)

theorem runSteps_w2 :
    runSteps (j + 1) (looping ⟨n, k, .w2 l⟩ (.engine :: rest) s) =
      runSteps j (looping ⟨n, k, .w3 l s.tx.head⟩ rest s) :=
  runSteps_micro hf hp rfl

theorem runSteps_w3 (hb : Memory.read hbufBlank s.hbuf k = some b) :
    runSteps (j + 1) (looping ⟨n, k, .w3 l h⟩ (.engine :: rest) s) =
      runSteps j (looping ⟨n, k, .w4 l⟩ rest
        (setRing .tx ⟨Memory.write ringBlank s.tx.store ((h + l) % s.cfg.capacity) b, s.tx.head, s.tx.length⟩ s)) := by
  refine runSteps_micro hf hp ?_
  have read : hbufRead (looping ⟨n, k, .w3 l h⟩ rest s) k = .ok b := hbufRead_ok.mpr hb
  simp only [microStep, read]
  rfl

theorem runSteps_w4 :
    runSteps (j + 1) (looping ⟨n, k, .w4 l⟩ (.engine :: rest) s) =
      runSteps j (looping ⟨n, k + 1, if k + 1 < n then .w1 else .done⟩ rest
        (setRing .tx ⟨s.tx.store, s.tx.head, l + 1⟩ s)) :=
  runSteps_micro hf hp rfl

theorem runSteps_r1_empty (empty : s.rx.length = 0) :
    runSteps (j + 1) (looping ⟨n, k, .r1⟩ (.engine :: rest) s) = runSteps j (looping ⟨n, k, .done⟩ rest s) :=
  runSteps_micro hf hp (if_pos empty)

theorem runSteps_r1_held (held : s.rx.length ≠ 0) :
    runSteps (j + 1) (looping ⟨n, k, .r1⟩ (.engine :: rest) s) =
      runSteps j (looping ⟨n, k, .r2 s.rx.length⟩ rest s) :=
  runSteps_micro hf hp (if_neg held)

theorem runSteps_r2 :
    runSteps (j + 1) (looping ⟨n, k, .r2 l⟩ (.engine :: rest) s) =
      runSteps j (looping ⟨n, k, .r3 l s.rx.head⟩ rest s) :=
  runSteps_micro hf hp rfl

theorem runSteps_r3 :
    runSteps (j + 1) (looping ⟨n, k, .r3 l h⟩ (.engine :: rest) s) =
      runSteps j (looping ⟨n, k, .r4 l h (ringCell s.rx.store h)⟩ rest s) :=
  runSteps_micro hf hp rfl

theorem runSteps_r4 :
    runSteps (j + 1) (looping ⟨n, k, .r4 l h b⟩ (.engine :: rest) s) =
      runSteps j (looping ⟨n, k, .r5 l b⟩ rest (setRing .rx ⟨s.rx.store, (h + 1) % s.cfg.capacity, s.rx.length⟩ s)) :=
  runSteps_micro hf hp rfl

theorem runSteps_r5 :
    runSteps (j + 1) (looping ⟨n, k, .r5 l b⟩ (.engine :: rest) s) =
      runSteps j (looping ⟨n, k + 1, if k + 1 < n then .r1 else .done⟩ rest
        (hbufWrite k b (setRing .rx ⟨s.rx.store, s.rx.head, l - 1⟩ s))) :=
  runSteps_micro hf hp rfl

theorem runSteps_done :
    runSteps (j + 1) (looping ⟨n, k, .done⟩ (.engine :: rest) s) =
      runSteps j (retire (.ok k) { s with bulk := none, schedule := rest }) :=
  runSteps_micro hf hp rfl

/-- r1 to r3: the length, the head and the oldest byte are read, nothing written. -/
theorem runSteps_readOldest (held : s.rx.length ≠ 0) :
    runSteps (j + 3) (looping ⟨n, k, .r1⟩ (.engine :: .engine :: .engine :: rest) s) =
      runSteps j (looping ⟨n, k, .r4 s.rx.length s.rx.head (ringCell s.rx.store s.rx.head)⟩ rest s) := by
  rw [runSteps_r1_held hf hp held, runSteps_r2 hf hp, runSteps_r3 hf hp]

/-- r4 and r5: the head and the length are written from the values read before, and the byte goes to HBUF. -/
theorem runSteps_release :
    runSteps (j + 2) (looping ⟨n, k, .r4 l h b⟩ (.engine :: .engine :: rest) s) =
      runSteps j (looping ⟨n, k + 1, if k + 1 < n then .r1 else .done⟩ rest
        (hbufWrite k b (setRing .rx ⟨s.rx.store, (h + 1) % s.cfg.capacity, l - 1⟩ s))) := by
  rw [runSteps_r4 hf hp]
  exact runSteps_r5 (s := setRing .rx ⟨s.rx.store, (h + 1) % s.cfg.capacity, s.rx.length⟩ s) hf hp

/-- w1 and w2: the length and the head are read, nothing written. -/
theorem runSteps_claim (room : s.tx.length ≠ s.cfg.capacity) :
    runSteps (j + 2) (looping ⟨n, k, .w1⟩ (.engine :: .engine :: rest) s) =
      runSteps j (looping ⟨n, k, .w3 s.tx.length s.tx.head⟩ rest s) := by
  rw [runSteps_w1_room hf hp room, runSteps_w2 hf hp]

/-- w3 and w4: the cell and the length are written from the values read before. -/
theorem runSteps_append (hb : Memory.read hbufBlank s.hbuf k = some b) :
    runSteps (j + 2) (looping ⟨n, k, .w3 l h⟩ (.engine :: .engine :: rest) s) =
      runSteps j (looping ⟨n, k + 1, if k + 1 < n then .w1 else .done⟩ rest
        (setRing .tx ⟨Memory.write ringBlank s.tx.store ((h + l) % s.cfg.capacity) b, s.tx.head, l + 1⟩ s)) := by
  rw [runSteps_w3 hf hp hb]
  let store := Memory.write ringBlank s.tx.store ((h + l) % s.cfg.capacity) b
  exact runSteps_w4 (s := setRing .tx ⟨store, s.tx.head, s.tx.length⟩ s) hf hp

end

/-! ### R109's races -/

/-- The handler's turn between two micro-steps, with the request raised by a data condition. -/
theorem runSteps_looping_isr {x : Bulk} {j : Nat} {rest : List Turn} {s t : State} (hf : s.faulted = none)
    (hp : s.probe = none) (hmask : s.imask = false) (hctrl : s.sctrla = 0x0F#8) (h7 : s.sstatus.getLsbD 7 = true)
    (ht : slaveIsr (looping x rest s) = .ok (looping x rest t)) :
    runSteps (j + 1) (looping x (.isr :: rest) s) = runSteps j (looping x rest t) := by
  have hd : sDif s.sstatus = true := h7
  have enabled : isrEnabled (looping x rest s) = true := by
    simp only [looping, isrEnabled, hmask, hctrl, sirq_of_allEnabled, hd, Bool.true_or, Bool.not_false, Bool.and_self]
  exact runSteps_succ_listed (s := looping x (.isr :: rest) s) hf hp rfl (turnStep_isr_next.mpr ⟨enabled, ht⟩)

/-- Settles O58: the handler's write counts the byte, and r5 writes back the length r1 read before it. -/
theorem unbracketedDrainLosesAByte : Obligations.UnbracketedDrainLosesAByte := by
  intro s n k l rest hf hp hmask hctrl h7 h1 hphase hbulk hl hpos hroom hwf hs
  subst hl
  obtain ⟨u, hu⟩ : ∃ u, u =
    responded .ack none (.active .w) { s with rx := s.rx.push s.cfg.capacity s.sdata } := ⟨_, rfl⟩
  have answer {x : Bulk} {l : List Turn} : slaveIsr (looping x l s) = .ok (looping x l u) := by
    rw [hu]
    exact (slaveIsr_of_receive (s := looping x l s) h7 h1).trans
      (slaveReceive_of_write (s := looping x l s) hphase (Ring.write_of_room _ hroom))
  have hfu : u.faulted = none := by rw [hu]; exact hf
  have hpu : u.probe = none := by rw [hu]; exact hp
  have run := (runSteps_readOldest (n := n) (k := k) (j := 3) hf hp hpos.ne').trans <|
    (runSteps_looping_isr (j := 2) hf hp hmask hctrl h7 answer).trans
    (runSteps_release (j := 0) (rest := rest) hfu hpu)
  refine ⟨_, (congrArg (runSteps 6) (eq_looping hbulk hs)).trans run, ?_⟩
  rw [hu]
  exact ⟨rfl, ringCell_write_same _ _ hwf, rfl, rfl⟩

/-- Settles O59: the handler's read takes a byte, and w4 writes back the length w1 read before it. -/
theorem unbracketedEnqueueClaimsAPhantom : Obligations.UnbracketedEnqueueClaimsAPhantom := by
  intro s n k l b rest hf hp hmask hctrl h7 h1 hphase hbulk hl hpos hroom hwf hb hs
  subst hl
  obtain ⟨u, hu⟩ : ∃ u, u = responded .ack (some (ringCell s.tx.store s.tx.head)) (.active .r)
    { s with tx := s.tx.dropOldest s.cfg.capacity 1, sdata := ringCell s.tx.store s.tx.head } := ⟨_, rfl⟩
  have answer {x : Bulk} {l : List Turn} : slaveIsr (looping x l s) = .ok (looping x l u) := by
    rw [hu]
    exact (slaveIsr_of_transmit (s := looping x l s) h7 h1).trans
      (slaveTransmit_of_read (s := looping x l s) hphase (Ring.read_ok.mpr ⟨hpos.ne', rfl, rfl⟩))
  have hfu : u.faulted = none := by rw [hu]; exact hf
  have hpu : u.probe = none := by rw [hu]; exact hp
  have hbu : Memory.read hbufBlank u.hbuf k = some b := by rw [hu]; exact hb
  have run := (runSteps_claim (n := n) (k := k) (j := 3) hf hp hroom.ne).trans <|
    (runSteps_looping_isr (j := 2) hf hp hmask hctrl h7 answer).trans
    (runSteps_append (j := 0) (rest := rest) hfu hpu hbu)
  refine ⟨_, (congrArg (runSteps 5) (eq_looping hbulk hs)).trans run, ?_⟩
  rw [hu]
  exact ⟨rfl, rfl, rfl, ringCell_write_same _ _ hwf⟩

/-! ### The undisturbed loop (R219) -/

section

variable {s u v : State} {m k k' e : Nat} {rest : List Turn}

theorem turnStep_engine_idle (hb : s.bulk = none) (hm : s.mstate = .idle) : turnStep .engine s = none := by
  rw [turnStep_engine hb, masterStep, hm]
  rfl

/-- With no command and no transaction in progress, the foreground's turns change nothing. -/
theorem runSteps_idle (hf : s.faulted = none) (hp : s.probe = none) (hb : s.bulk = none) (hm : s.mstate = .idle)
    (hs : s.schedule = List.replicate e .engine ++ rest) : runSteps e s = .next { s with schedule := rest } := by
  induction e generalizing s with
  | zero =>
    rw [List.replicate_zero, List.nil_append] at hs
    rw [runSteps, ← hs]
  | succ e ih =>
    rw [List.replicate_succ, List.cons_append] at hs
    have no_step := turnStep_engine_idle (s := setSchedule (List.replicate e .engine ++ rest) s) hb hm
    have idle : step s = .next (setSchedule (List.replicate e .engine ++ rest) s) := by
      rw [step_of_schedule hf hp hs, takeTurn_of_none no_step]
    simp only [runSteps, idle]
    exact ih (s := setSchedule (List.replicate e .engine ++ rest) s) hf hp hb hm rfl

/-- The loop's last step retires it, and the turns left over change nothing. -/
theorem runSteps_finish {n : Nat} (hf : s.faulted = none) (hp : s.probe = none) (hm : s.mstate = .idle) :
    runSteps (e + 1) (looping ⟨n, k, .done⟩ (List.replicate (e + 1) .engine ++ rest) s) =
      .next (retire (.ok k) { s with bulk := none, schedule := rest }) := by
  rw [List.replicate_succ, List.cons_append, runSteps_done hf hp]
  exact runSteps_idle (s := retire (.ok k) { s with bulk := none, schedule := _ }) hf hp rfl hm rfl

/-- The next iteration of a loop with `m` bytes left after this one. -/
theorem firstMicro_next (k m : Nat) (pos : Micro) :
    (if k + 1 < k + (m + 1) then pos else .done) = firstMicro m pos := by
  cases m <;> simp [firstMicro]

/-- The micro-steps of an undisturbed enqueue do what the bracketed loop does from a state `u` with the same TX and
HBUF. -/
theorem runSteps_enqueueLoop (hf : s.faulted = none) (hp : s.probe = none) (hm : s.mstate = .idle)
    (hlen : s.tx.length ≤ s.cfg.capacity) (he : 5 * m + 1 ≤ e) (tx : u.tx = s.tx) (hbuf : u.hbuf = s.hbuf)
    (cap : u.cfg.capacity = s.cfg.capacity) (loop : enqueueLoop m k u = .ok (k', v)) :
    runSteps e (looping ⟨k + m, k, firstMicro m .w1⟩ (List.replicate e .engine ++ rest) s) =
      .next (retire (.ok k') { s with tx := v.tx, bulk := none, schedule := rest }) := by
  induction m generalizing s u k e with
  | zero =>
    obtain ⟨e, rfl⟩ : ∃ j, e = j + 1 := ⟨e - 1, by omega⟩
    obtain ⟨rfl, rfl⟩ := Prod.mk.inj (Except.ok.inj loop)
    rw [tx]
    exact runSteps_finish hf hp hm
  | succ m ih =>
    by_cases room : s.tx.length < s.cfg.capacity
    · obtain ⟨e, rfl⟩ : ∃ j, e = j + 2 + 2 := ⟨e - 4, by omega⟩
      have room_u : u.tx.length < u.cfg.capacity := by rwa [tx, cap]
      rw [enqueueLoop, if_pos room_u] at loop
      cases hb : hbufRead u k with
      | error x => simp [hb] at loop
      | ok b =>
        simp only [hb, rbWrite_of_room b room_u] at loop
        have held : Memory.read hbufBlank s.hbuf k = some b := hbuf ▸ hbufRead_ok.mp hb
        have later := ih (s := setRing .tx (s.tx.push s.cfg.capacity b) s)
          (u := setRing .tx (u.tx.push u.cfg.capacity b) u) (k := k + 1) (e := e) hf hp hm room
          (by omega) (by rw [tx, cap]; rfl) hbuf cap loop
        rw [Nat.add_assoc, Nat.add_comm 1 m] at later
        refine (runSteps_claim (j := e + 2) hf hp room.ne).trans ((runSteps_append (j := e) hf hp held).trans ?_)
        rw [firstMicro_next]
        exact later
    · obtain ⟨e, rfl⟩ : ∃ j, e = j + 1 + 1 := ⟨e - 2, by omega⟩
      have full_u : ¬ u.tx.length < u.cfg.capacity := by rwa [tx, cap]
      rw [enqueueLoop, if_neg full_u] at loop
      obtain ⟨rfl, rfl⟩ := Prod.mk.inj (Except.ok.inj loop)
      rw [tx]
      exact (runSteps_w1_full (j := e + 1) hf hp (by omega)).trans (runSteps_finish hf hp hm)

/-- The micro-steps of an undisturbed drain do what the bracketed loop does from a state `u` with the same RX and HBUF. -/
theorem runSteps_drainLoop (hf : s.faulted = none) (hp : s.probe = none) (hm : s.mstate = .idle)
    (he : 5 * m + 1 ≤ e) (rx : u.rx = s.rx) (hbuf : u.hbuf = s.hbuf) (cap : u.cfg.capacity = s.cfg.capacity)
    (loop : drainLoop m k u = .ok (k', v)) :
    runSteps e (looping ⟨k + m, k, firstMicro m .r1⟩ (List.replicate e .engine ++ rest) s) =
      .next (retire (.ok k') { s with rx := v.rx, hbuf := v.hbuf, bulk := none, schedule := rest }) := by
  induction m generalizing s u k e with
  | zero =>
    obtain ⟨e, rfl⟩ : ∃ j, e = j + 1 := ⟨e - 1, by omega⟩
    obtain ⟨rfl, rfl⟩ := Prod.mk.inj (Except.ok.inj loop)
    rw [rx, hbuf]
    exact runSteps_finish hf hp hm
  | succ m ih =>
    by_cases empty : s.rx.length = 0
    · obtain ⟨e, rfl⟩ : ∃ j, e = j + 1 + 1 := ⟨e - 2, by omega⟩
      have noData : rbRead .fg .rx u = .ok (.error .noData) := by
        simp only [rbRead, ringReader, ring, Ring.read_error.mpr ⟨rx ▸ empty, rfl⟩, if_true]
      rw [drainLoop, noData] at loop
      obtain ⟨rfl, rfl⟩ := Prod.mk.inj (Except.ok.inj loop)
      rw [rx, hbuf]
      exact (runSteps_r1_empty (j := e + 1) hf hp empty).trans (runSteps_finish hf hp hm)
    · obtain ⟨e, rfl⟩ : ∃ j, e = j + 2 + 3 := ⟨e - 5, by omega⟩
      have taken := Ring.read_ok (c := u.cfg.capacity) (r := u.rx).mpr ⟨rx ▸ empty, rfl, rfl⟩
      simp only [drainLoop, rbRead, ringReader, ring, taken, if_true] at loop
      have later := ih (e := e) (k := k + 1)
        (s := hbufWrite k (ringCell s.rx.store s.rx.head)
          (setRing .rx ⟨s.rx.store, (s.rx.head + 1) % s.cfg.capacity, s.rx.length - 1⟩ s))
        (u := hbufWrite k (ringCell u.rx.store u.rx.head)
          (setRing .rx ⟨u.rx.store, (u.rx.head + 1) % u.cfg.capacity, u.rx.length - 1⟩ u))
        hf hp hm (by omega) (by rw [rx, cap]; rfl) (by rw [rx]; exact congrArg (Memory.write _ · k _) hbuf) cap loop
      rw [Nat.add_assoc, Nat.add_comm 1 m] at later
      refine (runSteps_readOldest (j := e + 2) hf hp empty).trans ((runSteps_release (j := e) hf hp).trans ?_)
      rw [firstMicro_next]
      exact later

end

/-! ### The command before the loop -/

section

variable {s t : State} {n : Byte} {rest : List Turn}

/-- The host's write of a command that runs: the first step of the run. -/
theorem runSteps_command {i : Instr} {j : Nat} (hi : formatOf i = .hcmd) (hwf : i.wf s.cfg.capacity = true)
    (hf : s.faulted = none) (hp : s.probe = none) (hbusy : busy s = false)
    (hs : s.schedule = .host (.write 0x00 32 (encode i)) :: rest) (h : exec i (setSchedule rest s) = .next t) :
    runSteps (j + 1) s = runSteps j t := by
  refine runSteps_succ_listed hf hp hs ?_
  rw [turnStep_command (s := setSchedule rest s) _ hbusy, issue_ok (s := setSchedule rest s)
    (decode_of_encode_hcmd hi hwf), h]

/-- The un-bracketed SENQ ends where the bracketed one does. -/
theorem undisturbed_senq (hf : s.faulted = none) (hp : s.probe = none) (hb : s.bulk = none) (hm : s.mstate = .idle)
    (hbusy : busy s = false) (hbracket : s.cfg.bracket = false) (hlen : s.tx.length ≤ s.cfg.capacity)
    (hs : s.schedule = .host (.write 0x00 32 (encode (.senq n))) :: (List.replicate (5 * n.toNat + 2) .engine ++ rest))
    (h : exec (.senq n) { s with cfg := { s.cfg with bracket := true } } = .next t) :
    runSteps (5 * n.toNat + 3) s = .next { t with cfg := s.cfg, schedule := rest } := by
  obtain ⟨-, hn, ⟨-, ht⟩ | ⟨no_bracket, -⟩⟩ := execSenq_next.mp h
  · obtain ⟨k, v, loop, rfl⟩ := bulkNow_ok.mp ht
    have accepted : exec (.senq n) (setSchedule (List.replicate (5 * n.toNat + 2) .engine ++ rest) s) = .next _ :=
      execSenq_next.mpr ⟨hbusy, hn, .inr ⟨hbracket, rfl⟩⟩
    have run := runSteps_enqueueLoop (s := accept s) (rest := rest) (k := 0) (e := 5 * n.toNat + 2)
      (u := setImask true (accept { s with cfg := { s.cfg with bracket := true } })) (m := n.toNat) hf hp hm hlen
      (by omega) rfl rfl rfl loop
    rw [Nat.zero_add] at run
    rw [runSteps_command (s := s) (i := .senq n) (j := 5 * n.toNat + 2) rfl (decide_eq_true hn) hf hp hbusy hs accepted]
    refine run.trans ?_
    rw [enqueueLoop_frame loop, ← hb]
    rfl
  · cases no_bracket

/-- The un-bracketed SDRAIN ends where the bracketed one does. -/
theorem undisturbed_sdrain (hf : s.faulted = none) (hp : s.probe = none) (hb : s.bulk = none) (hm : s.mstate = .idle)
    (hbusy : busy s = false) (hbracket : s.cfg.bracket = false)
    (hs : s.schedule = .host (.write 0x00 32 (encode (.sdrain n))) :: (List.replicate (5 * n.toNat + 2) .engine ++ rest))
    (h : exec (.sdrain n) { s with cfg := { s.cfg with bracket := true } } = .next t) :
    runSteps (5 * n.toNat + 3) s = .next { t with cfg := s.cfg, schedule := rest } := by
  obtain ⟨-, hn, ⟨-, ht⟩ | ⟨no_bracket, -⟩⟩ := execSdrain_next.mp h
  · obtain ⟨k, v, loop, rfl⟩ := bulkNow_ok.mp ht
    have accepted : exec (.sdrain n) (setSchedule (List.replicate (5 * n.toNat + 2) .engine ++ rest) s) = .next _ :=
      execSdrain_next.mpr ⟨hbusy, hn, .inr ⟨hbracket, rfl⟩⟩
    have run := runSteps_drainLoop (s := accept s) (rest := rest) (k := 0) (e := 5 * n.toNat + 2)
      (u := setImask true (accept { s with cfg := { s.cfg with bracket := true } })) (m := n.toNat) hf hp hm
      (by omega) rfl rfl rfl loop
    rw [Nat.zero_add] at run
    rw [runSteps_command (s := s) (i := .sdrain n) (j := 5 * n.toNat + 2) rfl (decide_eq_true hn) hf hp hbusy hs accepted]
    refine run.trans ?_
    rw [drainLoop_frame loop, ← hb]
    rfl
  · cases no_bracket

end

/-- Settles O60: the loop's micro-steps, with no other agent's turn between, do what the bracketed loop does at once. -/
theorem undisturbedLoopMatchesBracketed : Obligations.UndisturbedLoopMatchesBracketed := by
  intro s t i n rest hf hp hb hm hbusy hbracket hrange hi hs h
  obtain ⟨-, tx, -⟩ := ringsInRange_iff.mp hrange
  rcases hi with rfl | rfl
  · exact undisturbed_senq hf hp hb hm hbusy hbracket tx.2 hs h
  · exact undisturbed_sdrain hf hp hb hm hbusy hbracket hs h

end Sys2Proof
end
